-- ==== Sys2Proof/Word.lean ====
section
/-! DEFINITION. The widths of GBE-CORE's values (00_scope.md R11), as bit vectors where the spec
treats a value as bits.  Counts, indices into an array and cycle counts are `Nat`. -/

namespace Sys2Proof

/-- `u8`: a surface register, a byte of VRAM, OAM, cartridge image or cartridge RAM. -/
abbrev Byte := BitVec 8

/-- `u32`: the command word of R110. -/
abbrev Word := BitVec 32

/-- `u16`: a CPU-side address (R80). -/
abbrev Addr := BitVec 16

/-- `u24`: the payload of a command word (R110), the cycle count of format P (R112). -/
abbrev Payload := BitVec 24

/-- A frame-buffer cell or a colour id: a 2-bit value 0..3 (R16, R47). -/
abbrev Shade := BitVec 2

end Sys2Proof
end

