-- ==== Sys2Proof/Config.lean ====
section
/-! DEFINITION. The parameters of GBE-CORE (00_scope.md R9): the fixed constants, the parameters the
spec leaves OPEN (a record `Config` that State carries and no step changes), and the forms of the answers
of the external collaborators (CPU, timer, input latch). -/

namespace Sys2Proof

/-! ## Constants fixed by the source or decided by the spec (R9) -/

/-- `LINES_PER_FRAME`: scanlines 0..153 (R9). -/
def linesPerFrame : Nat := 154

/-- `FRAME_CYCLES` = 154 × 456 (R9). -/
def frameCycles : Nat := 70224

/-- `T_LINE` (R9). -/
def lineCycles : Nat := 456

/-! ## OPEN parameters -/

/-- `MBC2_ENABLE_SELECT`: which bit a variant-B RAM-enable write tests (R253, D28). -/
inductive EnableSelect where
  | addrBit8
  | dataBit0
  deriving DecidableEq, Repr, Inhabited

/-- `BEHIND_TEST`: what a behind-background sprite pixel is compared with (R208, D14). -/
inductive BehindTest where
  | bgpId0
  | shade0
  deriving DecidableEq, Repr, Inhabited

/-- `DISPATCH_READ`: whether IE and IF are read afresh for each line (R354, D25). -/
inductive DispatchRead where
  | fresh
  | snapshot
  deriving DecidableEq, Repr, Inhabited

/-- `VARIANT_ACD_MODEL`: the physical chips of 44_cartridge_gk.md, or no algorithm at all (R7, D34). -/
inductive AcdModel where
  | physical
  | unspecified
  deriving DecidableEq, Repr, Inhabited

/-- `OUTPUT_COLOR[0..3]`: the output colours of the four shades, whose numbers the spec leaves OPEN (R48, D43). -/
structure OutputColors where
  white : Nat
  lightGray : Nat
  darkGray : Nat
  black : Nat
  deriving DecidableEq, Repr, Inhabited

/-- The OPEN parameters of R9, the arguments of the model (R9 "a named argument of the model").
A state carries one such record and no step changes it (assumption log 2). -/
structure Config where
  /-- `CLOCK_HZ` (R351, D24). -/
  clockHz : Nat
  /-- `REFRESH_HZ` (R351, D24). -/
  refreshHz : Nat
  /-- `TALL_SPRITE_MASK_LSB` (R205, D13). -/
  tallSpriteMaskLsb : Bool
  mbc2EnableSelect : EnableSelect
  behindTest : BehindTest
  dispatchRead : DispatchRead
  variantAcdModel : AcdModel
  /-- `CART_RAM_INIT`: what cartridge RAM holds at load, as (index, byte) pairs, 0 where none is listed (R250, R290, D31). -/
  cartRamInit : List (Nat × Byte)
  outputColor : OutputColors
  deriving DecidableEq, Repr, Inhabited

/-- The decided defaults of R9.  The four output colours have no decided default: here colour `n` is
named by the number `n` (assumption log 3). -/
def Config.default : Config :=
  { clockHz := 4194304, refreshHz := 60, tallSpriteMaskLsb := false,
    mbc2EnableSelect := .addrBit8, behindTest := .bgpId0, dispatchRead := .fresh,
    variantAcdModel := .physical, cartRamInit := [],
    outputColor := { white := 0, lightGray := 1, darkGray := 2, black := 3 } }

/-! ## The external collaborators' answers (R5, R51, R358 to R361)

What a collaborator answers to one call, as plain data, and the CPU's step as it unfolds.  Where no harness
scripted an answer it is a free value, a constant with no body of Machine/State.lean. -/

/-- One access of the CPU to its bus, by its 16-bit CPU address (R358, R87). -/
inductive Access where
  | read (addr : Addr)
  | write (addr : Addr) (data : Byte)
  deriving DecidableEq, Repr, Inhabited

/-- What a CPU step does to the deferred-enable latch (R357, R412): nothing, the enable-interrupts
instruction, the return from a handler, or any other setting of the two states. -/
inductive EnableEffect where
  | keep
  | enable
  | returnFromHandler
  | put (pending active : Bool)
  deriving DecidableEq, Repr, Inhabited

/-- How a CPU step ends: its cycles less one, so that the premise `c ≥ 1` of R358 stands in the type
(D26), its effect on the enable latch, and the CPU's own state after it. -/
structure CpuDone where
  cyclesLess1 : Nat
  enable : EnableEffect
  inner : Nat
  deriving DecidableEq, Repr, Inhabited

/-- One `cpu.step()` as it unfolds (R358): its accesses in the order the CPU issues them, what follows a
read depending on the byte read (none where the address leads outside the block, R87), and its end. -/
inductive CpuPlan where
  | done (d : CpuDone)
  | write (addr : Addr) (data : Byte) (rest : CpuPlan)
  | read (addr : Addr) (rest : Option Byte → CpuPlan)
  deriving Inhabited

/-- A `cpu.step()` a harness scripted: its cycles less one, its bus accesses in order, and its effect on
the enable latch. -/
structure CpuAct where
  cyclesLess1 : Nat
  accesses : List Access
  enable : EnableEffect
  deriving DecidableEq, Repr, Inhabited

/-- These accesses, and then `last`. -/
def CpuPlan.after (last : CpuPlan) : List Access → CpuPlan
  | [] => last
  | .read addr :: rest => .read addr (fun _ => CpuPlan.after last rest)
  | .write addr data :: rest => .write addr data (CpuPlan.after last rest)

/-- A scripted step unfolds the same way whatever its reads give, and leaves the CPU's own state as it was. -/
def CpuAct.plan (inner : Nat) (a : CpuAct) : CpuPlan :=
  CpuPlan.after (.done { cyclesLess1 := a.cyclesLess1, enable := a.enable, inner := inner }) a.accesses

/-- The answer of one `timer.advance`: writes to its own registers, and whether it requests line 2 (R360). -/
structure TimerAct where
  writes : List (Addr × Byte)
  request : Bool
  deriving DecidableEq, Repr, Inhabited

/-- The answer of one `latch.advance`: the new JOYP byte, none where it stays, and whether line 4 is
requested (R361). -/
structure LatchAct where
  joyp : Option Byte
  request : Bool
  deriving DecidableEq, Repr, Inhabited

/-- What the CPU writes over its bus when it takes an interrupt (the push of its program counter, R359, R411). -/
structure EntryAct where
  writes : List (Addr × Byte)
  deriving DecidableEq, Repr, Inhabited

end Sys2Proof
end

