-- ==== Sys2Proof/Syntax.lean ====
section
/-! DEFINITION. The operations of GBE-CORE: one constructor per row of spec/opcode_table.json (R122),
the cartridge variants they are selected by (R119, R242) and the reasons a word is refused for (R120).
Operands have the widths of R112, R113 and R116. -/

namespace Sys2Proof

/-- `cart.variant` (R49, R242). -/
inductive Variant where
  | fixed
  | a
  | b
  | c
  | d
  deriving DecidableEq, Repr, Inhabited

/-- The refusal reasons of R120, in the order of its table. -/
inductive RefusalReason where
  | reservedUnit
  | reservedOp
  | reservedBits
  | unroutedCartAddress
  | unroutedSurfaceAddress
  | internalEventAtInterface
  | noCartridge
  | unspecifiedVariant
  | reload
  deriving DecidableEq, Repr, Inhabited

/-- The operations and internal events of GBE-CORE (R122). -/
inductive Instr where
  /-- `PPU.ADVANCE` (R150) -/
  | ppuAdvance (cycles : Payload)
  /-- `CART.F.RD_ROM0` (R245) -/
  | cartFRdRom0 (addr : Addr)
  /-- `CART.F.RD_ROMX` (R246) -/
  | cartFRdRomx (addr : Addr)
  /-- `CART.F.RD_RAM` (R248) -/
  | cartFRdRam (addr : Addr)
  /-- `CART.F.WR_ROM` (R247) -/
  | cartFWrRom (addr : Addr) (data : Byte)
  /-- `CART.F.WR_RAM` (R249) -/
  | cartFWrRam (addr : Addr) (data : Byte)
  /-- `CART.A.RD_ROM0` (R292) -/
  | cartARdRom0 (addr : Addr)
  /-- `CART.A.RD_ROMX` (R293) -/
  | cartARdRomx (addr : Addr)
  /-- `CART.A.RD_RAM` (R298) -/
  | cartARdRam (addr : Addr)
  /-- `CART.A.WR_RAMEN` (R294) -/
  | cartAWrRamen (addr : Addr) (data : Byte)
  /-- `CART.A.WR_BANK1` (R295) -/
  | cartAWrBank1 (addr : Addr) (data : Byte)
  /-- `CART.A.WR_BANK2` (R296) -/
  | cartAWrBank2 (addr : Addr) (data : Byte)
  /-- `CART.A.WR_MODE` (R297) -/
  | cartAWrMode (addr : Addr) (data : Byte)
  /-- `CART.A.WR_RAM` (R299) -/
  | cartAWrRam (addr : Addr) (data : Byte)
  /-- `CART.B.RD_ROM0` (R251) -/
  | cartBRdRom0 (addr : Addr)
  /-- `CART.B.RD_ROMX` (R252) -/
  | cartBRdRomx (addr : Addr)
  /-- `CART.B.RD_RAM` (R256) -/
  | cartBRdRam (addr : Addr)
  /-- `CART.B.WR_RAMEN` (R253) -/
  | cartBWrRamen (addr : Addr) (data : Byte)
  /-- `CART.B.WR_ROMB` (R254) -/
  | cartBWrRomb (addr : Addr) (data : Byte)
  /-- `CART.B.WR_HI` (R255) -/
  | cartBWrHi (addr : Addr) (data : Byte)
  /-- `CART.B.WR_RAM` (R257) -/
  | cartBWrRam (addr : Addr) (data : Byte)
  /-- `CART.C.RD_ROM0` (R301) -/
  | cartCRdRom0 (addr : Addr)
  /-- `CART.C.RD_ROMX` (R302) -/
  | cartCRdRomx (addr : Addr)
  /-- `CART.C.RD_RAM` (R307) -/
  | cartCRdRam (addr : Addr)
  /-- `CART.C.WR_RAMEN` (R303) -/
  | cartCWrRamen (addr : Addr) (data : Byte)
  /-- `CART.C.WR_ROMB` (R304) -/
  | cartCWrRomb (addr : Addr) (data : Byte)
  /-- `CART.C.WR_RAMSEL` (R305) -/
  | cartCWrRamsel (addr : Addr) (data : Byte)
  /-- `CART.C.WR_LATCH` (R306) -/
  | cartCWrLatch (addr : Addr) (data : Byte)
  /-- `CART.C.WR_RAM` (R308) -/
  | cartCWrRam (addr : Addr) (data : Byte)
  /-- `CART.D.RD_ROM0` (R311) -/
  | cartDRdRom0 (addr : Addr)
  /-- `CART.D.RD_ROMX` (R312) -/
  | cartDRdRomx (addr : Addr)
  /-- `CART.D.RD_RAM` (R318) -/
  | cartDRdRam (addr : Addr)
  /-- `CART.D.WR_RAMEN` (R313) -/
  | cartDWrRamen (addr : Addr) (data : Byte)
  /-- `CART.D.WR_ROMB_LO` (R314) -/
  | cartDWrRombLo (addr : Addr) (data : Byte)
  /-- `CART.D.WR_ROMB_HI` (R315) -/
  | cartDWrRombHi (addr : Addr) (data : Byte)
  /-- `CART.D.WR_RAMB` (R316) -/
  | cartDWrRamb (addr : Addr) (data : Byte)
  /-- `CART.D.WR_6000` (R317) -/
  | cartDWr6000 (addr : Addr) (data : Byte)
  /-- `CART.D.WR_RAM` (R319) -/
  | cartDWrRam (addr : Addr) (data : Byte)
  /-- `ORCH.TICK` (R350) -/
  | orchTick
  /-- `HOST.COMMIT` (R363) -/
  | hostCommit
  /-- `CART.LOAD` (R241); the image travels outside the word (R115) -/
  | cartLoad
  /-- `ENV.RD` (R141) -/
  | envRd (addr : Addr)
  /-- `ENV.WR_STAT` (R143) -/
  | envWrStat (data : Byte)
  /-- `ENV.WR_LY` (R144) -/
  | envWrLy (data : Byte)
  /-- `ENV.WR` (R142) -/
  | envWr (addr : Addr) (data : Byte)
  /-- `PPU.LCD_OFF` (R159), internal -/
  | ppuLcdOff
  /-- `PPU.T_OAM_VRAM` (R153), internal -/
  | ppuTOamVram
  /-- `PPU.T_VRAM_HBLANK` (R154), internal -/
  | ppuTVramHblank
  /-- `PPU.T_HBLANK_OAM` (R155), internal -/
  | ppuTHblankOam
  /-- `PPU.T_HBLANK_VBLANK` (R156), internal -/
  | ppuTHblankVblank
  /-- `PPU.T_VBLANK_LINE` (R157), internal -/
  | ppuTVblankLine
  /-- `PPU.T_VBLANK_OAM` (R158), internal -/
  | ppuTVblankOam
  /-- `PPU.LYC_CHECK` (R160), internal -/
  | ppuLycCheck
  /-- `RASTER.BGWIN` (R190), internal -/
  | rasterBgwin
  /-- `RASTER.OBJ` (R201), internal -/
  | rasterObj
  /-- `ORCH.STEP` (R353), internal -/
  | orchStep
  /-- `ORCH.DISPATCH` (R354), internal -/
  | orchDispatch
  deriving DecidableEq, Repr, Inhabited

end Sys2Proof
end

