-- ==== Sys2Proof/WellFormed.lean ====
section
/-! DEFINITION. Which operations a command word can spell: the address windows of spec/opcode_table.json
(`addr_range`), that is of R116 (surface), R119 (cartridge) and R142 (not STAT, not LY). -/

namespace Sys2Proof

/-- `lo ≤ addr ≤ hi`, unsigned. -/
def Addr.within (addr : Addr) (lo hi : Nat) : Bool :=
  decide (lo ≤ addr.toNat) && decide (addr.toNat ≤ hi)

/-- `SurfaceRanges` of R141: VRAM, OAM, the I/O range and IE. -/
def Addr.surfaceRange (addr : Addr) : Bool :=
  addr.within 0x8000 0x9FFF || addr.within 0xFE00 0xFE9F || addr.within 0xFF00 0xFF7F
    || addr.within 0xFFFF 0xFFFF

/-- An operation whose operands the spec's encoding admits.  Data and cycle operands are free at
their width, so only addresses are checked. -/
def Instr.wellFormed : Instr → Bool
  | .ppuAdvance _ => true
  | .cartFRdRom0 a => a.within 0x0000 0x3FFF
  | .cartFRdRomx a => a.within 0x4000 0x7FFF
  | .cartFRdRam a => a.within 0xA000 0xBFFF
  | .cartFWrRom a _ => a.within 0x0000 0x7FFF
  | .cartFWrRam a _ => a.within 0xA000 0xBFFF
  | .cartARdRom0 a => a.within 0x0000 0x3FFF
  | .cartARdRomx a => a.within 0x4000 0x7FFF
  | .cartARdRam a => a.within 0xA000 0xBFFF
  | .cartAWrRamen a _ => a.within 0x0000 0x1FFF
  | .cartAWrBank1 a _ => a.within 0x2000 0x3FFF
  | .cartAWrBank2 a _ => a.within 0x4000 0x5FFF
  | .cartAWrMode a _ => a.within 0x6000 0x7FFF
  | .cartAWrRam a _ => a.within 0xA000 0xBFFF
  | .cartBRdRom0 a => a.within 0x0000 0x3FFF
  | .cartBRdRomx a => a.within 0x4000 0x7FFF
  | .cartBRdRam a => a.within 0xA000 0xBFFF
  | .cartBWrRamen a _ => a.within 0x0000 0x1FFF
  | .cartBWrRomb a _ => a.within 0x2000 0x3FFF
  | .cartBWrHi a _ => a.within 0x4000 0x7FFF
  | .cartBWrRam a _ => a.within 0xA000 0xBFFF
  | .cartCRdRom0 a => a.within 0x0000 0x3FFF
  | .cartCRdRomx a => a.within 0x4000 0x7FFF
  | .cartCRdRam a => a.within 0xA000 0xBFFF
  | .cartCWrRamen a _ => a.within 0x0000 0x1FFF
  | .cartCWrRomb a _ => a.within 0x2000 0x3FFF
  | .cartCWrRamsel a _ => a.within 0x4000 0x5FFF
  | .cartCWrLatch a _ => a.within 0x6000 0x7FFF
  | .cartCWrRam a _ => a.within 0xA000 0xBFFF
  | .cartDRdRom0 a => a.within 0x0000 0x3FFF
  | .cartDRdRomx a => a.within 0x4000 0x7FFF
  | .cartDRdRam a => a.within 0xA000 0xBFFF
  | .cartDWrRamen a _ => a.within 0x0000 0x1FFF
  | .cartDWrRombLo a _ => a.within 0x2000 0x2FFF
  | .cartDWrRombHi a _ => a.within 0x3000 0x3FFF
  | .cartDWrRamb a _ => a.within 0x4000 0x5FFF
  | .cartDWr6000 a _ => a.within 0x6000 0x7FFF
  | .cartDWrRam a _ => a.within 0xA000 0xBFFF
  | .orchTick => true
  | .hostCommit => true
  | .cartLoad => true
  | .envRd a => a.surfaceRange
  | .envWrStat _ => true
  | .envWrLy _ => true
  | .envWr a _ => a.surfaceRange && a != 0xFF41#16 && a != 0xFF44#16
  | .ppuLcdOff => true
  | .ppuTOamVram => true
  | .ppuTVramHblank => true
  | .ppuTHblankOam => true
  | .ppuTHblankVblank => true
  | .ppuTVblankLine => true
  | .ppuTVblankOam => true
  | .ppuLycCheck => true
  | .rasterBgwin => true
  | .rasterObj => true
  | .orchStep => true
  | .orchDispatch => true

end Sys2Proof
end

