-- ==== Sys2Proof/Decode.lean ====
section
/-! DEFINITION. The command word (30_encoding.md): fields, the decoder with its refusals in the order
of R120, the encoder, and the row-by-row entry `decodeTableWord`.  What a word names depends on more
than its bits: on `cart.variant` (R119), on whether a cartridge is loaded (R120), on
`VARIANT_ACD_MODEL` and on who presents it (R117); the decoder takes these as a `Context`. -/

namespace Sys2Proof

/-! ## Fields (R110, R113, R116, R118) -/

/-- `UNIT = w[31:28]`. -/
def unitOf (w : Word) : Nat := (w.extractLsb' 28 4).toNat

/-- `OP = w[27:24]`. -/
def opOf (w : Word) : Nat := (w.extractLsb' 24 4).toNat

/-- `w[23:0]`, the payload. -/
def payloadOf (w : Word) : Payload := w.extractLsb' 0 24

/-- `addr = w[23:8]` (formats C and E). -/
def addrOf (w : Word) : Addr := w.extractLsb' 8 16

/-- `data = w[7:0]` (formats C and E). -/
def dataOf (w : Word) : Byte := w.extractLsb' 0 8

/-- What the meaning of a word depends on beside its bits. -/
structure Context where
  /-- The loaded cartridge's variant, none before a successful load. -/
  variant : Option Variant
  /-- `VARIANT_ACD_MODEL`. -/
  acd : AcdModel
  /-- Whether the word was produced inside the block by the rule that owns it (R117). -/
  inside : Bool
  deriving DecidableEq, Repr, Inhabited

/-! ## Cartridge operation selection (R119) -/

/-- The `RW = 0` rows of R119's table. -/
def selectRead (v : Variant) (addr : Addr) : Option Instr :=
  if addr.toNat ≤ 0x3FFF then
    some (match v with
      | .fixed => .cartFRdRom0 addr
      | .a => .cartARdRom0 addr
      | .b => .cartBRdRom0 addr
      | .c => .cartCRdRom0 addr
      | .d => .cartDRdRom0 addr)
  else if addr.toNat ≤ 0x7FFF then
    some (match v with
      | .fixed => .cartFRdRomx addr
      | .a => .cartARdRomx addr
      | .b => .cartBRdRomx addr
      | .c => .cartCRdRomx addr
      | .d => .cartDRdRomx addr)
  else if 0xA000 ≤ addr.toNat ∧ addr.toNat ≤ 0xBFFF then
    some (match v with
      | .fixed => .cartFRdRam addr
      | .a => .cartARdRam addr
      | .b => .cartBRdRam addr
      | .c => .cartCRdRam addr
      | .d => .cartDRdRam addr)
  else none

/-- The `RW = 1` rows of R119's table. -/
def selectWrite (v : Variant) (addr : Addr) (data : Byte) : Option Instr :=
  if addr.toNat ≤ 0x1FFF then
    some (match v with
      | .fixed => .cartFWrRom addr data
      | .a => .cartAWrRamen addr data
      | .b => .cartBWrRamen addr data
      | .c => .cartCWrRamen addr data
      | .d => .cartDWrRamen addr data)
  else if addr.toNat ≤ 0x2FFF then
    some (match v with
      | .fixed => .cartFWrRom addr data
      | .a => .cartAWrBank1 addr data
      | .b => .cartBWrRomb addr data
      | .c => .cartCWrRomb addr data
      | .d => .cartDWrRombLo addr data)
  else if addr.toNat ≤ 0x3FFF then
    some (match v with
      | .fixed => .cartFWrRom addr data
      | .a => .cartAWrBank1 addr data
      | .b => .cartBWrRomb addr data
      | .c => .cartCWrRomb addr data
      | .d => .cartDWrRombHi addr data)
  else if addr.toNat ≤ 0x5FFF then
    some (match v with
      | .fixed => .cartFWrRom addr data
      | .a => .cartAWrBank2 addr data
      | .b => .cartBWrHi addr data
      | .c => .cartCWrRamsel addr data
      | .d => .cartDWrRamb addr data)
  else if addr.toNat ≤ 0x7FFF then
    some (match v with
      | .fixed => .cartFWrRom addr data
      | .a => .cartAWrMode addr data
      | .b => .cartBWrHi addr data
      | .c => .cartCWrLatch addr data
      | .d => .cartDWr6000 addr data)
  else if 0xA000 ≤ addr.toNat ∧ addr.toNat ≤ 0xBFFF then
    some (match v with
      | .fixed => .cartFWrRam addr data
      | .a => .cartAWrRam addr data
      | .b => .cartBWrRam addr data
      | .c => .cartCWrRam addr data
      | .d => .cartDWrRam addr data)
  else none

/-- Variants A, C and D, whose algorithms `VARIANT_ACD_MODEL` governs (R7). -/
def Variant.governedByAcdModel : Variant → Bool
  | .fixed | .b => false
  | .a | .c | .d => true

/-- The surface ranges a format-E address must lie in (R80, R116). -/
def routedSurface (addr : Addr) : Bool :=
  decide ((0x8000 ≤ addr.toNat ∧ addr.toNat ≤ 0x9FFF) ∨ (0xFE00 ≤ addr.toNat ∧ addr.toNat ≤ 0xFE9F)
    ∨ (0xFF00 ≤ addr.toNat ∧ addr.toNat ≤ 0xFF7F) ∨ addr.toNat = 0xFFFF)

/-- The cartridge-port ranges a format-C address must lie in (R80, R119). -/
def routedCart (addr : Addr) : Bool :=
  decide (addr.toNat ≤ 0x7FFF ∨ (0xA000 ≤ addr.toNat ∧ addr.toNat ≤ 0xBFFF))

/-! ## The decoder, one function per unit, refusals in the order of R120 -/

/-- Format P (R112). -/
def decodePpu (w : Word) : Except RefusalReason Instr :=
  if opOf w ≠ 0 then .error .reservedOp
  else .ok (.ppuAdvance (payloadOf w))

/-- Format C (R113, R119). -/
def decodeCart (c : Context) (w : Word) : Except RefusalReason Instr :=
  if 1 < opOf w then .error .reservedOp
  else if opOf w = 0 ∧ dataOf w ≠ 0 then .error .reservedBits
  else if routedCart (addrOf w) = false then .error .unroutedCartAddress
  else match c.variant with
    | none => .error .noCartridge
    | some v =>
      if v.governedByAcdModel = true ∧ c.acd = .unspecified then .error .unspecifiedVariant
      else match (if opOf w = 0 then selectRead v (addrOf w) else selectWrite v (addrOf w) (dataOf w)) with
        | some i => .ok i
        | none => .error .unroutedCartAddress

/-- Format O (R114). -/
def decodeOrch (c : Context) (w : Word) : Except RefusalReason Instr :=
  if 1 < opOf w then .error .reservedOp
  else if payloadOf w ≠ 0 then .error .reservedBits
  else if c.variant = none then .error .noCartridge
  else .ok (if opOf w = 0 then .orchTick else .hostCommit)

/-- Format L (R115); a load after a successful load is `Reload`. -/
def decodeLoad (c : Context) (w : Word) : Except RefusalReason Instr :=
  if opOf w ≠ 0 then .error .reservedOp
  else if payloadOf w ≠ 0 then .error .reservedBits
  else if c.variant ≠ none then .error .reload
  else .ok .cartLoad

/-- Format E (R116), with the decode precedence of R121. -/
def decodeEnv (w : Word) : Except RefusalReason Instr :=
  if 1 < opOf w then .error .reservedOp
  else if opOf w = 0 ∧ dataOf w ≠ 0 then .error .reservedBits
  else if routedSurface (addrOf w) = false then .error .unroutedSurfaceAddress
  else .ok
    (if opOf w = 0 then .envRd (addrOf w)
     else if addrOf w = 0xFF41#16 then .envWrStat (dataOf w)
     else if addrOf w = 0xFF44#16 then .envWrLy (dataOf w)
     else .envWr (addrOf w) (dataOf w))

/-- The PPU's internal events by `OP` (R117). -/
def ppuEvent : Nat → Option Instr
  | 0 => some .ppuLcdOff
  | 1 => some .ppuTOamVram
  | 2 => some .ppuTVramHblank
  | 3 => some .ppuTHblankOam
  | 4 => some .ppuTHblankVblank
  | 5 => some .ppuTVblankLine
  | 6 => some .ppuTVblankOam
  | 7 => some .ppuLycCheck
  | 8 => some .rasterBgwin
  | 9 => some .rasterObj
  | _ => none

/-- The orchestrator's internal events by `OP` (R117). -/
def orchEvent : Nat → Option Instr
  | 0 => some .orchStep
  | 1 => some .orchDispatch
  | _ => none

/-- Format I (R117): legal only where the rule that owns the event produced it. -/
def decodeEvent (event : Option Instr) (c : Context) (w : Word) : Except RefusalReason Instr :=
  match event with
  | none => .error .reservedOp
  | some i =>
    if payloadOf w ≠ 0 then .error .reservedBits
    else if c.inside = false then .error .internalEventAtInterface
    else .ok i

/-- The decoder: total on the 32-bit words, refusing by name (R110 to R121). -/
def decode (c : Context) (w : Word) : Except RefusalReason Instr :=
  match unitOf w with
  | 0x1 => decodePpu w
  | 0x2 => decodeCart c w
  | 0x3 => decodeOrch c w
  | 0x4 => decodeLoad c w
  | 0x5 => decodeEnv w
  | 0x8 => decodeEvent (ppuEvent (opOf w)) c w
  | 0x9 => decodeEvent (orchEvent (opOf w)) c w
  | _ => .error .reservedUnit

/-! ## The encoder -/

/-- A word from unit, operation and payload (R110). -/
def wordP (unit op : BitVec 4) (payload : Payload) : Word := unit ++ op ++ payload

/-- A word of format C or E (R113, R116). -/
def wordAD (unit op : BitVec 4) (addr : Addr) (data : Byte) : Word := wordP unit op (addr ++ data)

/-- A cartridge read word, `0x20000000 OR (addr << 8)`. -/
def cartReadWord (addr : Addr) : Word := wordAD 2 0 addr 0

/-- A cartridge write word, `0x21000000 OR (addr << 8) OR data`. -/
def cartWriteWord (addr : Addr) (data : Byte) : Word := wordAD 2 1 addr data

/-- A surface read word, `0x50000000 OR (addr << 8)`. -/
def envReadWord (addr : Addr) : Word := wordAD 5 0 addr 0

/-- A surface write word, `0x51000000 OR (addr << 8) OR data`. -/
def envWriteWord (addr : Addr) (data : Byte) : Word := wordAD 5 1 addr data

/-- The word of an operation (R122). -/
def encode : Instr → Word
  | .ppuAdvance n => wordP 1 0 n
  | .cartFRdRom0 a => cartReadWord a
  | .cartFRdRomx a => cartReadWord a
  | .cartFRdRam a => cartReadWord a
  | .cartFWrRom a d => cartWriteWord a d
  | .cartFWrRam a d => cartWriteWord a d
  | .cartARdRom0 a => cartReadWord a
  | .cartARdRomx a => cartReadWord a
  | .cartARdRam a => cartReadWord a
  | .cartAWrRamen a d => cartWriteWord a d
  | .cartAWrBank1 a d => cartWriteWord a d
  | .cartAWrBank2 a d => cartWriteWord a d
  | .cartAWrMode a d => cartWriteWord a d
  | .cartAWrRam a d => cartWriteWord a d
  | .cartBRdRom0 a => cartReadWord a
  | .cartBRdRomx a => cartReadWord a
  | .cartBRdRam a => cartReadWord a
  | .cartBWrRamen a d => cartWriteWord a d
  | .cartBWrRomb a d => cartWriteWord a d
  | .cartBWrHi a d => cartWriteWord a d
  | .cartBWrRam a d => cartWriteWord a d
  | .cartCRdRom0 a => cartReadWord a
  | .cartCRdRomx a => cartReadWord a
  | .cartCRdRam a => cartReadWord a
  | .cartCWrRamen a d => cartWriteWord a d
  | .cartCWrRomb a d => cartWriteWord a d
  | .cartCWrRamsel a d => cartWriteWord a d
  | .cartCWrLatch a d => cartWriteWord a d
  | .cartCWrRam a d => cartWriteWord a d
  | .cartDRdRom0 a => cartReadWord a
  | .cartDRdRomx a => cartReadWord a
  | .cartDRdRam a => cartReadWord a
  | .cartDWrRamen a d => cartWriteWord a d
  | .cartDWrRombLo a d => cartWriteWord a d
  | .cartDWrRombHi a d => cartWriteWord a d
  | .cartDWrRamb a d => cartWriteWord a d
  | .cartDWr6000 a d => cartWriteWord a d
  | .cartDWrRam a d => cartWriteWord a d
  | .orchTick => wordP 3 0 0
  | .hostCommit => wordP 3 1 0
  | .cartLoad => wordP 4 0 0
  | .envRd a => envReadWord a
  | .envWrStat d => envWriteWord 0xFF41 d
  | .envWrLy d => envWriteWord 0xFF44 d
  | .envWr a d => envWriteWord a d
  | .ppuLcdOff => wordP 8 0 0
  | .ppuTOamVram => wordP 8 1 0
  | .ppuTVramHblank => wordP 8 2 0
  | .ppuTHblankOam => wordP 8 3 0
  | .ppuTHblankVblank => wordP 8 4 0
  | .ppuTVblankLine => wordP 8 5 0
  | .ppuTVblankOam => wordP 8 6 0
  | .ppuLycCheck => wordP 8 7 0
  | .rasterBgwin => wordP 8 8 0
  | .rasterObj => wordP 8 9 0
  | .orchStep => wordP 9 0 0
  | .orchDispatch => wordP 9 1 0

/-! ## In which contexts an operation is admitted (R117, R119, R120) -/

/-- The cartridge variant an operation belongs to, for the `CART.<v>.*` rows (R119). -/
def Instr.variant : Instr → Option Variant
  | .cartFRdRom0 _ | .cartFRdRomx _ | .cartFRdRam _ | .cartFWrRom _ _ | .cartFWrRam _ _ => some .fixed
  | .cartARdRom0 _ | .cartARdRomx _ | .cartARdRam _ | .cartAWrRamen _ _ | .cartAWrBank1 _ _
  | .cartAWrBank2 _ _ | .cartAWrMode _ _ | .cartAWrRam _ _ => some .a
  | .cartBRdRom0 _ | .cartBRdRomx _ | .cartBRdRam _ | .cartBWrRamen _ _ | .cartBWrRomb _ _
  | .cartBWrHi _ _ | .cartBWrRam _ _ => some .b
  | .cartCRdRom0 _ | .cartCRdRomx _ | .cartCRdRam _ | .cartCWrRamen _ _ | .cartCWrRomb _ _
  | .cartCWrRamsel _ _ | .cartCWrLatch _ _ | .cartCWrRam _ _ => some .c
  | .cartDRdRom0 _ | .cartDRdRomx _ | .cartDRdRam _ | .cartDWrRamen _ _ | .cartDWrRombLo _ _
  | .cartDWrRombHi _ _ | .cartDWrRamb _ _ | .cartDWr6000 _ _ | .cartDWrRam _ _ => some .d
  | .ppuAdvance _ | .orchTick | .hostCommit | .cartLoad | .envRd _ | .envWrStat _ | .envWrLy _
  | .envWr _ _ | .ppuLcdOff | .ppuTOamVram | .ppuTVramHblank | .ppuTHblankOam | .ppuTHblankVblank
  | .ppuTVblankLine | .ppuTVblankOam | .ppuLycCheck | .rasterBgwin | .rasterObj | .orchStep
  | .orchDispatch => none

/-- The internal events of R117. -/
def Instr.internal : Instr → Bool
  | .ppuLcdOff | .ppuTOamVram | .ppuTVramHblank | .ppuTHblankOam | .ppuTHblankVblank
  | .ppuTVblankLine | .ppuTVblankOam | .ppuLycCheck | .rasterBgwin | .rasterObj | .orchStep
  | .orchDispatch => true
  | .ppuAdvance _ | .cartFRdRom0 _ | .cartFRdRomx _ | .cartFRdRam _ | .cartFWrRom _ _ | .cartFWrRam _ _
  | .cartARdRom0 _ | .cartARdRomx _ | .cartARdRam _ | .cartAWrRamen _ _ | .cartAWrBank1 _ _
  | .cartAWrBank2 _ _ | .cartAWrMode _ _ | .cartAWrRam _ _
  | .cartBRdRom0 _ | .cartBRdRomx _ | .cartBRdRam _ | .cartBWrRamen _ _ | .cartBWrRomb _ _
  | .cartBWrHi _ _ | .cartBWrRam _ _
  | .cartCRdRom0 _ | .cartCRdRomx _ | .cartCRdRam _ | .cartCWrRamen _ _ | .cartCWrRomb _ _
  | .cartCWrRamsel _ _ | .cartCWrLatch _ _ | .cartCWrRam _ _
  | .cartDRdRom0 _ | .cartDRdRomx _ | .cartDRdRam _ | .cartDWrRamen _ _ | .cartDWrRombLo _ _
  | .cartDWrRombHi _ _ | .cartDWrRamb _ _ | .cartDWr6000 _ _ | .cartDWrRam _ _
  | .orchTick | .hostCommit | .cartLoad | .envRd _ | .envWrStat _ | .envWrLy _ | .envWr _ _ => false

/-- The context refuses none of R120's context-dependent reasons for `i`. -/
def Context.admits (c : Context) (i : Instr) : Bool :=
  (match i with
   | .orchTick | .hostCommit => c.variant.isSome
   | .cartLoad => c.variant.isNone
   | _ => match i.variant with
     | some v => c.variant == some v && (!v.governedByAcdModel || c.acd == .physical)
     | none => true)
  && (!i.internal || c.inside)

/-! ## Reading an opcode-table word -/

/-- The context an opcode-table word is read in: `CART.LOAD` before a load, every other word with a
loaded variant-D cartridge (under D each row of R119's table is an operation of its own), the words
of format I as produced inside the block (assumption log 16). -/
def tableContext (w : Word) : Context :=
  { variant := if unitOf w = 4 then none else some .d, acd := .physical, inside := true }

/-- The instruction the decoder reads from a table row's word.  A command word is 32 bits (R110), bit
0 its least significant bit; the bits above `nbits` are zero. -/
def decodeTableWord (nbits w : Nat) : Option Instr :=
  if nbits ≤ 32 ∧ w < 2 ^ nbits then
    match decode (tableContext (BitVec.ofNat 32 w)) (BitVec.ofNat 32 w) with
    | .ok i => some i
    | .error _ => none
  else none

end Sys2Proof
end

