-- ==== Sys2Proof/Machine/State.lean ====
section
/-! DEFINITION. The state of GBE-CORE: the tuple `(surface, ppu, cart, orch, fb, ext, marks)` of
10_state.md R30, with the parameters `cfg` (R9) and the interface port `port` through which the host
presents words and takes answers (R110, R113, R115).  All of it is plain data. -/

namespace Sys2Proof.Machine

/-! ## Marks (R52, R400 to R404) -/

/-- A fault: kind and info (R400).  Each is set by `raise`; all are fatal. -/
inductive FaultMark where
  /-- `UnsupportedCartridge`, code 0x01, info the header byte; raised by `CART.LOAD` (R401). -/
  | unsupportedCartridge (header : Byte)
  /-- `MalformedImage`, code 0x02, info the image length; raised by `CART.LOAD` (R402). -/
  | malformedImage (length : Nat)
  /-- `OutOfRangeAccess`, code 0x03, info the offending index; raised by cartridge reads (R403). -/
  | outOfRangeIndex (index : Nat)
  /-- `OutOfRangeAccess`, code 0x03, info the pair `(x, y)`; raised by a pixel-sink call (R403). -/
  | outOfRangePixel (x y : Nat)
  deriving DecidableEq, Repr, Inhabited

/-- `marks` (R52): neither mark is ever cleared once set. -/
structure Marks where
  fault : Option FaultMark
  refusal : Option RefusalReason
  deriving DecidableEq, Repr, Inhabited

/-! ## The register surface (R31, R42, R44) -/

/-- The names of the registers of R31; `iflag` is `IF`. -/
inductive Reg where
  | lcdc
  | stat
  | scy
  | scx
  | ly
  | lyc
  | bgp
  | obp0
  | obp1
  | wy
  | wx
  | ie
  | iflag
  | joyp
  deriving DecidableEq, Repr, Inhabited

/-- The registers of R31, each 8 bits: one byte store a register, its fields are views (R13). -/
structure Regs where
  lcdc : Byte
  stat : Byte
  scy : Byte
  scx : Byte
  ly : Byte
  lyc : Byte
  bgp : Byte
  obp0 : Byte
  obp1 : Byte
  wy : Byte
  wx : Byte
  ie : Byte
  iflag : Byte
  joyp : Byte
  deriving DecidableEq, Repr, Inhabited

/-- Sparse data by index: (index, value) pairs, indices strictly rising, no value 0.  An index not
listed reads as 0. -/
abbrev Cells (w : Nat) := List (Nat × BitVec w)

/-- Bytes by index: a list of `Host.Cell`. -/
abbrev Memory := Cells 8

/-- The register surface: the registers of R31, and the bytes of VRAM (R42), OAM (R44) and the
plain-storage I/O range (R41) by their surface address. -/
structure Surface where
  regs : Regs
  mem : Memory
  deriving DecidableEq, Repr, Inhabited

/-! ## PPU, frame buffer (R45 to R47) -/

/-- The PPU's own state; the mode is `STAT[1:0]` and has no storage here (R45). -/
structure Ppu where
  /-- `ppu.counter`: cycles spent in the current mode (R45). -/
  counter : Nat
  /-- `ppu.frameReady` (R46). -/
  frameReady : Bool
  deriving DecidableEq, Repr, Inhabited

/-- One row of the frame buffer: 160 cells (R47). -/
abbrev Row := Vector Shade 160

/-- The frame buffer: 144 rows of 160 cells, `FB(x, y)` is cell `x` of row `y` (R47). -/
abbrev FrameBuffer := Vector Row 144

/-! ## The cartridge (R49) -/

/-- The cartridge image: `size` bytes, byte `i` is `bytes` at `i` (R49, R80). -/
structure Image where
  size : Nat
  bytes : Memory
  deriving DecidableEq, Repr, Inhabited

/-- The registers and RAM of variant A (R291, R290). -/
structure MbcA where
  ramEnable : Bool
  bank1 : BitVec 5
  bank2 : BitVec 2
  mode : BitVec 1
  ram : Memory
  deriving DecidableEq, Repr, Inhabited

/-- The registers and 512 × 4-bit RAM of variant B (R250). -/
structure MbcB where
  ramEnable : Bool
  romBank : BitVec 4
  ram : Cells 4
  deriving DecidableEq, Repr, Inhabited

/-- The registers and RAM of variant C (R300, R290). -/
structure MbcC where
  ramEnable : Bool
  romBank : BitVec 7
  ramSel : BitVec 4
  ram : Memory
  deriving DecidableEq, Repr, Inhabited

/-- The registers and RAM of variant D (R310, R290). -/
structure MbcD where
  ramEnable : Bool
  romBankLo : Byte
  romBankHi : BitVec 1
  ramBank : BitVec 4
  ram : Memory
  deriving DecidableEq, Repr, Inhabited

/-- The tagged bank-controller state (R49); FIXED has no registers (R244). -/
inductive Mbc where
  | fixed
  | a (m : MbcA)
  | b (m : MbcB)
  | c (m : MbcC)
  | d (m : MbcD)
  deriving DecidableEq, Repr, Inhabited

/-- `cart.variant` (R49). -/
def Mbc.variant : Mbc → Variant
  | .fixed => .fixed
  | .a _ => .a
  | .b _ => .b
  | .c _ => .c
  | .d _ => .d

/-- The loaded cartridge (R49). -/
structure Cart where
  img : Image
  mbc : Mbc
  deriving DecidableEq, Repr, Inhabited

/-! ## Orchestrator (R32, R50) -/

/-- The phases (a) to (e) of an orchestrator step, or none in progress (R32, R353). -/
inductive Phase where
  | idle
  | cpu
  | timer
  | ppu
  | latch
  | dispatch
  deriving DecidableEq, Repr, Inhabited

/-- The orchestrator's state. -/
structure Orch where
  /-- `orch.carry`, an exact rational (R50). -/
  carry : ℚ
  /-- Cycles done so far in the tick (R32, R350). -/
  cyclesDone : Nat
  /-- `c` of R353: what the last `cpu.step()` returned, which the timer and the PPU receive and which the
  step returns to R350. -/
  stepCycles : Nat
  /-- The phase of the current step (R32). -/
  phase : Phase
  deriving DecidableEq, Repr

/-! ## External collaborators (R51) -/

/-- The CPU's deferred interrupt-enable latch: two states, not one boolean (R51, R357).  `active` is
the master enable (R359, R409). -/
structure EnableLatch where
  pending : Bool
  active : Bool
  deriving DecidableEq, Repr, Inhabited

/-- A collaborator as the block knows it: the answers a harness scripted for it, still to come, and its own
state, coded as a number that GBE-CORE does not look inside (R51, assumption log 4). -/
structure Answers (α : Type) where
  scripted : List α
  inner : Nat
  deriving DecidableEq, Repr, Inhabited

/-- `ext`: what GBE-CORE's contracts say of the collaborators' state (R51). -/
structure Ext where
  enable : EnableLatch
  /-- The CPU: its scripted steps, its own state. -/
  cpu : Answers CpuAct
  timer : Answers TimerAct
  latch : Answers LatchAct
  /-- The CPU's scripted interrupt entries. -/
  entry : List EntryAct
  /-- The input latch's buffer of reported keys, `(key, pressed)`, oldest first (R361). -/
  keys : List (Nat × Bool)
  deriving DecidableEq, Repr, Inhabited

end Sys2Proof.Machine

namespace Sys2Proof

/-! ### The answers no harness scripted: FREE VALUES (assumption log 4)

Each is a constant with no body, applied to the collaborator's own state and to what the contract passes
to the call or lets it read; where it answers with a number, that is the collaborator's own state after. -/

/-- FREE VALUE: `cpu.step()` of a CPU whose own state is `inner` and whose enable latch is `latch` (R358);
what it reads, it reads by the accesses of the plan. -/
opaque Config.cpuStep (inner : Nat) (latch : Machine.EnableLatch) : CpuPlan

/-- FREE VALUE: what the CPU pushes when it takes `line` (R359, R411). -/
opaque Config.cpuEntry (inner line : Nat) : EntryAct × Nat

/-- FREE VALUE: `timer.advance(cycles, registers)` (R360); it may read any field of the surface (R364). -/
opaque Config.timerAdvance (inner cycles : Nat) (registers : Machine.Surface) : TimerAct × Nat

/-- FREE VALUE: `latch.advance(registers)`, the keys reported since its last read moving into JOYP (R361);
it may read any field of the surface (R364). -/
opaque Config.latchAdvance (inner : Nat) (keys : List (Nat × Bool)) (registers : Machine.Surface) :
    LatchAct × Nat

end Sys2Proof

namespace Sys2Proof.Machine

/-! ## The interface port -/

/-- What reaches the block next (R110, R440). -/
inductive Input where
  /-- A word presented at the interface from outside (R110). -/
  | word (w : Word)
  /-- A word of an internal event, produced inside the block by the rule that owns it (R110, R117). -/
  | event (w : Word)
  /-- `reportKey(key, pressed)`, called between two words (R361, R440). -/
  | key (key : Nat) (pressed : Bool)
  deriving DecidableEq, Repr, Inhabited

/-- What `commitFrame` presented: the shades and the colours each maps through (R48, R362). -/
structure Shown where
  shades : FrameBuffer
  colors : OutputColors
  deriving DecidableEq, Repr

/-- The interface: the MODEL's own fields, not the spec's state (assumption log 1). -/
structure Port where
  /-- The words and key reports still to come, first first. -/
  inbox : List Input
  /-- The raw image the host holds out to the loader, the out-of-band operand of `CART.LOAD` (R115). -/
  loader : Image
  /-- The byte the last word returned to its issuer (R113, R141). -/
  reply : Option Byte
  /-- The frame last presented to the host (R362, R363). -/
  shown : Option Shown
  deriving DecidableEq, Repr

/-! ## The state -/

/-- The machine state (R30). -/
structure State where
  /-- The parameters of R9; no step changes them. -/
  cfg : Config
  surface : Surface
  ppu : Ppu
  /-- Absent until a successful load (R442). -/
  cart : Option Cart
  orch : Orch
  fb : FrameBuffer
  ext : Ext
  marks : Marks
  port : Port
  deriving DecidableEq, Repr

/-- Why `step` stops with a fault. -/
inductive Fault where
  /-- The machine is stopped by a fault: raised by `step` when the fault mark is set, which no word
  changes (R400).  Safe: the machine takes no further step there. -/
  | stopped (mark : FaultMark)
  deriving DecidableEq, Repr, Inhabited

/-- Why `step` or a meaning refuses. -/
inductive Refusal where
  /-- No meaning yet; raised by `exec`'s arm only.  Safe. -/
  | notModelled (mnemonic : String)
  /-- The machine is stopped by a refused word: raised by `step` when the refusal mark is set (R120).
  Safe: the machine takes no further step there. -/
  | stopped (reason : RefusalReason)
  /-- A `CART.<v>.*` operation applied where the loaded cartridge is of another variant: no word names
  it there (R119), so `step` never raises it.  Raised by the `CART` meanings.  Safe. -/
  | wrongVariant
  deriving DecidableEq, Repr, Inhabited

/-! ## Reset (R440, R442) -/

/-- The reset register values of R31 and R442.  `JOYP` belongs to the input latch and is 0 where the
harness does not say (R442). -/
def Regs.reset : Regs :=
  { lcdc := 0x91, stat := 0x02, scy := 0x00, scx := 0x00, ly := 0x00, lyc := 0x00, bgp := 0xFC,
    obp0 := 0xFF, obp1 := 0xFF, wy := 0x00, wx := 0x00, ie := 0x00, iflag := 0x00, joyp := 0x00 }

/-- `INITIAL_SURFACE` with `VRAM_INIT` and `OAM_INIT`, and `FB_INIT`: the OPEN initial contents (R442). -/
structure Initial where
  surface : Surface
  fb : FrameBuffer
  deriving DecidableEq, Repr

/-- The initial contents the test vectors assume: the registers of R31, every other byte and cell 0. -/
def Initial.default : Initial :=
  { surface := { regs := Regs.reset, mem := [] },
    fb := Vector.replicate 144 (Vector.replicate 160 0#2) }

/-- The machine as created (R440, R442), for any parameters, initial contents and collaborator answers.
The enable latch is clear in both states (R442). -/
def State.create (cfg : Config) (init : Initial) (cpu : Answers CpuAct) (timer : Answers TimerAct)
    (latch : Answers LatchAct) (entry : List EntryAct) (port : Port) : State :=
  { cfg := cfg
    surface := init.surface
    ppu := { counter := 0, frameReady := false }
    cart := none
    orch := { carry := 0, cyclesDone := 0, stepCycles := 0, phase := .idle }
    fb := init.fb
    ext := { enable := { pending := false, active := false }, cpu := cpu, timer := timer,
             latch := latch, entry := entry, keys := [] }
    marks := { fault := none, refusal := none }
    port := port }

/-- No answer scripted, the collaborator's own state coded 0 (assumption log 7). -/
def Answers.none {α : Type} : Answers α := { scripted := [], inner := 0 }

/-- Nothing presented, no image, no answer, no frame shown. -/
def Port.empty : Port :=
  { inbox := [], loader := { size := 0, bytes := [] }, reply := none, shown := none }

/-- The machine right after reset, with the decided parameters and zero initial contents (R442). -/
def State.reset : State :=
  State.create Config.default Initial.default Answers.none Answers.none Answers.none []
    Port.empty

end Sys2Proof.Machine
end

