-- ==== Sys2Proof/Machine/Flags.lean ====
section
/-! DEFINITION. Bits and packed fields of a byte: the bit helpers (R13), the fields of `STAT` (R34) and
`LCDC` (R33), the palette map (R38), the interrupt lines (R40), the thresholds of the modes (R151)
and the numeric codes of faults and refusals (R401 to R404). -/

namespace Sys2Proof.Machine

/-! ## The bit helpers (R13) -/

/-- `testBit(v, i)`. -/
def testBit (v : Byte) (i : Nat) : Bool := v.getLsbD i

/-- `setBit(v, i) = v OR (1 << i)`. -/
def setBit (v : Byte) (i : Nat) : Byte := v ||| (1#8 <<< i)

/-- `clearBit(v, i) = v AND NOT (1 << i)`. -/
def clearBit (v : Byte) (i : Nat) : Byte := v &&& ~~~(1#8 <<< i)

/-! ## STAT (R34) -/

/-- The four scanline modes. -/
inductive Mode where
  | hblank
  | vblank
  | oam
  | vram
  deriving DecidableEq, Repr, Inhabited

/-- `MODE` of R34: 0 HBLANK, 1 VBLANK, 2 OAM, 3 VRAM. -/
def Mode.code : Mode → BitVec 2
  | .hblank => 0
  | .vblank => 1
  | .oam => 2
  | .vram => 3

/-- `STAT[1:0]` decoded (R34, R45). -/
def modeOf (stat : Byte) : Mode :=
  match stat.toNat % 4 with
  | 0 => .hblank
  | 1 => .vblank
  | 2 => .oam
  | _ => .vram

/-- `io[STAT][1:0] <- m`; the other bits stay (R13). -/
def withMode (stat : Byte) (m : Mode) : Byte := (stat &&& 0xFC#8) ||| m.code.setWidth 8

/-- `Threshold(m)` (R151). -/
def threshold : Mode → Nat
  | .oam => 80
  | .vram => 172
  | .hblank => 204
  | .vblank => 456

/-- `LYC_EQ`, the coincidence bit `STAT[2]`, set or cleared (R160). -/
def withCoincidence (stat : Byte) (eq : Bool) : Byte :=
  if eq then setBit stat 2 else clearBit stat 2

/-- An environment write of `STAT`: bits 2..0 are kept (R143). -/
def statWrite (old data : Byte) : Byte := (data &&& 0xF8#8) ||| (old &&& 0x07#8)

/-! ## LCDC (R33) -/

/-- `LCD_ON`, bit 7. -/
def lcdOn (lcdc : Byte) : Bool := testBit lcdc 7

/-- `WIN_MAP`, bit 6. -/
def winMapSelect (lcdc : Byte) : Bool := testBit lcdc 6

/-- `WIN_ON`, bit 5. -/
def winOn (lcdc : Byte) : Bool := testBit lcdc 5

/-- `TILE_DATA`, bit 4: 1 is unsigned indexing. -/
def unsignedTiles (lcdc : Byte) : Bool := testBit lcdc 4

/-- `BG_MAP`, bit 3. -/
def bgMapSelect (lcdc : Byte) : Bool := testBit lcdc 3

/-- `OBJ_SIZE`, bit 2. -/
def tallSprites (lcdc : Byte) : Bool := testBit lcdc 2

/-! ## Palettes and colour ids (R38, R43, R198, R199) -/

/-- `PalMap(P, id) = (P >> (2 × id)) AND 3`. -/
def palMap (palette : Byte) (id : Shade) : Shade := (palette >>> (2 * id.toNat)).setWidth 2

/-- `2 × bit(hi, b) + bit(lo, b)` (R43, R201). -/
def planeId (lo hi : Byte) (b : Nat) : Shade := BitVec.ofBool (testBit hi b) ++ BitVec.ofBool (testBit lo b)

/-- `ColorId(lo, hi, c)`, the column `c` counted from the left (R198). -/
def colorId (lo hi : Byte) (c : Nat) : Shade := planeId lo hi (7 - c)

/-- The output colour of a shade: 0 white .. 3 black (R48). -/
def shadeColor (p : OutputColors) (shade : Shade) : Nat :=
  match shade.toNat with
  | 0 => p.white
  | 1 => p.lightGray
  | 2 => p.darkGray
  | _ => p.black

/-! ## Interrupt lines (R40) -/

/-- Line 0, VBLANK (R405). -/
def vblankLine : Nat := 0

/-- Line 1, LCD-status (R406). -/
def lcdStatusLine : Nat := 1

/-- Line 2, timer (R407). -/
def timerLine : Nat := 2

/-- Line 3, serial, unused (R407). -/
def serialLine : Nat := 3

/-- Line 4, joypad (R407). -/
def joypadLine : Nat := 4

/-- The lines in the order of the dispatcher's scan (R354, R355). -/
def scanOrder : List Nat := [vblankLine, lcdStatusLine, timerLine, serialLine, joypadLine]

/-- The vector a taken line continues at, `0x40 + 8 × line` (R359, R411); it is the CPU's. -/
def vectorAddress (line : Nat) : Nat := 0x40 + 8 * line

/-! ## Codes (R401 to R404) -/

/-- The numeric code of a fault. -/
def FaultMark.code : FaultMark → Byte
  | .unsupportedCartridge _ => 0x01
  | .malformedImage _ => 0x02
  | .outOfRangeIndex _ => 0x03
  | .outOfRangePixel _ _ => 0x03

/-- The numeric code of a refusal reason (R404). -/
def refusalCode : RefusalReason → Byte
  | .reservedUnit => 0x10
  | .reservedOp => 0x11
  | .reservedBits => 0x12
  | .unroutedCartAddress => 0x13
  | .unroutedSurfaceAddress => 0x14
  | .internalEventAtInterface => 0x15
  | .noCartridge => 0x16
  | .reload => 0x17
  | .unspecifiedVariant => 0x18

end Sys2Proof.Machine
end

