-- ==== Sys2Proof/Machine/Operands.lean ====
section
/-! DEFINITION. Where an access goes: surface registers by address (R31, R80), tile-map, tile-data and
sprite addresses (42_ppu_raster.md R191 to R206), and cartridge indices (43_cartridge.md,
44_cartridge_gk.md R290).  The integers of the spec that cannot be negative where they are used are
`Nat` here; comparisons with `WX − 7`, `Y − 16` and `X − 8` are written with the offset on the other
side. -/

namespace Sys2Proof.Machine

/-! ## The surface (R31, R80) -/

/-- The surface address of a register (R31). -/
def Reg.addr : Reg → Nat
  | .lcdc => 0xFF40
  | .stat => 0xFF41
  | .scy => 0xFF42
  | .scx => 0xFF43
  | .ly => 0xFF44
  | .lyc => 0xFF45
  | .bgp => 0xFF47
  | .obp0 => 0xFF48
  | .obp1 => 0xFF49
  | .wy => 0xFF4A
  | .wx => 0xFF4B
  | .ie => 0xFFFF
  | .iflag => 0xFF0F
  | .joyp => 0xFF00

/-- The register at a surface address, none where the byte is VRAM, OAM or plain storage (R31, R41). -/
def regAt (a : Nat) : Option Reg :=
  if a = 0xFF40 then some .lcdc
  else if a = 0xFF41 then some .stat
  else if a = 0xFF42 then some .scy
  else if a = 0xFF43 then some .scx
  else if a = 0xFF44 then some .ly
  else if a = 0xFF45 then some .lyc
  else if a = 0xFF47 then some .bgp
  else if a = 0xFF48 then some .obp0
  else if a = 0xFF49 then some .obp1
  else if a = 0xFF4A then some .wy
  else if a = 0xFF4B then some .wx
  else if a = 0xFFFF then some .ie
  else if a = 0xFF0F then some .iflag
  else if a = 0xFF00 then some .joyp
  else none

/-- The addresses of the surface: VRAM, OAM, I/O, IE (R80). -/
def inSurface (a : Nat) : Bool :=
  decide ((0x8000 ≤ a ∧ a ≤ 0x9FFF) ∨ (0xFE00 ≤ a ∧ a ≤ 0xFE9F) ∨ (0xFF00 ≤ a ∧ a ≤ 0xFF7F) ∨ a = 0xFFFF)

/-- VRAM (R42). -/
def inVram (a : Nat) : Bool := decide (0x8000 ≤ a ∧ a ≤ 0x9FFF)

/-- The plain-storage I/O bytes: 0xFF00..0xFF7F less the registers of R31 (R41). -/
def plainIo (a : Nat) : Bool := decide (0xFF00 ≤ a ∧ a ≤ 0xFF7F) && (regAt a).isNone

/-- The surface bytes `Surface.mem` holds: those that are no register of R31. -/
def storedByte (a : Nat) : Bool := inSurface a && (regAt a).isNone

/-- Where a CPU address leads (R87): the block's spaces, by the address map of the console. -/
inductive Target where
  | surface
  | cartridge
  | outside
  deriving DecidableEq, Repr

/-- The CPU-side address map of R87. -/
def busTarget (addr : Addr) : Target :=
  if routedSurface addr then .surface
  else if routedCart addr then .cartridge
  else .outside

/-! ## Background and window (R191 to R197) -/

/-- `MapBase(s)`: `MAP_0` or `MAP_1` (R192). -/
def mapBase (select : Bool) : Nat := if select then 0x9C00 else 0x9800

/-- `WindowActive(x, y)`: `WIN_ON`, `WY ≤ y` and `x ≥ WX − 7` (R191). -/
def windowActive (lcdc wy wx : Byte) (x y : Nat) : Bool :=
  winOn lcdc && decide (wy.toNat ≤ y) && decide (wx.toNat ≤ x + 7)

/-- `BgCoord(x, y)` (R193). -/
def bgCoord (scx scy : Byte) (x y : Nat) : Nat × Nat :=
  ((x + scx.toNat) % 256, (y + scy.toNat) % 256)

/-- `WinCoord(x, y) = (x − (WX − 7), y − WY)`, non-negative under `WindowActive` (R194). -/
def winCoord (wx wy : Byte) (x y : Nat) : Nat × Nat := (x + 7 - wx.toNat, y - wy.toNat)

/-- `MapEntryAddr(map, sx, sy)` (R195). -/
def mapEntryAddr (map sx sy : Nat) : Nat := map + sy / 8 * 32 + sx / 8

/-- `TileDataAddr(idx, sel)`: unsigned indexing from base A, or signed indexing from base B (R196). -/
def tileDataAddr (idx : Byte) (unsigned : Bool) : Nat :=
  if unsigned then 0x8000 + 16 * idx.toNat else 0x8800 + 16 * (idx.toInt + 128).toNat

/-- `Planes(base, r)`: the address of the low plane; the high plane is the next byte (R197). -/
def planeAddr (base r : Nat) : Nat := base + 2 * r

/-! ## Sprites (R202 to R206) -/

/-- The address of byte 0 of OAM entry `i` (R44). -/
def oamEntry (i : Nat) : Nat := 0xFE00 + 4 * i

/-- `SpriteHeight()` (R202). -/
def spriteHeight (lcdc : Byte) : Nat := if tallSprites lcdc then 16 else 8

/-- `top ≤ line < top + h` with `top = Y − 16` (R203). -/
def spriteCovers (oy : Byte) (line h : Nat) : Bool :=
  decide (oy.toNat ≤ line + 16) && decide (line + 16 < oy.toNat + h)

/-- `SpriteRow(line − top, h, yflip)` (R204). -/
def spriteRow (oy : Byte) (line h : Nat) (yflip : Bool) : Nat :=
  if yflip then h - 1 - (line + 16 - oy.toNat) else line + 16 - oy.toNat

/-- `SpriteRowAddr(tile, r, h)`: always the unsigned base (R205). -/
def spriteRowAddr (maskLsb : Bool) (tile : Byte) (r h : Nat) : Nat :=
  0x8000 + 16 * (if h = 16 ∧ maskLsb = true then (tile &&& 0xFE#8).toNat else tile.toNat) + 2 * r

/-- `SpriteBit(c, xflip)` (R206). -/
def spriteBit (c : Nat) (xflip : Bool) : Nat := if xflip then c else 7 - c

/-- The screen column of sprite column `c`, `X − 8 + c`, none off screen (R203, R210). -/
def spriteColumn (ox : Byte) (c : Nat) : Option Nat :=
  if 8 ≤ ox.toNat + c ∧ ox.toNat + c < 168 then some (ox.toNat + c - 8) else none

/-! ## Cartridge (R242, R243, R290) -/

/-- `nBanks = len(Img) / 0x4000` (R243). -/
def Image.nBanks (img : Image) : Nat := img.size / 0x4000

/-- `VariantOf(t)` (R242). -/
def variantOf (t : Byte) : Option Variant :=
  if t.toNat = 0x00 then some .fixed
  else if 0x01 ≤ t.toNat ∧ t.toNat ≤ 0x03 then some .a
  else if 0x05 ≤ t.toNat ∧ t.toNat ≤ 0x06 then some .b
  else if 0x0F ≤ t.toNat ∧ t.toNat ≤ 0x13 then some .c
  else if 0x19 ≤ t.toNat ∧ t.toNat ≤ 0x1B then some .d
  else none

/-- `SizeOk(image)` for the length and the size code at 0x148 (R243). -/
def sizeOk (length : Nat) (code : Byte) : Bool :=
  decide (length % 0x4000 = 0) && decide (code.toNat ≤ 8) && decide (0x8000 <<< code.toNat ≤ length)

/-- `ramSize` by the RAM-size code at 0x149 (R290). -/
def ramSizeOf (code : Byte) : Nat :=
  if code = 0x01#8 then 0x800
  else if code = 0x02#8 then 0x2000
  else if code = 0x03#8 then 0x8000
  else if code = 0x04#8 then 0x20000
  else if code = 0x05#8 then 0x10000
  else 0

/-- `RomIndex(b, addr)` (R290). -/
def romIndex (nBanks b : Nat) (addr : Addr) : Nat := b % nBanks * 0x4000 + addr.toNat % 0x4000

/-- `RamIndex(rb, addr)` (R290). -/
def ramIndex (ramSize rb : Nat) (addr : Addr) : Nat := (rb * 0x2000 + addr.toNat % 0x2000) % ramSize

/-- `RamEnableValue(data)` (R290). -/
def ramEnableValue (data : Byte) : Bool := decide (data &&& 0x0F#8 = 0x0A#8)

/-- Variant B's high-window index, `romBank × 0x4000 + (addr AND 0x3FFF)`, not masked (R252). -/
def romIndexB (romBank : BitVec 4) (addr : Addr) : Nat := romBank.toNat * 0x4000 + addr.toNat % 0x4000

/-- Variant B's RAM entry, `addr AND 0x1FF` (R256). -/
def ramIndexB (addr : Addr) : Nat := addr.toNat % 0x200

/-- Whether a variant-B RAM-enable write toggles, by `MBC2_ENABLE_SELECT` (R253). -/
def togglesRamB (select : EnableSelect) (addr : Addr) (data : Byte) : Bool :=
  match select with
  | .addrBit8 => !addr.getLsbD 8
  | .dataBit0 => !data.getLsbD 0

/-- Variant A's bank for the low window (R292). -/
def lowBankA (m : MbcA) : Nat := if m.mode = 1#1 then m.bank2.toNat * 32 else 0

/-- Variant A's bank for the high window, `(bank2 << 5) OR bank1` (R293). -/
def highBankA (m : MbcA) : Nat := (m.bank2 ++ m.bank1).toNat

/-- Variant A's RAM bank (R298). -/
def ramBankA (m : MbcA) : Nat := if m.mode = 1#1 then m.bank2.toNat else 0

/-- Variant D's nine-bit ROM bank, `(romBankHi << 8) OR romBankLo` (R312). -/
def highBankD (m : MbcD) : Nat := (m.romBankHi ++ m.romBankLo).toNat

/-- `data` with the top bits dropped, and 1 for 0 (R295, R304). -/
def nonzeroBank {w : Nat} (v : BitVec w) : BitVec w := if v = 0 then 1 else v

end Sys2Proof.Machine
end

