-- ==== Sys2Proof/Machine/Ops.lean ====
section
/-! DEFINITION. The named operations over memory, registers, marks, interrupts, the pixel sink and the
collaborators' answers, which every meaning is written with. -/

namespace Sys2Proof.Machine

/-! ## Sparse data: memories, images and cartridge RAM -/

/-- The value at index `a`: the listed one, 0 where none is listed. -/
def Cells.read {w : Nat} : Cells w → Nat → BitVec w
  | [], _ => 0
  | (k, v) :: rest, a => if a = k then v else Cells.read rest a

/-- Put `(a, v)` before the first entry of a higher index. -/
def Cells.insert {w : Nat} (a : Nat) (v : BitVec w) : Cells w → Cells w
  | [] => [(a, v)]
  | (k, x) :: rest => if a < k then (a, v) :: (k, x) :: rest else (k, x) :: Cells.insert a v rest

/-- The list without index `a`. -/
def Cells.erase {w : Nat} (m : Cells w) (a : Nat) : Cells w := m.filter (fun c => c.1 != a)

/-- Write `v` at index `a`; writing 0 removes the entry. -/
def Cells.write {w : Nat} (m : Cells w) (a : Nat) (v : BitVec w) : Cells w :=
  if v = 0 then Cells.erase m a else Cells.insert a v (Cells.erase m a)

/-- Indices strictly rising from `lo` on, no value 0. -/
def Cells.wfFrom {w : Nat} : Nat → Cells w → Bool
  | _, [] => true
  | lo, (k, v) :: rest => decide (lo ≤ k) && decide (v ≠ 0) && Cells.wfFrom (k + 1) rest

/-- The canonical form: indices strictly rising, no value 0. -/
def Cells.wf {w : Nat} (m : Cells w) : Bool := Cells.wfFrom 0 m

/-- The canonical form of a byte memory. -/
abbrev Memory.wf (m : Memory) : Bool := Cells.wf m

/-- Every listed index satisfies `p`. -/
def Cells.inside {w : Nat} (m : Cells w) (p : Nat → Bool) : Bool := m.all (fun c => p c.1)

/-- The entries of `m` below `size` (R290: `cart.ram[0..ramSize−1]` starts as `CART_RAM_INIT`). -/
def Cells.below {w : Nat} (m : Cells w) (size : Nat) : Cells w := m.filter (fun c => decide (c.1 < size))

/-- The low four bits of each byte: variant B keeps 4 usable bits (R250). -/
def Cells.lowNibbles : Cells 8 → Cells 4
  | [] => []
  | (k, v) :: rest =>
    if v.setWidth 4 = 0 then Cells.lowNibbles rest else (k, v.setWidth 4) :: Cells.lowNibbles rest

/-- `Img[i]`, for `i` below the image length (R12). -/
def Image.byte (img : Image) (i : Nat) : Byte := Cells.read img.bytes i

/-! ## Registers (R12: `io[NAME]`) -/

/-- The value of a register. -/
def Regs.get (g : Regs) : Reg → Byte
  | .lcdc => g.lcdc
  | .stat => g.stat
  | .scy => g.scy
  | .scx => g.scx
  | .ly => g.ly
  | .lyc => g.lyc
  | .bgp => g.bgp
  | .obp0 => g.obp0
  | .obp1 => g.obp1
  | .wy => g.wy
  | .wx => g.wx
  | .ie => g.ie
  | .iflag => g.iflag
  | .joyp => g.joyp

/-- The registers with one replaced. -/
def Regs.set (g : Regs) (r : Reg) (v : Byte) : Regs :=
  match r with
  | .lcdc => { g with lcdc := v }
  | .stat => { g with stat := v }
  | .scy => { g with scy := v }
  | .scx => { g with scx := v }
  | .ly => { g with ly := v }
  | .lyc => { g with lyc := v }
  | .bgp => { g with bgp := v }
  | .obp0 => { g with obp0 := v }
  | .obp1 => { g with obp1 := v }
  | .wy => { g with wy := v }
  | .wx => { g with wx := v }
  | .ie => { g with ie := v }
  | .iflag => { g with iflag := v }
  | .joyp => { g with joyp := v }

/-- `io[NAME]` (R12). -/
def State.io (s : State) (r : Reg) : Byte := s.surface.regs.get r

/-- `io[NAME] <- v` (R12). -/
def State.setIo (s : State) (r : Reg) (v : Byte) : State :=
  { s with surface := { s.surface with regs := s.surface.regs.set r v } }

/-- `MemRead(addr, 1)` on a surface address (R12, R81). -/
def State.memRead (s : State) (a : Nat) : Byte :=
  match regAt a with
  | some r => s.io r
  | none => Cells.read s.surface.mem a

/-- `MemWrite(addr, 1, v)` on a surface address (R12). -/
def State.memWrite (s : State) (a : Nat) (v : Byte) : State :=
  match regAt a with
  | some r => s.setIo r v
  | none => { s with surface := { s.surface with mem := Cells.write s.surface.mem a v } }

/-- The PPU mode, derived from `STAT[1:0]` (R45). -/
def State.mode (s : State) : Mode := modeOf (s.io .stat)

/-- `io[STAT][1:0] <- m`. -/
def State.setMode (s : State) (m : Mode) : State := s.setIo .stat (withMode (s.io .stat) m)

/-- `LY` as a number. -/
def State.line (s : State) : Nat := (s.io .ly).toNat

/-- `ppu.counter <- n`. -/
def State.setCounter (s : State) (n : Nat) : State := { s with ppu := { s.ppu with counter := n } }

/-- `ppu.frameReady <- b`. -/
def State.setFrameReady (s : State) (b : Bool) : State := { s with ppu := { s.ppu with frameReady := b } }

/-! ## Outcomes, marks, sequencing (R15, R52, R120, R400) -/

/-- What an operation answers. -/
abbrev Result := Host.Outcome State Fault Refusal

/-- Whether a mark is set: the machine takes no further step (R120, R400). -/
def State.halted (s : State) : Bool := s.marks.fault.isSome || s.marks.refusal.isSome

/-- `raise Fault(kind, info)`: the mark is set and everything written before stays (R400). -/
def State.raise (s : State) (f : FaultMark) : State := { s with marks := { s.marks with fault := some f } }

/-- `refuse(reason)`: the mark is set and nothing else changes (R120). -/
def State.refuse (s : State) (r : RefusalReason) : State :=
  { s with marks := { s.marks with refusal := some r } }

/-- The rest of an operation runs only where the part before it set no mark (R400: a raise "ends the
current operation at that point"). -/
def andThen (o : Result) (rest : State → Result) : Result :=
  match o with
  | .next s => if s.halted then .next s else rest s
  | .fault r => .fault r
  | .refused r => .refused r

/-- `return b`: a read gives one byte to the issuer (R113). -/
def State.respond (s : State) (b : Byte) : State := { s with port := { s.port with reply := some b } }

/-! ## Interrupts: request, entry, return, deferred enable (R14, R357, R359, R408 to R412) -/

/-- `requestInterrupt(line)`: set that bit of IF, nothing else (R14, R408). -/
def State.requestInterrupt (s : State) (line : Nat) : State := s.setIo .iflag (setBit (s.io .iflag) line)

/-- `requestInterrupt(line)` under a condition. -/
def State.requestIf (s : State) (cond : Bool) (line : Nat) : State :=
  if cond then s.requestInterrupt line else s

/-- TAKING AN INTERRUPT: the part of the CPU's entry that the spec's state shows.  The master enable and
the line's IF bit are cleared (R359, R411).  The push of the program counter follows through the bus
(`vectorInterrupt`); the program counter is the CPU's.

DESIGN CHOICE (assumption log 32): R359 and R411 clear the master enable and say nothing of an enable still
pending.  The model keeps `pending`, so the update that ends the same dispatch makes the latch active again. -/
def State.enterInterrupt (s : State) (line : Nat) : State :=
  let s1 := { s with ext := { s.ext with enable := { s.ext.enable with active := false } } }
  s1.setIo .iflag (clearBit (s1.io .iflag) line)

/-- The RETURN from a handler: the master enable is set at once (R412). -/
def EnableLatch.returnFromHandler (l : EnableLatch) : EnableLatch := { l with active := true }

/-- The enable-interrupts instruction sets `pending` (R357). -/
def EnableLatch.enableLater (l : EnableLatch) : EnableLatch := { l with pending := true }

/-- What a CPU step does to the latch (R357, R412). -/
def EnableLatch.apply (l : EnableLatch) : EnableEffect → EnableLatch
  | .keep => l
  | .enable => l.enableLater
  | .returnFromHandler => l.returnFromHandler
  | .put p a => { pending := p, active := a }

/-- `if pending: active <- 1; pending <- 0` (R357). -/
def EnableLatch.update (l : EnableLatch) : EnableLatch :=
  if l.pending then { pending := false, active := true } else l

/-- `cpu.updateDeferredEnableFlag()` (R354, R357). -/
def State.updateDeferredEnableFlag (s : State) : State :=
  { s with ext := { s.ext with enable := s.ext.enable.update } }

/-! ## The pixel sink (R47, R362) -/

/-- `getPixel(x, y)`, none outside the grid (R362). -/
def State.pixel? (s : State) (x y : Nat) : Option Shade :=
  match s.fb[y]? with
  | some row => row[x]?
  | none => none

/-- The frame buffer with row `y` replaced (R213: a row changes whole). -/
def State.setRow (s : State) (y : Nat) (row : Row) : State := { s with fb := s.fb.setIfInBounds y row }

/-- `setPixel(x, y, shade)`: writes the cell, or raises `OutOfRangeAccess` outside the grid (R362). -/
def setPixel (x y : Nat) (shade : Shade) (s : State) : Result :=
  match s.fb[y]? with
  | some row =>
    if x < 160 then .next (s.setRow y (row.setIfInBounds x shade)) else .next (s.raise (.outOfRangePixel x y))
  | none => .next (s.raise (.outOfRangePixel x y))

/-- `commitFrame()`: the frame buffer is presented through the fixed four colours and is unchanged (R362). -/
def State.commitFrame (s : State) : State :=
  { s with port := { s.port with shown := some { shades := s.fb, colors := s.cfg.outputColor } } }

/-- The colour a presented frame shows at `(x, y)` (R48). -/
def Shown.color? (f : Shown) (x y : Nat) : Option Nat :=
  match f.shades[y]? with
  | some row => (row[x]?).map (shadeColor f.colors)
  | none => none

/-! ## The collaborators' answers (R51) -/

/-- The next answer and what is left: a scripted one, the collaborator's own state as it was, or the free
one with the state it leaves. -/
def Answers.next {α : Type} (free : α × Nat) (q : Answers α) : α × Answers α :=
  match q.scripted with
  | a :: rest => (a, { q with scripted := rest })
  | [] => (free.1, { scripted := [], inner := free.2 })

/-- `reportKey(key, pressed)`: the key enters the input latch's buffer (R361). -/
def State.reportKey (s : State) (key : Nat) (pressed : Bool) : State :=
  { s with ext := { s.ext with keys := s.ext.keys ++ [(key, pressed)] } }

/-! ## Cartridge reads and RAM (R245, R256, R290) -/

/-- The RAM size of an image (R290). -/
def Image.ramSize (img : Image) : Nat := ramSizeOf (img.byte 0x149)

/-- `return Img[i]`, or `OutOfRangeAccess` where the index lies outside the image (R94). -/
def readImage (s : State) (img : Image) (i : Nat) : Result :=
  if i < img.size then .next (s.respond (img.byte i)) else .next (s.raise (.outOfRangeIndex i))

/-- A read of the RAM of variants A, C, D: 0xFF where it is not enabled or there is none (R298, R307, R318). -/
def ramLoad (img : Image) (ram : Memory) (enabled : Bool) (bank : Nat) (addr : Addr) : Byte :=
  if enabled = false ∨ img.ramSize = 0 then 0xFF else Cells.read ram (ramIndex img.ramSize bank addr)

/-- A write of the RAM of variants A, C, D, discarded where it is closed or there is none (R299, R308, R319). -/
def ramStore (img : Image) (ram : Memory) (enabled : Bool) (bank : Nat) (addr : Addr) (data : Byte) : Memory :=
  if enabled = false ∨ img.ramSize = 0 then ram else Cells.write ram (ramIndex img.ramSize bank addr) data

/-- The state with the loaded cartridge's controller replaced. -/
def State.setMbc (s : State) (img : Image) (m : Mbc) : State := { s with cart := some { img := img, mbc := m } }

/-- A `CART.F.*` operation (R119, R120). -/
def onFixed (s : State) (op : Image → Result) : Result :=
  match s.cart with
  | none => .next (s.refuse .noCartridge)
  | some { img := img, mbc := .fixed } => op img
  | some _ => .refused .wrongVariant

/-- A `CART.B.*` operation (R119, R120). -/
def onB (s : State) (op : Image → MbcB → Result) : Result :=
  match s.cart with
  | none => .next (s.refuse .noCartridge)
  | some { img := img, mbc := .b m } => op img m
  | some _ => .refused .wrongVariant

/-- A `CART.A.*` operation: refused under `VARIANT_ACD_MODEL = UNSPECIFIED` (R119, R120). -/
def onA (s : State) (op : Image → MbcA → Result) : Result :=
  match s.cart with
  | none => .next (s.refuse .noCartridge)
  | some { img := img, mbc := .a m } =>
    if s.cfg.variantAcdModel = .unspecified then .next (s.refuse .unspecifiedVariant) else op img m
  | some _ => .refused .wrongVariant

/-- A `CART.C.*` operation: refused under `VARIANT_ACD_MODEL = UNSPECIFIED` (R119, R120). -/
def onC (s : State) (op : Image → MbcC → Result) : Result :=
  match s.cart with
  | none => .next (s.refuse .noCartridge)
  | some { img := img, mbc := .c m } =>
    if s.cfg.variantAcdModel = .unspecified then .next (s.refuse .unspecifiedVariant) else op img m
  | some _ => .refused .wrongVariant

/-- A `CART.D.*` operation: refused under `VARIANT_ACD_MODEL = UNSPECIFIED` (R119, R120). -/
def onD (s : State) (op : Image → MbcD → Result) : Result :=
  match s.cart with
  | none => .next (s.refuse .noCartridge)
  | some { img := img, mbc := .d m } =>
    if s.cfg.variantAcdModel = .unspecified then .next (s.refuse .unspecifiedVariant) else op img m
  | some _ => .refused .wrongVariant

/-! ## What a word presented now is read in (R117, R119, R120) -/

/-- The decoding context of a word: presented from outside, or produced inside the block. -/
def State.context (s : State) (inside : Bool) : Context :=
  { variant := s.cart.map (fun c => c.mbc.variant), acd := s.cfg.variantAcdModel, inside := inside }

end Sys2Proof.Machine
end

