-- ==== Sys2Proof/Machine/CartA.lean ====
section
/-! DEFINITION. Family `CART.A.*`: the MBC1 bank controller (44_cartridge_gk.md R291 to R299). -/

namespace Sys2Proof.Machine

/-- `CART.A.RD_ROM0`: in mode 1 the low window follows `bank2` (R292). -/
def execCartARdRom0 (addr : Addr) (s : State) : Result :=
  onA s (fun img m => readImage s img (romIndex img.nBanks (lowBankA m) addr))

/-- `CART.A.RD_ROMX` (R293). -/
def execCartARdRomx (addr : Addr) (s : State) : Result :=
  onA s (fun img m => readImage s img (romIndex img.nBanks (highBankA m) addr))

/-- `CART.A.RD_RAM` (R298). -/
def execCartARdRam (addr : Addr) (s : State) : Result :=
  onA s (fun img m => .next (s.respond (ramLoad img m.ram m.ramEnable (ramBankA m) addr)))

/-- `CART.A.WR_RAMEN` (R294). -/
def execCartAWrRamen (_addr : Addr) (data : Byte) (s : State) : Result :=
  onA s (fun img m => .next (s.setMbc img (.a { m with ramEnable := ramEnableValue data })))

/-- `CART.A.WR_BANK1`: the low five bits, and 1 for 0 (R295). -/
def execCartAWrBank1 (_addr : Addr) (data : Byte) (s : State) : Result :=
  onA s (fun img m => .next (s.setMbc img (.a { m with bank1 := nonzeroBank (data.setWidth 5) })))

/-- `CART.A.WR_BANK2` (R296). -/
def execCartAWrBank2 (_addr : Addr) (data : Byte) (s : State) : Result :=
  onA s (fun img m => .next (s.setMbc img (.a { m with bank2 := data.setWidth 2 })))

/-- `CART.A.WR_MODE` (R297). -/
def execCartAWrMode (_addr : Addr) (data : Byte) (s : State) : Result :=
  onA s (fun img m => .next (s.setMbc img (.a { m with mode := data.setWidth 1 })))

/-- `CART.A.WR_RAM` (R299). -/
def execCartAWrRam (addr : Addr) (data : Byte) (s : State) : Result :=
  onA s (fun img m =>
    .next (s.setMbc img (.a { m with ram := ramStore img m.ram m.ramEnable (ramBankA m) addr data })))

end Sys2Proof.Machine
end

