-- ==== Sys2Proof/Machine/CartB.lean ====
section
/-! DEFINITION. Family `CART.B.*`: RAM enable, 4-bit ROM bank, 512 × 4-bit RAM (43_cartridge.md R250 to
R257). -/

namespace Sys2Proof.Machine

/-- `CART.B.RD_ROM0`: the low window is fixed to bank 0 (R251). -/
def execCartBRdRom0 (addr : Addr) (s : State) : Result :=
  onB s (fun img _ => readImage s img addr.toNat)

/-- `CART.B.RD_ROMX`: the index is not masked, and faults beyond the image (R252). -/
def execCartBRdRomx (addr : Addr) (s : State) : Result :=
  onB s (fun img m => readImage s img (romIndexB m.romBank addr))

/-- `CART.B.RD_RAM`: 0xFF while disabled, else the entry with bits 7..4 zero (R256). -/
def execCartBRdRam (addr : Addr) (s : State) : Result :=
  onB s (fun _ m =>
    .next (s.respond (if m.ramEnable then (Cells.read m.ram (ramIndexB addr)).setWidth 8 else 0xFF)))

/-- `CART.B.WR_RAMEN`: a qualifying write toggles the flag (R253). -/
def execCartBWrRamen (addr : Addr) (data : Byte) (s : State) : Result :=
  onB s (fun img m =>
    .next (s.setMbc img (.b { m with
      ramEnable := if togglesRamB s.cfg.mbc2EnableSelect addr data then !m.ramEnable else m.ramEnable })))

/-- `CART.B.WR_ROMB`: `data AND 0x0F` (R254). -/
def execCartBWrRomb (_addr : Addr) (data : Byte) (s : State) : Result :=
  onB s (fun img m => .next (s.setMbc img (.b { m with romBank := data.setWidth 4 })))

/-- `CART.B.WR_HI`: no effect (R255). -/
def execCartBWrHi (_addr : Addr) (_data : Byte) (s : State) : Result :=
  onB s (fun _ _ => .next s)

/-- `CART.B.WR_RAM`: the low nibble, discarded while disabled (R257). -/
def execCartBWrRam (addr : Addr) (data : Byte) (s : State) : Result :=
  onB s (fun img m =>
    .next (s.setMbc img (.b { m with
      ram := if m.ramEnable then Cells.write m.ram (ramIndexB addr) (data.setWidth 4) else m.ram })))

end Sys2Proof.Machine
end

