-- ==== Sys2Proof/Machine/CartC.lean ====
section
/-! DEFINITION. Family `CART.C.*`: the MBC3 bank controller without its clock (44_cartridge_gk.md R300 to
R308). -/

namespace Sys2Proof.Machine

/-- Variant C's RAM is open: enabled, and a RAM bank (not a clock register) selected (R307). -/
def ramOpenC (m : MbcC) : Bool := m.ramEnable && decide (m.ramSel.toNat ≤ 3)

/-- `CART.C.RD_ROM0` (R301). -/
def execCartCRdRom0 (addr : Addr) (s : State) : Result :=
  onC s (fun img _ => readImage s img addr.toNat)

/-- `CART.C.RD_ROMX` (R302). -/
def execCartCRdRomx (addr : Addr) (s : State) : Result :=
  onC s (fun img m => readImage s img (romIndex img.nBanks m.romBank.toNat addr))

/-- `CART.C.RD_RAM`: a selected clock register reads 0xFF (R307). -/
def execCartCRdRam (addr : Addr) (s : State) : Result :=
  onC s (fun img m => .next (s.respond (ramLoad img m.ram (ramOpenC m) m.ramSel.toNat addr)))

/-- `CART.C.WR_RAMEN` (R303). -/
def execCartCWrRamen (_addr : Addr) (data : Byte) (s : State) : Result :=
  onC s (fun img m => .next (s.setMbc img (.c { m with ramEnable := ramEnableValue data })))

/-- `CART.C.WR_ROMB`: the low seven bits, and 1 for 0 (R304). -/
def execCartCWrRomb (_addr : Addr) (data : Byte) (s : State) : Result :=
  onC s (fun img m => .next (s.setMbc img (.c { m with romBank := nonzeroBank (data.setWidth 7) })))

/-- `CART.C.WR_RAMSEL` (R305). -/
def execCartCWrRamsel (_addr : Addr) (data : Byte) (s : State) : Result :=
  onC s (fun img m => .next (s.setMbc img (.c { m with ramSel := data.setWidth 4 })))

/-- `CART.C.WR_LATCH`: the clock is not modelled by the spec, so no effect (R306). -/
def execCartCWrLatch (_addr : Addr) (_data : Byte) (s : State) : Result :=
  onC s (fun _ _ => .next s)

/-- `CART.C.WR_RAM` (R308). -/
def execCartCWrRam (addr : Addr) (data : Byte) (s : State) : Result :=
  onC s (fun img m =>
    .next (s.setMbc img (.c { m with ram := ramStore img m.ram (ramOpenC m) m.ramSel.toNat addr data })))

end Sys2Proof.Machine
end

