-- ==== Sys2Proof/Machine/CartD.lean ====
section
/-! DEFINITION. Family `CART.D.*`: the MBC5 bank controller (44_cartridge_gk.md R310 to R319). -/

namespace Sys2Proof.Machine

/-- `CART.D.RD_ROM0` (R311). -/
def execCartDRdRom0 (addr : Addr) (s : State) : Result :=
  onD s (fun img _ => readImage s img addr.toNat)

/-- `CART.D.RD_ROMX`: bank 0 is selectable (R312). -/
def execCartDRdRomx (addr : Addr) (s : State) : Result :=
  onD s (fun img m => readImage s img (romIndex img.nBanks (highBankD m) addr))

/-- `CART.D.RD_RAM` (R318). -/
def execCartDRdRam (addr : Addr) (s : State) : Result :=
  onD s (fun img m => .next (s.respond (ramLoad img m.ram m.ramEnable m.ramBank.toNat addr)))

/-- `CART.D.WR_RAMEN` (R313). -/
def execCartDWrRamen (_addr : Addr) (data : Byte) (s : State) : Result :=
  onD s (fun img m => .next (s.setMbc img (.d { m with ramEnable := ramEnableValue data })))

/-- `CART.D.WR_ROMB_LO`: 0 is stored as 0 (R314). -/
def execCartDWrRombLo (_addr : Addr) (data : Byte) (s : State) : Result :=
  onD s (fun img m => .next (s.setMbc img (.d { m with romBankLo := data })))

/-- `CART.D.WR_ROMB_HI` (R315). -/
def execCartDWrRombHi (_addr : Addr) (data : Byte) (s : State) : Result :=
  onD s (fun img m => .next (s.setMbc img (.d { m with romBankHi := data.setWidth 1 })))

/-- `CART.D.WR_RAMB` (R316). -/
def execCartDWrRamb (_addr : Addr) (data : Byte) (s : State) : Result :=
  onD s (fun img m => .next (s.setMbc img (.d { m with ramBank := data.setWidth 4 })))

/-- `CART.D.WR_6000`: no effect (R317). -/
def execCartDWr6000 (_addr : Addr) (_data : Byte) (s : State) : Result :=
  onD s (fun _ _ => .next s)

/-- `CART.D.WR_RAM` (R319). -/
def execCartDWrRam (addr : Addr) (data : Byte) (s : State) : Result :=
  onD s (fun img m =>
    .next (s.setMbc img (.d { m with ram := ramStore img m.ram m.ramEnable m.ramBank.toNat addr data })))

end Sys2Proof.Machine
end

