-- ==== Sys2Proof/Machine/CartF.lean ====
section
/-! DEFINITION. Family `CART.F.*`: the fixed mapping (43_cartridge.md R244 to R249). -/

namespace Sys2Proof.Machine

/-- `CART.F.RD_ROM0` (R245). -/
def execCartFRdRom0 (addr : Addr) (s : State) : Result :=
  onFixed s (fun img => readImage s img addr.toNat)

/-- `CART.F.RD_ROMX` (R246). -/
def execCartFRdRomx (addr : Addr) (s : State) : Result :=
  onFixed s (fun img => readImage s img addr.toNat)

/-- `CART.F.RD_RAM`: 0xFF (R248). -/
def execCartFRdRam (_addr : Addr) (s : State) : Result :=
  onFixed s (fun _ => .next (s.respond 0xFF))

/-- `CART.F.WR_ROM`: no effect (R247). -/
def execCartFWrRom (_addr : Addr) (_data : Byte) (s : State) : Result :=
  onFixed s (fun _ => .next s)

/-- `CART.F.WR_RAM`: no effect (R249). -/
def execCartFWrRam (_addr : Addr) (_data : Byte) (s : State) : Result :=
  onFixed s (fun _ => .next s)

end Sys2Proof.Machine
end

