-- ==== Sys2Proof/Machine/Env.lean ====
section
/-! DEFINITION. Family `ENV.*`: the environment's reads and writes of the register surface
(40_surface_access.md R140 to R144). -/

namespace Sys2Proof.Machine

/-- `ENV.RD` (R141). -/
def execEnvRd (addr : Addr) (s : State) : Result :=
  if inSurface addr.toNat then .next (s.respond (s.memRead addr.toNat))
  else .next (s.refuse .unroutedSurfaceAddress)

/-- `ENV.WR`, for every surface address but STAT and LY (R142). -/
def execEnvWr (addr : Addr) (data : Byte) (s : State) : Result :=
  if inSurface addr.toNat then .next (s.memWrite addr.toNat data)
  else .next (s.refuse .unroutedSurfaceAddress)

/-- `ENV.WR_STAT`: bits 2..0 are kept (R143). -/
def execEnvWrStat (data : Byte) (s : State) : Result :=
  .next (s.setIo .stat (statWrite (s.io .stat) data))

/-- `ENV.WR_LY`: the write is discarded (R144). -/
def execEnvWrLy (_data : Byte) (s : State) : Result := .next s

end Sys2Proof.Machine
end

