-- ==== Sys2Proof/Machine/Bus.lean ====
section
/-! DEFINITION. The CPU's bus (45_orchestrator.md R358, 20_memory.md R87, R92): an access of the CPU becomes
a word of format E or C, which takes effect at once. -/

namespace Sys2Proof.Machine

/-- What a word of format E or C does (R358).  No other operation is named by one. -/
def busExec (i : Instr) (s : State) : Result :=
  match i with
  | .cartFRdRom0 addr => Sys2Proof.Machine.execCartFRdRom0 addr s
  | .cartFRdRomx addr => Sys2Proof.Machine.execCartFRdRomx addr s
  | .cartFRdRam addr => Sys2Proof.Machine.execCartFRdRam addr s
  | .cartFWrRom addr data => Sys2Proof.Machine.execCartFWrRom addr data s
  | .cartFWrRam addr data => Sys2Proof.Machine.execCartFWrRam addr data s
  | .cartARdRom0 addr => Sys2Proof.Machine.execCartARdRom0 addr s
  | .cartARdRomx addr => Sys2Proof.Machine.execCartARdRomx addr s
  | .cartARdRam addr => Sys2Proof.Machine.execCartARdRam addr s
  | .cartAWrRamen addr data => Sys2Proof.Machine.execCartAWrRamen addr data s
  | .cartAWrBank1 addr data => Sys2Proof.Machine.execCartAWrBank1 addr data s
  | .cartAWrBank2 addr data => Sys2Proof.Machine.execCartAWrBank2 addr data s
  | .cartAWrMode addr data => Sys2Proof.Machine.execCartAWrMode addr data s
  | .cartAWrRam addr data => Sys2Proof.Machine.execCartAWrRam addr data s
  | .cartBRdRom0 addr => Sys2Proof.Machine.execCartBRdRom0 addr s
  | .cartBRdRomx addr => Sys2Proof.Machine.execCartBRdRomx addr s
  | .cartBRdRam addr => Sys2Proof.Machine.execCartBRdRam addr s
  | .cartBWrRamen addr data => Sys2Proof.Machine.execCartBWrRamen addr data s
  | .cartBWrRomb addr data => Sys2Proof.Machine.execCartBWrRomb addr data s
  | .cartBWrHi addr data => Sys2Proof.Machine.execCartBWrHi addr data s
  | .cartBWrRam addr data => Sys2Proof.Machine.execCartBWrRam addr data s
  | .cartCRdRom0 addr => Sys2Proof.Machine.execCartCRdRom0 addr s
  | .cartCRdRomx addr => Sys2Proof.Machine.execCartCRdRomx addr s
  | .cartCRdRam addr => Sys2Proof.Machine.execCartCRdRam addr s
  | .cartCWrRamen addr data => Sys2Proof.Machine.execCartCWrRamen addr data s
  | .cartCWrRomb addr data => Sys2Proof.Machine.execCartCWrRomb addr data s
  | .cartCWrRamsel addr data => Sys2Proof.Machine.execCartCWrRamsel addr data s
  | .cartCWrLatch addr data => Sys2Proof.Machine.execCartCWrLatch addr data s
  | .cartCWrRam addr data => Sys2Proof.Machine.execCartCWrRam addr data s
  | .cartDRdRom0 addr => Sys2Proof.Machine.execCartDRdRom0 addr s
  | .cartDRdRomx addr => Sys2Proof.Machine.execCartDRdRomx addr s
  | .cartDRdRam addr => Sys2Proof.Machine.execCartDRdRam addr s
  | .cartDWrRamen addr data => Sys2Proof.Machine.execCartDWrRamen addr data s
  | .cartDWrRombLo addr data => Sys2Proof.Machine.execCartDWrRombLo addr data s
  | .cartDWrRombHi addr data => Sys2Proof.Machine.execCartDWrRombHi addr data s
  | .cartDWrRamb addr data => Sys2Proof.Machine.execCartDWrRamb addr data s
  | .cartDWr6000 addr data => Sys2Proof.Machine.execCartDWr6000 addr data s
  | .cartDWrRam addr data => Sys2Proof.Machine.execCartDWrRam addr data s
  | .envRd addr => Sys2Proof.Machine.execEnvRd addr s
  | .envWrStat data => Sys2Proof.Machine.execEnvWrStat data s
  | .envWrLy data => Sys2Proof.Machine.execEnvWrLy data s
  | .envWr addr data => Sys2Proof.Machine.execEnvWr addr data s
  | .ppuAdvance _ | .orchTick | .hostCommit | .cartLoad | .ppuLcdOff
  | .ppuTOamVram | .ppuTVramHblank | .ppuTHblankOam | .ppuTHblankVblank | .ppuTVblankLine
  | .ppuTVblankOam | .ppuLycCheck | .rasterBgwin | .rasterObj | .orchStep
  | .orchDispatch => .next s

/-- The word a CPU access is (R113, R116), none where the address leads outside the block (R87). -/
def accessWord? : Access → Option Word
  | .read addr =>
    match busTarget addr with
    | .surface => some (envReadWord addr)
    | .cartridge => some (cartReadWord addr)
    | .outside => none
  | .write addr data =>
    match busTarget addr with
    | .surface => some (envWriteWord addr data)
    | .cartridge => some (cartWriteWord addr data)
    | .outside => none

/-- The state with the interface's reply as it was in `s`: what a read returns to the CPU is the CPU's. -/
def State.keepReply (t s : State) : State := { t with port := { t.port with reply := s.port.reply } }

/-- A CPU's word: decoded as a word presented now, it runs, or it is refused (R120, R358). -/
def busWord (w : Word) (s : State) : Result :=
  match decode (s.context false) w with
  | .error r => .next (s.refuse r)
  | .ok i => busExec i s

/-- The outcome with the interface's reply as it was in `s`. -/
def keepingReply (s : State) : Result → Result
  | .next t => .next (t.keepReply s)
  | .fault r => .fault r
  | .refused r => .refused r

/-- One CPU access: its word runs (R358). -/
def busAccess (a : Access) (s : State) : Result :=
  match accessWord? a with
  | none => .next s
  | some w => keepingReply s (busWord w s)

/-- The byte a read gives the CPU (R113, R141), none where the address leads outside the block (R87) or the
read sets a mark (assumption log 10). -/
def busByte (addr : Addr) (s : State) : Option Byte :=
  match accessWord? (.read addr) with
  | none => none
  | some w =>
    match busWord w s with
    | .next t => if t.marks = s.marks then t.port.reply else none
    | .fault _ | .refused _ => none

/-- The CPU's accesses in the order it issues them (R358). -/
def busAccesses : List Access → State → Result
  | [], s => .next s
  | a :: rest, s => andThen (busAccess a s) (busAccesses rest)

end Sys2Proof.Machine
end

