-- ==== Sys2Proof/Machine/Load.lean ====
section
/-! DEFINITION. `CART.LOAD`: the checks in their order and the reset values of the variant's registers
(43_cartridge.md R241 to R243, R250; 44_cartridge_gk.md R290, R291, R300, R310). -/

namespace Sys2Proof.Machine

/-- The bank controller of a variant as the load leaves it (R241, R250, R291, R300, R310); its RAM holds
`CART_RAM_INIT`. -/
def mbcAtLoad (ramInit : List (Nat × Byte)) (img : Image) : Variant → Mbc
  | .fixed => .fixed
  | .a => .a { ramEnable := false, bank1 := 1, bank2 := 0, mode := 0, ram := Cells.below ramInit img.ramSize }
  | .b => .b { ramEnable := false, romBank := 1, ram := Cells.lowNibbles (Cells.below ramInit 512) }
  | .c => .c { ramEnable := false, romBank := 1, ramSel := 0, ram := Cells.below ramInit img.ramSize }
  | .d => .d { ramEnable := false, romBankLo := 1, romBankHi := 0, ramBank := 0,
               ram := Cells.below ramInit img.ramSize }

/-- The checks of R241 in their order, and the cartridge they give. -/
def loadCart (ramInit : List (Nat × Byte)) (img : Image) : Except FaultMark Cart :=
  if img.size < 0x150 then .error (.malformedImage img.size)
  else match variantOf (img.byte 0x147) with
    | none => .error (.unsupportedCartridge (img.byte 0x147))
    | some v =>
      if sizeOk img.size (img.byte 0x148) = false then .error (.malformedImage img.size)
      else .ok { img := img, mbc := mbcAtLoad ramInit img v }

/-- `CART.LOAD` of the image the host holds out (R241); a second load is refused (R120). -/
def execCartLoad (s : State) : Result :=
  match s.cart with
  | some _ => .next (s.refuse .reload)
  | none =>
    match loadCart s.cfg.cartRamInit s.port.loader with
    | .error f => .next (s.raise f)
    | .ok c => .next { s with cart := some c }

end Sys2Proof.Machine
end

