-- ==== Sys2Proof/Machine/Raster.lean ====
section
/-! DEFINITION. Family `RASTER.*`: the background/window pass and the sprite pass
(42_ppu_raster.md R190 to R213). -/

namespace Sys2Proof.Machine

/-! ## Background and window (R190 to R200) -/

/-- `BgWinPixel(x, y)` (R190). -/
def bgWinPixel (s : State) (x y : Nat) : Shade :=
  let lcdc := s.io .lcdc
  let active := windowActive lcdc (s.io .wy) (s.io .wx) x y
  let map := mapBase (if active then winMapSelect lcdc else bgMapSelect lcdc)
  let xy := if active then winCoord (s.io .wx) (s.io .wy) x y else bgCoord (s.io .scx) (s.io .scy) x y
  let idx := s.memRead (mapEntryAddr map xy.1 xy.2)
  let low := planeAddr (tileDataAddr idx (unsignedTiles lcdc)) (xy.2 % 8)
  palMap (s.io .bgp) (colorId (s.memRead low) (s.memRead (low + 1)) (xy.1 % 8))

/-- The 160 cells of the pass, column `x` being `BgWinPixel(x, line)` (R190, R200). -/
def bgWinRow (s : State) (line : Nat) : Row :=
  ⟨⟨(List.range 160).map (fun x => bgWinPixel s x line)⟩, by simp⟩

/-- `RASTER.BGWIN line`: the whole row, or the fault of the first `setPixel` where the row does not
exist (R190, R213). -/
def rasterBgWin (line : Nat) (s : State) : Result :=
  if line < 144 then .next (s.setRow line (bgWinRow s line))
  else .next (s.raise (.outOfRangePixel 0 line))

/-- `RASTER.BGWIN`, with `line` the value of LY (R190). -/
def execRasterBgwin (s : State) : Result := rasterBgWin s.line s

/-! ## Sprites (R201 to R212) -/

/-- An opaque sprite pixel on screen: its column, its shade, and whether it lies behind the background. -/
structure SpritePixel where
  x : Nat
  shade : Shade
  behind : Bool
  deriving DecidableEq, Repr, Inhabited

/-- Column `c` of a sprite row: nothing where the raw id is 0 or the column is off screen (R206, R207, R210). -/
def spritePixel (lo hi attr palette ox : Byte) (c : Nat) : Option SpritePixel :=
  let b := spriteBit c (testBit attr 5)
  if planeId lo hi b = 0 then none
  else (spriteColumn ox c).map (fun x =>
    { x := x, shade := palMap palette (planeId lo hi b), behind := testBit attr 7 })

/-- The pixels entry `i` of OAM offers to scanline `line`, columns left to right (R201 to R210). -/
def spritePixels (s : State) (line i : Nat) : List SpritePixel :=
  let e := oamEntry i
  let h := spriteHeight (s.io .lcdc)
  let oy := s.memRead e
  let attr := s.memRead (e + 3)
  if spriteCovers oy line h then
    let addr := spriteRowAddr s.cfg.tallSpriteMaskLsb (s.memRead (e + 2)) (spriteRow oy line h (testBit attr 6)) h
    let palette := if testBit attr 4 then s.io .obp1 else s.io .obp0
    (List.range 8).filterMap
      (spritePixel (s.memRead addr) (s.memRead (addr + 1)) attr palette (s.memRead (e + 1)))
  else []

/-- The pixels of all 40 entries, entry 39 first (R211, R212). -/
def objPixels (s : State) (line : Nat) : List SpritePixel :=
  (List.range 40).reverse.flatMap (spritePixels s line)

/-- The shade `BehindVisible` compares a cell with, by `BEHIND_TEST` (R208). -/
def behindShade (s : State) : Shade :=
  match s.cfg.behindTest with
  | .bgpId0 => palMap (s.io .bgp) 0
  | .shade0 => 0

/-- One pixel onto the row: a behind-background pixel only where the cell holds `behind` (R208). -/
def drawPixel (behind : Shade) (row : Row) (p : SpritePixel) : Row :=
  if p.behind = true ∧ row[p.x]? ≠ some behind then row else row.setIfInBounds p.x p.shade

/-- `RASTER.OBJ line`: the pixels drawn in order; where the row does not exist, the fault of the first
call of the sink, if there is one (R201, R213). -/
def rasterObj (line : Nat) (s : State) : Result :=
  match s.fb[line]? with
  | some row => .next (s.setRow line ((objPixels s line).foldl (drawPixel (behindShade s)) row))
  | none =>
    match objPixels s line with
    | [] => .next s
    | p :: _ => .next (s.raise (.outOfRangePixel p.x line))

/-- `RASTER.OBJ`, with `line` the value of LY (R201). -/
def execRasterObj (s : State) : Result := rasterObj s.line s

end Sys2Proof.Machine
end

