-- ==== Sys2Proof/Machine/Ppu.lean ====
section
/-! DEFINITION. Family `PPU.*`: the scanline-mode state machine (41_ppu_timing.md R150 to R166). -/

namespace Sys2Proof.Machine

/-! ## Mode transitions (R153 to R158) -/

/-- `PPU.T_OAM_VRAM` (R153). -/
def execPpuTOamVram (s : State) : Result := .next (s.setMode .vram)

/-- Entering HBLANK after the raster passes: the mode, then the request if status bit 3 is set (R154). -/
def enterHblank (s : State) : State :=
  (s.setMode .hblank).requestIf (testBit (s.io .stat) 3) lcdStatusLine

/-- Entering OAM: the mode, then the request if status bit 5 is set (R155, R158). -/
def enterOam (s : State) : State :=
  (s.setMode .oam).requestIf (testBit (s.io .stat) 5) lcdStatusLine

/-- `PPU.T_VRAM_HBLANK`: background pass, sprite pass, mode, request (R154). -/
def execPpuTVramHblank (s : State) : Result :=
  andThen (rasterBgWin s.line s) (fun s1 =>
    andThen (rasterObj s1.line s1) (fun s2 => .next (enterHblank s2)))

/-- `PPU.T_HBLANK_OAM` (R155). -/
def execPpuTHblankOam (s : State) : Result := .next (enterOam (s.setIo .ly (s.io .ly + 1)))

/-- `PPU.T_HBLANK_VBLANK` (R156). -/
def execPpuTHblankVblank (s : State) : Result :=
  .next ((((s.setIo .ly 144).setMode .vblank).requestInterrupt vblankLine).setFrameReady true)

/-- `PPU.T_VBLANK_LINE` (R157). -/
def execPpuTVblankLine (s : State) : Result := .next (s.setIo .ly (s.io .ly + 1))

/-- `PPU.T_VBLANK_OAM` (R158). -/
def execPpuTVblankOam (s : State) : Result := .next (enterOam (s.setIo .ly 0))

/-! ## Display off and coincidence (R159, R160) -/

/-- `PPU.LCD_OFF` (R159). -/
def execPpuLcdOff (s : State) : Result :=
  .next (((s.setIo .ly 0).setCounter 0).setMode .hblank)

/-- `PPU.LYC_CHECK` (R160): the request is made on a newly set coincidence with status bit 6 set. -/
def execPpuLycCheck (s : State) : Result :=
  let eq := decide (s.io .ly = s.io .lyc)
  .next ((s.setIo .stat (withCoincidence (s.io .stat) eq)).requestIf
    (eq && !testBit (s.io .stat) 2 && testBit (s.io .stat) 6) lcdStatusLine)

/-! ## Advance (R150 to R152) -/

/-- One turn of R150's loop, the counter already lowered by the threshold: the transition of the mode. -/
def transition (s : State) : Result :=
  match s.mode with
  | .oam => execPpuTOamVram s
  | .vram => execPpuTVramHblank s
  | .hblank => if s.line + 1 = 144 then execPpuTHblankVblank s else execPpuTHblankOam s
  | .vblank => if s.line = 153 then execPpuTVblankOam s else execPpuTVblankLine s

/-- R150's loop.  Each turn lowers the counter by at least 80, so `fuel = counter / 80 + 1` turns are
never used up (`advanceLoop_fuel` in Laws). -/
def advanceLoop : Nat → State → Result
  | 0, s => .next s
  | fuel + 1, s =>
    if s.ppu.counter < threshold s.mode then .next s
    else andThen (transition (s.setCounter (s.ppu.counter - threshold s.mode))) (advanceLoop fuel)

/-- `advance(cycles, registers)` (R150), for any count.

DEDUCED (assumption log 33): a count above 2^24 − 1, which only a step can pass (R353), is one call with one
coincidence check.  R112 splits such a count into several words and does not say how, and each word would
check on its own (R166). -/
def ppuAdvance (cycles : Nat) (s : State) : Result :=
  andThen
    (if lcdOn (s.io .lcdc) then
      advanceLoop ((s.ppu.counter + cycles) / 80 + 1) (s.setCounter (s.ppu.counter + cycles))
    else execPpuLcdOff s)
    execPpuLycCheck

/-- `PPU.ADVANCE cycles` (R150, R112). -/
def execPpuAdvance (cycles : Payload) (s : State) : Result := ppuAdvance cycles.toNat s

end Sys2Proof.Machine
end

