-- ==== Sys2Proof/Machine/Orch.lean ====
section
/-! DEFINITION. Families `ORCH.*` and `HOST.*`: the tick, the step, the interrupt dispatcher and the frame
commit (45_orchestrator.md R350 to R365). -/

namespace Sys2Proof.Machine

/-! ## Dispatch (R354 to R357) -/

/-- The CPU's writes over its bus, as accesses. -/
def entryAccesses (a : EntryAct) : List Access := a.writes.map (fun w => .write w.1 w.2)

/-- The CPU's next interrupt entry, with what is left scripted and the CPU's own state after it: a scripted
entry, or the free one for the CPU's state and the line. -/
def State.entryAnswer (s : State) (line : Nat) : EntryAct × List EntryAct × Nat :=
  match s.ext.entry with
  | a :: rest => (a, rest, s.ext.cpu.inner)
  | [] =>
    let free := Config.cpuEntry s.ext.cpu.inner line
    (free.1, [], free.2)

/-- `cpu.vectorInterrupt(line)`: taken only while the master enable is active, and then the CPU enters
the handler and pushes its program counter (R357, R359). -/
def vectorInterrupt (line : Nat) (s : State) : Result :=
  if s.ext.enable.active then
    let answer := s.entryAnswer line
    let s1 := s.enterInterrupt line
    busAccesses (entryAccesses answer.1)
      { s1 with ext := { s1.ext with cpu := { s1.ext.cpu with inner := answer.2.2 }, entry := answer.2.1 } }
  else .next s

/-- The dispatcher's scan.  `request` gives IE AND IF as the scan reads them at a line's turn (R354). -/
def scanLines (request : State → Byte) : List Nat → State → Result
  | [], s => .next s
  | line :: rest, s =>
    andThen (if testBit (request s) line then vectorInterrupt line s else .next s) (scanLines request rest)

/-- The lines both enabled and pending. -/
def State.requested (s : State) : Byte := s.io .ie &&& s.io .iflag

/-- `ORCH.DISPATCH` (R354): under `DISPATCH_READ = FRESH` IE and IF are read afresh for each line. -/
def execOrchDispatch (s : State) : Result :=
  let request : State → Byte :=
    match s.cfg.dispatchRead with
    | .fresh => State.requested
    | .snapshot => fun _ => s.requested
  andThen (scanLines request scanOrder s) (fun t => .next t.updateDeferredEnableFlag)

/-! ## Step (R353) -/

/-- The phase the step has come to (R32, R353). -/
def State.setPhase (s : State) (p : Phase) : State := { s with orch := { s.orch with phase := p } }

/-- The end of a CPU step: its effect on the enable latch, the CPU's own state, and the cycles it returns,
at least 1 (R357, R358). -/
def State.cpuReturns (s : State) (d : CpuDone) : State :=
  { s with
    ext := { s.ext with enable := s.ext.enable.apply d.enable, cpu := { s.ext.cpu with inner := d.inner } }
    orch := { s.orch with stepCycles := d.cyclesLess1 + 1 } }

/-- A CPU step runs: each access takes effect when the CPU issues it, and a read's byte is what the rest of
the step depends on (R358, R88). -/
def runPlan : CpuPlan → State → Result
  | .done d, s => .next (s.cpuReturns d)
  | .write addr data rest, s => andThen (busAccess (.write addr data) s) (runPlan rest)
  | .read addr rest, s => andThen (busAccess (.read addr) s) (runPlan (rest (busByte addr s)))

/-- The CPU's next step: a scripted one, or the free one for the CPU's own state and its enable latch. -/
def State.cpuPlan (s : State) : CpuPlan :=
  match s.ext.cpu.scripted with
  | act :: _ => act.plan s.ext.cpu.inner
  | [] => Config.cpuStep s.ext.cpu.inner s.ext.enable

/-- The step taken from the script. -/
def State.tookCpuStep (s : State) : State :=
  { s with ext := { s.ext with cpu := { s.ext.cpu with scripted := s.ext.cpu.scripted.tail } } }

/-- (a) `c <- cpu.step()`, `c` being left in `orch.stepCycles` (R353, R357, R358). -/
def cpuPhase (s : State) : Result := runPlan s.cpuPlan s.tookCpuStep

/-- The timer's writes: its own registers lie in the plain-storage I/O bytes, and it writes nothing else
(R360, R364). -/
def timerWrites : List (Addr × Byte) → State → State
  | [], s => s
  | (addr, v) :: rest, s =>
    timerWrites rest (if plainIo addr.toNat then s.memWrite addr.toNat v else s)

/-- (b) `timer.advance(c, surface)` (R360, R364). -/
def timerPhase (c : Nat) (s : State) : State :=
  let answer := s.ext.timer.next (Config.timerAdvance s.ext.timer.inner c s.surface)
  let s1 := { s with ext := { s.ext with timer := answer.2 } }
  (timerWrites answer.1.writes s1).requestIf answer.1.request timerLine

/-- (d) `latch.advance(surface)`: the keys in the buffer go to the latch, which makes the JOYP byte of them,
and leave the buffer (R361, R364). -/
def latchPhase (s : State) : State :=
  let answer := s.ext.latch.next (Config.latchAdvance s.ext.latch.inner s.ext.keys s.surface)
  let s1 := { s with ext := { s.ext with latch := answer.2, keys := [] } }
  let s2 := match answer.1.joyp with
    | some v => s1.setIo .joyp v
    | none => s1
  s2.requestIf answer.1.request joypadLine

/-- `ORCH.STEP`: the phases (a) to (e) in order, timer and PPU receiving what the CPU returned, which stays
in `orch.stepCycles` as what the step returns (R353). -/
def execOrchStep (s : State) : Result :=
  andThen (cpuPhase (s.setPhase .cpu)) (fun s1 =>
    andThen (.next (timerPhase s1.orch.stepCycles (s1.setPhase .timer))) (fun s2 =>
      andThen (ppuAdvance s2.orch.stepCycles (s2.setPhase .ppu)) (fun s3 =>
        andThen (.next (latchPhase (s3.setPhase .latch))) (fun s4 =>
          andThen (execOrchDispatch (s4.setPhase .dispatch)) (fun s5 => .next (s5.setPhase .idle))))))

/-! ## Tick (R350 to R352) -/

/-- `BUDGET = CLOCK_HZ / REFRESH_HZ`, exact (R351). -/
def budget (c : Config) : ℚ := (c.clockHz : ℚ) / (c.refreshHz : ℚ)

/-- R350's loop: `while done < target`.  Every step runs at least one cycle (R358), so `⌈target⌉` turns
are never used up (`tickLoop_fuel` in Laws). -/
def tickLoop (target : ℚ) : Nat → State → Result
  | 0, s => .next s
  | fuel + 1, s =>
    if (s.orch.cyclesDone : ℚ) < target then
      andThen (execOrchStep s) (fun t =>
        tickLoop target fuel
          { t with orch := { t.orch with cyclesDone := t.orch.cyclesDone + t.orch.stepCycles } })
    else .next s

/-- `ORCH.TICK` (R350, R352); refused before a successful load (R120). -/
def execOrchTick (s : State) : Result :=
  match s.cart with
  | none => .next (s.refuse .noCartridge)
  | some _ =>
    let target := budget s.cfg + s.orch.carry
    andThen (tickLoop target ⌈target⌉.toNat { s with orch := { s.orch with cyclesDone := 0 } }) (fun t =>
      .next { t with orch := { t.orch with carry := target - (t.orch.cyclesDone : ℚ) } })

/-! ## Commit (R363) -/

/-- `HOST.COMMIT` (R363); refused before a successful load (R120). -/
def execHostCommit (s : State) : Result :=
  match s.cart with
  | none => .next (s.refuse .noCartridge)
  | some _ => .next (s.commitFrame.setFrameReady false)

end Sys2Proof.Machine
end

