-- ==== Sys2Proof/Machine/Dispatch.lean ====
section
/-! DEFINITION. One arm per operation of spec/opcode_table.json. -/

namespace Sys2Proof.Machine

def exec (i : Instr) (s : State) : Host.Outcome State Fault Refusal :=
  match i with
  | .ppuAdvance cycles => Sys2Proof.Machine.execPpuAdvance cycles s
  | .cartFRdRom0 addr => Sys2Proof.Machine.execCartFRdRom0 addr s
  | .cartFRdRomx addr => Sys2Proof.Machine.execCartFRdRomx addr s
  | .cartFRdRam addr => Sys2Proof.Machine.execCartFRdRam addr s
  | .cartFWrRom addr data => Sys2Proof.Machine.execCartFWrRom addr data s
  | .cartFWrRam addr data => Sys2Proof.Machine.execCartFWrRam addr data s
  | .cartARdRom0 addr => Sys2Proof.Machine.execCartARdRom0 addr s
  | .cartARdRomx addr => Sys2Proof.Machine.execCartARdRomx addr s
  | .cartARdRam addr => Sys2Proof.Machine.execCartARdRam addr s
  | .cartAWrRamen addr data => Sys2Proof.Machine.execCartAWrRamen addr data s
  | .cartAWrBank1 addr data => Sys2Proof.Machine.execCartAWrBank1 addr data s
  | .cartAWrBank2 addr data => Sys2Proof.Machine.execCartAWrBank2 addr data s
  | .cartAWrMode addr data => Sys2Proof.Machine.execCartAWrMode addr data s
  | .cartAWrRam addr data => Sys2Proof.Machine.execCartAWrRam addr data s
  | .cartBRdRom0 addr => Sys2Proof.Machine.execCartBRdRom0 addr s
  | .cartBRdRomx addr => Sys2Proof.Machine.execCartBRdRomx addr s
  | .cartBRdRam addr => Sys2Proof.Machine.execCartBRdRam addr s
  | .cartBWrRamen addr data => Sys2Proof.Machine.execCartBWrRamen addr data s
  | .cartBWrRomb addr data => Sys2Proof.Machine.execCartBWrRomb addr data s
  | .cartBWrHi addr data => Sys2Proof.Machine.execCartBWrHi addr data s
  | .cartBWrRam addr data => Sys2Proof.Machine.execCartBWrRam addr data s
  | .cartCRdRom0 addr => Sys2Proof.Machine.execCartCRdRom0 addr s
  | .cartCRdRomx addr => Sys2Proof.Machine.execCartCRdRomx addr s
  | .cartCRdRam addr => Sys2Proof.Machine.execCartCRdRam addr s
  | .cartCWrRamen addr data => Sys2Proof.Machine.execCartCWrRamen addr data s
  | .cartCWrRomb addr data => Sys2Proof.Machine.execCartCWrRomb addr data s
  | .cartCWrRamsel addr data => Sys2Proof.Machine.execCartCWrRamsel addr data s
  | .cartCWrLatch addr data => Sys2Proof.Machine.execCartCWrLatch addr data s
  | .cartCWrRam addr data => Sys2Proof.Machine.execCartCWrRam addr data s
  | .cartDRdRom0 addr => Sys2Proof.Machine.execCartDRdRom0 addr s
  | .cartDRdRomx addr => Sys2Proof.Machine.execCartDRdRomx addr s
  | .cartDRdRam addr => Sys2Proof.Machine.execCartDRdRam addr s
  | .cartDWrRamen addr data => Sys2Proof.Machine.execCartDWrRamen addr data s
  | .cartDWrRombLo addr data => Sys2Proof.Machine.execCartDWrRombLo addr data s
  | .cartDWrRombHi addr data => Sys2Proof.Machine.execCartDWrRombHi addr data s
  | .cartDWrRamb addr data => Sys2Proof.Machine.execCartDWrRamb addr data s
  | .cartDWr6000 addr data => Sys2Proof.Machine.execCartDWr6000 addr data s
  | .cartDWrRam addr data => Sys2Proof.Machine.execCartDWrRam addr data s
  | .orchTick => Sys2Proof.Machine.execOrchTick s
  | .hostCommit => Sys2Proof.Machine.execHostCommit s
  | .cartLoad => Sys2Proof.Machine.execCartLoad s
  | .envRd addr => Sys2Proof.Machine.execEnvRd addr s
  | .envWrStat data => Sys2Proof.Machine.execEnvWrStat data s
  | .envWrLy data => Sys2Proof.Machine.execEnvWrLy data s
  | .envWr addr data => Sys2Proof.Machine.execEnvWr addr data s
  | .ppuLcdOff => Sys2Proof.Machine.execPpuLcdOff s
  | .ppuTOamVram => Sys2Proof.Machine.execPpuTOamVram s
  | .ppuTVramHblank => Sys2Proof.Machine.execPpuTVramHblank s
  | .ppuTHblankOam => Sys2Proof.Machine.execPpuTHblankOam s
  | .ppuTHblankVblank => Sys2Proof.Machine.execPpuTHblankVblank s
  | .ppuTVblankLine => Sys2Proof.Machine.execPpuTVblankLine s
  | .ppuTVblankOam => Sys2Proof.Machine.execPpuTVblankOam s
  | .ppuLycCheck => Sys2Proof.Machine.execPpuLycCheck s
  | .rasterBgwin => Sys2Proof.Machine.execRasterBgwin s
  | .rasterObj => Sys2Proof.Machine.execRasterObj s
  | .orchStep => Sys2Proof.Machine.execOrchStep s
  | .orchDispatch => Sys2Proof.Machine.execOrchDispatch s

end Sys2Proof.Machine
end

