-- ==== Sys2Proof/Machine/Fetch.lean ====
section
/-! DEFINITION. Taking the next input from the port, and offering a table row's word to it (R110, R117,
R120; assumption logs 1 and 16). -/

namespace Sys2Proof.Machine

/-- The state once the first input is taken from the port; the reply of the word before is gone. -/
def State.took (s : State) : State :=
  { s with port := { s.port with inbox := s.port.inbox.tail, reply := none } }

/-- A 32 KiB image of zeros but for its header type byte. -/
def blankImage (header : Byte) : Image :=
  { size := 0x8000, bytes := if header = 0 then [] else [(0x147, header)] }

/-- The cartridge a blank variant-D image loads as (R310): what a format-C word or a tick needs in order
to run at all (R120). -/
def blankCart : Cart :=
  { img := blankImage 0x19,
    mbc := .d { ramEnable := false, romBankLo := 1, romBankHi := 0, ramBank := 0, ram := [] } }

/-- How a word reaches the block: a word of format I from the rule that owns it, any other from outside (R117). -/
def inputOf (w : Word) : Input := if unitOf w = 8 ∨ unitOf w = 9 then .event w else .word w

/-- The first input becomes `w`.  Where `w` needs a loaded cartridge and there is none, a blank one is
there; where `w` is `CART.LOAD` and the host holds out no image, a blank one is held out. -/
def State.offerWord (s : State) (_nbits w : Nat) : State :=
  let word : Word := BitVec.ofNat 32 w
  { s with
    cart := match s.cart with
      | some c => some c
      | none => if unitOf word = 2 ∨ unitOf word = 3 then some blankCart else none
    port := { s.port with
      inbox := inputOf word :: s.port.inbox
      loader := if unitOf word = 4 ∧ s.port.loader.size = 0 then blankImage 0 else s.port.loader } }

end Sys2Proof.Machine
end

