-- ==== Sys2Proof/Machine/Present.lean ====
section
/-! DEFINITION. What one step does around `exec` (R84, R110, R120, R361, R400): a stopped machine takes no
step, an idle machine waits, a key report enters the latch's buffer, and a word is decoded and runs or
is refused. -/

namespace Sys2Proof.Machine

/-- A word just taken from the port: refused, or run (R120). -/
def present (inside : Bool) (w : Word) (s : State) : Result :=
  match decode (s.context inside) w with
  | .error r => .next (s.refuse r)
  | .ok i => exec i s

/-- What a machine with no mark does with its first input, if there is one. -/
def serve (s : State) : Result :=
  match s.port.inbox with
  | [] => .next s
  | .key k p :: _ => .next (s.took.reportKey k p)
  | .word w :: _ => present false w s.took
  | .event w :: _ => present true w s.took

/-- The stop of a machine with a mark, which no word changes (R120, R400). -/
def stopOf (s : State) : Option Result :=
  match s.marks.fault, s.marks.refusal with
  | some f, _ => some (.fault (.stopped f))
  | none, some r => some (.refused (.stopped r))
  | none, none => none

end Sys2Proof.Machine
end

