-- ==== Sys2Proof/Machine/Step.lean ====
section
/-! DEFINITION. One step of the machine, and a table row's word placed where the next step takes it. -/

namespace Sys2Proof.Machine

/-- One step (R84, R110): the stop of a machine with a mark, or the next input served. -/
def step (s : State) : Host.Outcome State Fault Refusal :=
  match stopOf s with
  | some o => o
  | none => serve s

/-- `s` with a table row's word stored where `step` takes its next instruction. -/
def State.withFetchWord (s : State) (nbits w : Nat) : State := s.offerWord nbits w

end Sys2Proof.Machine
end

