-- ==== Sys2Proof/Safety.lean ====
section
/-! DEFINITION. What counts as a well-formed state and as a safe run, in the terms the statements use: the
invariant `PpuOk` of 41_ppu_timing.md R162, the canonical form of every sparse memory, the cartridge
bounds of R243, R290, R295 and R304, and the absence of marks (R52). -/

namespace Sys2Proof.Machine

/-- No mark is set: the machine can take a step (R120, R400). -/
abbrev State.Running (s : State) : Prop := s.marks.fault = none ∧ s.marks.refusal = none

/-- The mode and the scanline agree (R162). -/
def PpuLines (s : State) : Prop :=
  (s.mode = .vblank → 144 ≤ s.line ∧ s.line ≤ 153) ∧ (s.mode ≠ .vblank → s.line ≤ 143)

/-- `PpuOk` (R162). -/
def PpuOk (s : State) : Prop := PpuLines s ∧ s.ppu.counter < threshold s.mode

/-- The surface bytes are in canonical form and lie where the surface stores plain bytes (R80). -/
def SurfaceOk (f : Surface) : Prop := Memory.wf f.mem = true ∧ Cells.inside f.mem storedByte = true

/-- An image's bytes are in canonical form and lie below its length (R49). -/
def ImageOk (img : Image) : Prop :=
  Memory.wf img.bytes = true ∧ Cells.inside img.bytes (fun i => decide (i < img.size)) = true

/-- The bank controller's registers and RAM keep their ranges (R250, R290, R295, R304). -/
def MbcOk (ramSize : Nat) : Mbc → Prop
  | .fixed => True
  | .a m => m.bank1 ≠ 0 ∧ Memory.wf m.ram = true ∧ Cells.inside m.ram (fun i => decide (i < ramSize)) = true
  | .b m => Cells.wf m.ram = true ∧ Cells.inside m.ram (fun i => decide (i < 512)) = true
  | .c m => m.romBank ≠ 0 ∧ Memory.wf m.ram = true ∧ Cells.inside m.ram (fun i => decide (i < ramSize)) = true
  | .d m => Memory.wf m.ram = true ∧ Cells.inside m.ram (fun i => decide (i < ramSize)) = true

/-- A loaded image is at least 32 KiB and a multiple of 16 KiB (R243). -/
def SizeOk (img : Image) : Prop := 0x8000 ≤ img.size ∧ img.size % 0x4000 = 0

/-- A loaded cartridge (R243, R258). -/
def CartOk (c : Cart) : Prop := ImageOk c.img ∧ SizeOk c.img ∧ MbcOk c.img.ramSize c.mbc

/-- No internal event is presented as if a rule had produced it: the words a host presents come from
outside (R117). -/
def HostInputs (s : State) : Prop := ∀ w, Input.event w ∉ s.port.inbox

/-- The invariant of the machine. -/
def Inv (s : State) : Prop :=
  PpuOk s ∧ SurfaceOk s.surface ∧ Memory.wf s.cfg.cartRamInit = true ∧ ImageOk s.port.loader
    ∧ (∀ c, s.cart = some c → CartOk c) ∧ HostInputs s

/-- The cartridge's reads cannot fault: variant B's sixteen banks lie within the image (R252). -/
def BanksReachable (s : State) : Prop :=
  ∀ img m, s.cart = some { img := img, mbc := .b m } → 0x40000 ≤ img.size

/-- The cartridge's words are not refused: variants A, C and D have an algorithm (R7, R120). -/
def VariantUsable (s : State) : Prop :=
  ∀ c, s.cart = some c → c.mbc.variant.governedByAcdModel = true → s.cfg.variantAcdModel = .physical

/-! ## What an operation answers, written out -/

/-- `s` with these registers. -/
def State.withRegs (s : State) (g : Regs) : State := { s with surface := { s.surface with regs := g } }

/-- `s` with a byte returned to the issuer (R113). -/
def State.replying (s : State) (b : Byte) : State := { s with port := { s.port with reply := some b } }

/-- `s` with its cartridge's controller in this state. -/
def State.withMbc (s : State) (img : Image) (m : Mbc) : State := { s with cart := some { img := img, mbc := m } }

/-- `s` with a fault mark. -/
def State.faulted (s : State) (f : FaultMark) : State := { s with marks := { s.marks with fault := some f } }

/-- `s` with a refusal mark. -/
def State.refusedBy (s : State) (r : RefusalReason) : State := { s with marks := { s.marks with refusal := some r } }

/-- `new` holds `v` at index `a`, and what `old` holds everywhere else. -/
def StoredAt {w : Nat} (old new : Cells w) (a : Nat) (v : BitVec w) : Prop :=
  ∀ i, Cells.read new i = if i = a then v else Cells.read old i

/-- What only the PPU writes is the same in `t`: `STAT[2:0]`, `LY`, and the PPU's own state (R34, R36, R53). -/
structure PpuUntouched (s t : State) : Prop where
  stat : ∀ i, i < 3 → testBit (t.io .stat) i = testBit (s.io .stat) i
  ly : t.io .ly = s.io .ly
  ppu : t.ppu = s.ppu
  fb : t.fb = s.fb

/-- The cartridge of `t` is the cartridge of `s`: same image, same variant (R258). -/
def SameCartridge (s t : State) : Prop :=
  ∀ c, s.cart = some c → ∃ c', t.cart = some c' ∧ c'.img = c.img ∧ c'.mbc.variant = c.mbc.variant

/-- Every access of the CPU to the cartridge runs: one is loaded, its images and registers are in range, and
no read of it faults or is refused (R120, R243, R252). -/
structure BusReady (s : State) : Prop where
  cart : ∃ c, s.cart = some c ∧ CartOk c
  banks : BanksReachable s
  variant : VariantUsable s

/-! ## Words as the assembler writes them (R124) -/

/-- `ADVANCE n`. -/
def advanceText (n : Payload) : Word := 0x10000000#32 ||| n.setWidth 32

/-- `CRD a`. -/
def crdText (a : Addr) : Word := 0x20000000#32 ||| (a.setWidth 32 <<< 8)

/-- `CWR a, d`. -/
def cwrText (a : Addr) (d : Byte) : Word := 0x21000000#32 ||| (a.setWidth 32 <<< 8) ||| d.setWidth 32

/-- `ENVRD a`. -/
def envrdText (a : Addr) : Word := 0x50000000#32 ||| (a.setWidth 32 <<< 8)

/-- `ENVWR a, d`. -/
def envwrText (a : Addr) (d : Byte) : Word := 0x51000000#32 ||| (a.setWidth 32 <<< 8) ||| d.setWidth 32

/-! ## The table of R119 -/

/-- A row of R119's table: `RW`, the address range, and the operation of each variant. -/
structure SelectionRow where
  write : Bool
  lo : Nat
  hi : Nat
  op : Variant → Addr → Byte → Instr

/-- R119's table. -/
def selectionTable : List SelectionRow :=
  [ { write := false, lo := 0x0000, hi := 0x3FFF, op := fun v a _ => match v with
      | .fixed => .cartFRdRom0 a | .a => .cartARdRom0 a | .b => .cartBRdRom0 a
      | .c => .cartCRdRom0 a | .d => .cartDRdRom0 a },
    { write := false, lo := 0x4000, hi := 0x7FFF, op := fun v a _ => match v with
      | .fixed => .cartFRdRomx a | .a => .cartARdRomx a | .b => .cartBRdRomx a
      | .c => .cartCRdRomx a | .d => .cartDRdRomx a },
    { write := false, lo := 0xA000, hi := 0xBFFF, op := fun v a _ => match v with
      | .fixed => .cartFRdRam a | .a => .cartARdRam a | .b => .cartBRdRam a
      | .c => .cartCRdRam a | .d => .cartDRdRam a },
    { write := true, lo := 0x0000, hi := 0x1FFF, op := fun v a d => match v with
      | .fixed => .cartFWrRom a d | .a => .cartAWrRamen a d | .b => .cartBWrRamen a d
      | .c => .cartCWrRamen a d | .d => .cartDWrRamen a d },
    { write := true, lo := 0x2000, hi := 0x2FFF, op := fun v a d => match v with
      | .fixed => .cartFWrRom a d | .a => .cartAWrBank1 a d | .b => .cartBWrRomb a d
      | .c => .cartCWrRomb a d | .d => .cartDWrRombLo a d },
    { write := true, lo := 0x3000, hi := 0x3FFF, op := fun v a d => match v with
      | .fixed => .cartFWrRom a d | .a => .cartAWrBank1 a d | .b => .cartBWrRomb a d
      | .c => .cartCWrRomb a d | .d => .cartDWrRombHi a d },
    { write := true, lo := 0x4000, hi := 0x5FFF, op := fun v a d => match v with
      | .fixed => .cartFWrRom a d | .a => .cartAWrBank2 a d | .b => .cartBWrHi a d
      | .c => .cartCWrRamsel a d | .d => .cartDWrRamb a d },
    { write := true, lo := 0x6000, hi := 0x7FFF, op := fun v a d => match v with
      | .fixed => .cartFWrRom a d | .a => .cartAWrMode a d | .b => .cartBWrHi a d
      | .c => .cartCWrLatch a d | .d => .cartDWr6000 a d },
    { write := true, lo := 0xA000, hi := 0xBFFF, op := fun v a d => match v with
      | .fixed => .cartFWrRam a d | .a => .cartAWrRam a d | .b => .cartBWrRam a d
      | .c => .cartCWrRam a d | .d => .cartDWrRam a d } ]

/-! ## The refusals of R120, each on its own -/

/-- The place of a reason in the table of R120. -/
def refusalRank : RefusalReason → Nat
  | .reservedUnit => 0
  | .reservedOp => 1
  | .reservedBits => 2
  | .unroutedCartAddress => 3
  | .unroutedSurfaceAddress => 4
  | .internalEventAtInterface => 5
  | .noCartridge => 6
  | .unspecifiedVariant => 7
  | .reload => 8

/-- The words of a reason, by R120's table, whatever other reasons apply. -/
def refusalApplies (c : Context) (w : Word) : RefusalReason → Prop
  | .reservedUnit => unitOf w ∈ [0x0, 0x6, 0x7, 0xA, 0xB, 0xC, 0xD, 0xE, 0xF]
  | .reservedOp =>
      (unitOf w ∈ [0x1, 0x4] ∧ opOf w ≠ 0) ∨ (unitOf w ∈ [0x2, 0x3, 0x5] ∧ opOf w ∉ [0, 1])
        ∨ (unitOf w = 0x8 ∧ 9 < opOf w) ∨ (unitOf w = 0x9 ∧ opOf w ∉ [0, 1])
  | .reservedBits =>
      (unitOf w ∈ [0x3, 0x4, 0x8, 0x9] ∧ payloadOf w ≠ 0)
        ∨ (unitOf w ∈ [0x2, 0x5] ∧ opOf w = 0 ∧ dataOf w ≠ 0)
  | .unroutedCartAddress =>
      unitOf w = 0x2 ∧ ((addrOf w).within 0x8000 0x9FFF = true ∨ (addrOf w).within 0xC000 0xFFFF = true)
  | .unroutedSurfaceAddress => unitOf w = 0x5 ∧ (addrOf w).surfaceRange = false
  | .internalEventAtInterface => unitOf w ∈ [0x8, 0x9] ∧ c.inside = false
  | .noCartridge => unitOf w ∈ [0x2, 0x3] ∧ c.variant = none
  | .unspecifiedVariant =>
      unitOf w = 0x2 ∧ c.variant ∈ [some .a, some .c, some .d] ∧ c.acd = .unspecified
  | .reload => unitOf w = 0x4 ∧ c.variant ≠ none

/-! ## R150's loop, as a run -/

/-- The internal event a turn of R150's loop picks, by the mode and LY. -/
def turnEvent (s : State) : Instr :=
  match s.mode with
  | .oam => .ppuTOamVram
  | .vram => .ppuTVramHblank
  | .hblank => if s.line + 1 = 144 then .ppuTHblankVblank else .ppuTHblankOam
  | .vblank => if s.line = 153 then .ppuTVblankOam else .ppuTVblankLine

/-- R150's loop from `s` runs these events and exits in `t`, or stops there on a mark (R400). -/
inductive LoopRun : State → List Instr → State → Prop where
  /-- `if ppu.counter < T: exit loop` -/
  | exit {s : State} (h : s.ppu.counter < threshold s.mode) : LoopRun s [] s
  /-- The counter drops by the threshold and the event runs. -/
  | turn {s u t : State} {events : List Instr} (h : threshold s.mode ≤ s.ppu.counter)
      (run : exec (turnEvent s) (s.setCounter (s.ppu.counter - threshold s.mode)) = .next u)
      (going : u.Running) (rest : LoopRun u events t) : LoopRun s (turnEvent s :: events) t
  /-- The event sets a mark, and the operation ends there. -/
  | stop {s u : State} (h : threshold s.mode ≤ s.ppu.counter)
      (run : exec (turnEvent s) (s.setCounter (s.ppu.counter - threshold s.mode)) = .next u)
      (marked : ¬ u.Running) : LoopRun s [turnEvent s] u

/-- The events of one visible line, and of one whole frame, with the display on (R164). -/
def frameEvents : List Instr :=
  (List.replicate 143 [Instr.ppuTOamVram, .ppuTVramHblank, .ppuTHblankOam]).flatten
    ++ [.ppuTOamVram, .ppuTVramHblank, .ppuTHblankVblank]
    ++ List.replicate 9 .ppuTVblankLine ++ [.ppuTVblankOam]

/-! ## The rasterizer's pseudocode, in the spec's integers (R190 to R211) -/

/-- `WindowActive(x, y)` (R191). -/
def windowActiveSpec (s : State) (x y : Nat) : Bool :=
  testBit (s.io .lcdc) 5 && decide ((s.io .wy).toNat ≤ y) && decide (((s.io .wx).toNat : ℤ) - 7 ≤ (x : ℤ))

/-- The map base and the coordinates of a pixel (R190, R192, R193, R194). -/
def tileCoordSpec (s : State) (x y : Nat) : Nat × ℤ × ℤ :=
  if windowActiveSpec s x y = true then
    (if testBit (s.io .lcdc) 6 = true then 0x9C00 else 0x9800,
      (x : ℤ) - (((s.io .wx).toNat : ℤ) - 7), (y : ℤ) - ((s.io .wy).toNat : ℤ))
  else
    (if testBit (s.io .lcdc) 3 = true then 0x9C00 else 0x9800,
      ((x : ℤ) + ((s.io .scx).toNat : ℤ)) % 256, ((y : ℤ) + ((s.io .scy).toNat : ℤ)) % 256)

/-- `TileDataAddr(idx, sel)` (R196). -/
def tileDataSpec (idx : Byte) (sel : Bool) : ℤ :=
  if sel = true then 0x8000 + 16 * (idx.toNat : ℤ) else 0x8800 + 16 * (idx.toInt + 128)

/-- `ColorId(lo, hi, c)`, or a sprite's raw id at bit `b` (R198, R201). -/
def idSpec (lo hi : Byte) (b : ℤ) : Nat :=
  2 * (if testBit hi b.toNat = true then 1 else 0) + (if testBit lo b.toNat = true then 1 else 0)

/-- `PalMap(P, id)` (R199). -/
def palSpec (p : Byte) (id : Nat) : Shade := BitVec.ofNat 2 (p.toNat / 2 ^ (2 * id) % 4)

/-- `BgWinPixel(x, y)` (R190). -/
def bgWinPixelSpec (s : State) (x y : Nat) : Shade :=
  let place := tileCoordSpec s x y
  let idx := s.memRead ((place.1 : ℤ) + place.2.2 / 8 * 32 + place.2.1 / 8).toNat
  let base := tileDataSpec idx (testBit (s.io .lcdc) 4)
  let row := place.2.2 % 8
  palSpec (s.io .bgp)
    (idSpec (s.memRead (base + 2 * row).toNat) (s.memRead (base + 2 * row + 1).toNat) (7 - place.2.1 % 8))

/-- Statements in order, each run only where none before it set a mark (R15, R400). -/
def inOrder (l : List (State → Result)) (s : State) : Result :=
  l.foldl andThen (.next s)

/-- `RASTER.BGWIN line` (R190). -/
def bgWinSpec (line : Nat) (s : State) : Result :=
  inOrder ((List.range 160).map (fun x s => setPixel x line (bgWinPixelSpec s x line) s)) s

/-- `SpriteHeight()` (R202). -/
def heightSpec (s : State) : ℤ := if testBit (s.io .lcdc) 2 = true then 16 else 8

/-- `SpriteRow(k, h, yflip)` (R204). -/
def spriteRowSpec (k h : ℤ) (yflip : Bool) : ℤ := if yflip = true then h - 1 - k else k

/-- `SpriteRowAddr(tile, r, h)` (R205). -/
def spriteAddrSpec (mask : Bool) (tile : Byte) (r h : ℤ) : ℤ :=
  0x8000 + 16 * ((if h = 16 ∧ mask = true then tile &&& 0xFE#8 else tile).toNat : ℤ) + 2 * r

/-- `SpriteBit(c, xflip)` (R206). -/
def spriteBitSpec (c : Nat) (xflip : Bool) : ℤ := if xflip = true then (c : ℤ) else 7 - (c : ℤ)

/-- The shade `BehindVisible` compares a cell with: `io[BGP] AND 3`, or 0 under `BEHIND_TEST = SHADE0` (R208). -/
def behindShadeSpec (s : State) : Shade :=
  match s.cfg.behindTest with
  | .bgpId0 => (s.io .bgp &&& 3#8).setWidth 2
  | .shade0 => 0

/-- `getPixel(x, y)`, which faults outside the grid, and what follows with its value (R362). -/
def withPixel (x y : Nat) (s : State) (f : Shade → Result) : Result :=
  match s.pixel? x y with
  | some v => f v
  | none => .next (s.raise (.outOfRangePixel x y))

/-- The body of R201's loop over the columns of one entry. -/
def objColumnSpec (line i c : Nat) (s : State) : Result :=
  let e := 0xFE00 + 4 * i
  let h := heightSpec s
  let a := s.memRead (e + 3)
  let k : ℤ := (line : ℤ) - (((s.memRead e).toNat : ℤ) - 16)
  let addr := spriteAddrSpec s.cfg.tallSpriteMaskLsb (s.memRead (e + 2)) (spriteRowSpec k h (testBit a 6)) h
  let id := idSpec (s.memRead addr.toNat) (s.memRead (addr + 1).toNat) (spriteBitSpec c (testBit a 5))
  let x : ℤ := ((s.memRead (e + 1)).toNat : ℤ) - 8 + (c : ℤ)
  if id = 0 then .next s
  else if x < 0 ∨ 159 < x then .next s
  else
    let draw := setPixel x.toNat line (palSpec (if testBit a 4 = true then s.io .obp1 else s.io .obp0) id) s
    if testBit a 7 = true then
      withPixel x.toNat line s (fun v => if v = behindShadeSpec s then draw else .next s)
    else draw

/-- The body of R201's loop over the entries: the span test, then the eight columns. -/
def objEntrySpec (line i : Nat) (s : State) : Result :=
  let top : ℤ := ((s.memRead (0xFE00 + 4 * i)).toNat : ℤ) - 16
  if top ≤ (line : ℤ) ∧ (line : ℤ) < top + heightSpec s then
    inOrder ((List.range 8).map (objColumnSpec line i)) s
  else .next s

/-- `RASTER.OBJ line`: entries 39 down to 0 (R201). -/
def objSpec (line : Nat) (s : State) : Result :=
  inOrder ((List.range 40).reverse.map (objEntrySpec line)) s

/-! ## R350's loop, as a run -/

/-- `done <- done + c`, `c` being what the step returned (R350). -/
def State.countStep (s : State) : State :=
  { s with orch := { s.orch with cyclesDone := s.orch.cyclesDone + s.orch.stepCycles } }

/-- R350's loop from `s` runs this many steps and exits in `t`, or stops there on a mark. -/
inductive TickRun (target : ℚ) : State → Nat → State → Prop where
  /-- `while done < target` fails. -/
  | exit {s : State} (h : target ≤ (s.orch.cyclesDone : ℚ)) : TickRun target s 0 s
  /-- One step, and the cycles it returned are counted. -/
  | turn {s u t : State} {n : Nat} (h : (s.orch.cyclesDone : ℚ) < target)
      (run : exec .orchStep s = .next u) (going : u.Running)
      (rest : TickRun target u.countStep n t) : TickRun target s (n + 1) t
  /-- A step sets a mark, and the tick ends there. -/
  | stop {s u : State} (h : (s.orch.cyclesDone : ℚ) < target)
      (run : exec .orchStep s = .next u) (marked : ¬ u.Running) : TickRun target s 1 u

/-! ## Calls of the PPU one after another (R166), and the frame's clock (R164) -/

/-- These `PPU.ADVANCE` calls with the display on, one after another, and the transitions they run. -/
inductive AdvancesRun : State → List Payload → List Instr → State → Prop where
  | done {s : State} : AdvancesRun s [] [] s
  | call {s u v t : State} {n : Payload} {ns : List Payload} {events later : List Instr}
      (on : lcdOn (s.io .lcdc) = true) (loop : LoopRun (s.setCounter (s.ppu.counter + n.toNat)) events u)
      (run : exec (.ppuAdvance n) s = .next v) (going : v.Running)
      (rest : AdvancesRun v ns later t) : AdvancesRun s (n :: ns) (events ++ later) t

/-- Mode, scanline and counter `n` cycles after OAM of scanline 0 began, `n ≤ 70224` (R164). -/
def frameClock (n : Nat) : Mode × Nat × Nat :=
  if n < 65664 then
    if n % 456 < 80 then (.oam, n / 456, n % 456)
    else if n % 456 < 252 then (.vram, n / 456, n % 456 - 80)
    else (.hblank, n / 456, n % 456 - 252)
  else if n < 70224 then (.vblank, 144 + (n - 65664) / 456, (n - 65664) % 456)
  else (.oam, 0, n - 70224)

/-- The row `y` that the two passes draw from `s` (R190, R201), where they complete. -/
def RowDrawn (s : State) (y : Nat) (row : Row) : Prop :=
  ∃ t, inOrder [bgWinSpec y, objSpec y] s = .next t ∧ t.Running ∧ t.fb[y]? = some row

/-! ## Overlapping sprites (R207, R208, R211) -/

/-- The opaque pixel entry `i` has at screen column `x` of scanline `line`: its shade, and whether it lies
behind the background; none where the entry does not cover the cell or its raw id there is 0 (R203 to R209). -/
def spriteAtSpec (s : State) (line i x : Nat) : Option (Shade × Bool) :=
  let e := 0xFE00 + 4 * i
  let h := heightSpec s
  let a := s.memRead (e + 3)
  let k : ℤ := (line : ℤ) - (((s.memRead e).toNat : ℤ) - 16)
  let c : ℤ := (x : ℤ) - (((s.memRead (e + 1)).toNat : ℤ) - 8)
  let addr := spriteAddrSpec s.cfg.tallSpriteMaskLsb (s.memRead (e + 2)) (spriteRowSpec k h (testBit a 6)) h
  let id := idSpec (s.memRead addr.toNat) (s.memRead (addr + 1).toNat) (spriteBitSpec c.toNat (testBit a 5))
  if 0 ≤ k ∧ k < h ∧ 0 ≤ c ∧ c < 8 ∧ id ≠ 0 then
    some (palSpec (if testBit a 4 = true then s.io .obp1 else s.io .obp0) id, testBit a 7)
  else none

/-! ## The cartridge as the load leaves it (R242, R250, R290, R291, R300, R310) -/

/-- R242's table: first and last header byte of each variant. -/
def headerTable : List (Nat × Nat × Variant) :=
  [(0x00, 0x00, .fixed), (0x01, 0x03, .a), (0x05, 0x06, .b), (0x0F, 0x13, .c), (0x19, 0x1B, .d)]

/-- `DeclaredSize` and `SizeOk` (R243). -/
def SizeDeclared (img : Image) : Prop :=
  img.size % 0x4000 = 0 ∧ (img.byte 0x148).toNat ≤ 8 ∧ 0x8000 * 2 ^ (img.byte 0x148).toNat ≤ img.size

/-- `ramSize` by the byte at 0x149 (R290). -/
def ramSizeSpec (img : Image) : Nat :=
  match (img.byte 0x149).toNat with
  | 0x01 => 0x800
  | 0x02 => 0x2000
  | 0x03 => 0x8000
  | 0x04 => 0x20000
  | 0x05 => 0x10000
  | _ => 0

/-- The reset registers of a variant, its RAM holding `CART_RAM_INIT`. -/
def AtLoad (init : Memory) (img : Image) : Variant → Mbc → Prop
  | .fixed, m => m = .fixed
  | .a, m => ∃ ram, m = .a { ramEnable := false, bank1 := 1, bank2 := 0, mode := 0, ram := ram }
      ∧ ∀ i, Cells.read ram i = if i < ramSizeSpec img then Cells.read init i else 0
  | .b, m => ∃ ram, m = .b { ramEnable := false, romBank := 1, ram := ram }
      ∧ ∀ i, Cells.read ram i = if i < 512 then (Cells.read init i).setWidth 4 else 0
  | .c, m => ∃ ram, m = .c { ramEnable := false, romBank := 1, ramSel := 0, ram := ram }
      ∧ ∀ i, Cells.read ram i = if i < ramSizeSpec img then Cells.read init i else 0
  | .d, m => ∃ ram, m = .d { ramEnable := false, romBankLo := 1, romBankHi := 0, ramBank := 0, ram := ram }
      ∧ ∀ i, Cells.read ram i = if i < ramSizeSpec img then Cells.read init i else 0

/-- `RomIndex(b, addr)` (R290), in the spec's operators. -/
def romIndexSpec (img : Image) (b : Nat) (a : Addr) : Nat :=
  b % (img.size / 0x4000) * 0x4000 + (a &&& 0x3FFF#16).toNat

/-- `RamIndex(rb, addr)` (R290), in the spec's operators. -/
def ramIndexSpec (img : Image) (rb : Nat) (a : Addr) : Nat :=
  (rb * 0x2000 + (a &&& 0x1FFF#16).toNat) % ramSizeSpec img

/-- Variants A, C and D: an open RAM gets `d` at `RamIndex`, a closed or absent one keeps its contents (R290). -/
def RamWritten (img : Image) (opened : Prop) (rb : Nat) (a : Addr) (d : Byte) (old new : Memory) : Prop :=
  (opened ∧ ramSizeSpec img ≠ 0 → StoredAt old new (ramIndexSpec img rb a) d)
    ∧ (¬ (opened ∧ ramSizeSpec img ≠ 0) → new = old)

end Sys2Proof.Machine
end

