-- ==== Sys2Proof/Certificates/Slice0/Obligations.lean ====
section
/-! DEFINITION. The statements for the provers.  Each docstring names the rules of spec/ it formalises. -/

open Sys2Proof Sys2Proof.Machine

/-! ## Encoding -/

/-- Words written out from the spec's encodings decode to what they stand for (R112 to R122, vectors of
spec/95). -/
def Obligations.DecodesWrittenWords : Prop :=
  let at_ (v : Option Variant) : Context := { variant := v, acd := .physical, inside := false }
  let within_ : Context := { variant := none, acd := .physical, inside := true }
  decode (at_ none) 0x10FFFFFF#32 = .ok (.ppuAdvance 16777215#24)
    ∧ decode (at_ none) 0x40000000#32 = .ok .cartLoad
    ∧ decode (at_ none) 0x50FF4400#32 = .ok (.envRd 0xFF44#16)
    ∧ decode (at_ none) 0x51FF4105#32 = .ok (.envWrStat 0x05#8)
    ∧ decode (at_ none) 0x51FF4400#32 = .ok (.envWrLy 0x00#8)
    ∧ decode (at_ none) 0x51FF47E4#32 = .ok (.envWr 0xFF47#16 0xE4#8)
    ∧ decode (at_ (some .fixed)) 0x21200005#32 = .ok (.cartFWrRom 0x2000#16 0x05#8)
    ∧ decode (at_ (some .a)) 0x213FFF27#32 = .ok (.cartAWrBank1 0x3FFF#16 0x27#8)
    ∧ decode (at_ (some .b)) 0x21A201FA#32 = .ok (.cartBWrRam 0xA201#16 0xFA#8)
    ∧ decode (at_ (some .c)) 0x20A00000#32 = .ok (.cartCRdRam 0xA000#16)
    ∧ decode (at_ (some .d)) 0x213000FF#32 = .ok (.cartDWrRombHi 0x3000#16 0xFF#8)
    ∧ decode (at_ (some .d)) 0x30000000#32 = .ok .orchTick
    ∧ decode (at_ (some .d)) 0x31000000#32 = .ok .hostCommit
    ∧ decode within_ 0x84000000#32 = .ok .ppuTHblankVblank
    ∧ decode within_ 0x89000000#32 = .ok .rasterObj
    ∧ decode within_ 0x91000000#32 = .ok .orchDispatch

/-- R119: a format-C word names the operation its table gives for `RW`, the address and the variant; the
table's rows do not overlap, and cover both windows. -/
def Obligations.CartridgeOperationSelection : Prop :=
  (∀ (c : Context) (v : Variant) (a : Addr) (d : Byte) (row : SelectionRow),
    c.variant = some v → (v = .a ∨ v = .c ∨ v = .d → c.acd = .physical) →
    row ∈ selectionTable → row.lo ≤ a.toNat → a.toNat ≤ row.hi →
      decode c (if row.write = true then cwrText a d else crdText a) = .ok (row.op v a d))
  ∧ selectionTable.Pairwise (fun r r' => r.write = r'.write → r.hi < r'.lo ∨ r'.hi < r.lo)
  ∧ ∀ (a : Nat) (rw : Bool), (a ≤ 0x7FFF ∨ 0xA000 ≤ a ∧ a ≤ 0xBFFF)
      ↔ ∃ row ∈ selectionTable, row.write = rw ∧ row.lo ≤ a ∧ a ≤ row.hi

/-- The words of formats P, O, L and E as R124 writes them, and the precedence of R121 among the format-E
rows (R112, R114, R115, R116). -/
def Obligations.AssembledWordsDecode : Prop :=
  ∀ (c : Context) (n : Payload) (a : Addr) (d : Byte),
    decode c (advanceText n) = .ok (.ppuAdvance n)
    ∧ (a.surfaceRange = true →
        decode c (envrdText a) = .ok (.envRd a)
        ∧ decode c (envwrText a d) = .ok
            (if a = 0xFF41#16 then .envWrStat d else if a = 0xFF44#16 then .envWrLy d else .envWr a d))
    ∧ (c.variant ≠ none → decode c 0x30000000#32 = .ok .orchTick ∧ decode c 0x31000000#32 = .ok .hostCommit)
    ∧ (c.variant = none → decode c 0x40000000#32 = .ok .cartLoad)

/-- R117: the internal events by their words, legal only where the rule that owns the event produced them. -/
def Obligations.InternalEventWords : Prop :=
  ∀ (c : Context) (w : Word) (i : Instr),
    (w, i) ∈ [(0x80000000#32, Instr.ppuLcdOff), (0x81000000#32, .ppuTOamVram), (0x82000000#32, .ppuTVramHblank),
      (0x83000000#32, .ppuTHblankOam), (0x84000000#32, .ppuTHblankVblank), (0x85000000#32, .ppuTVblankLine),
      (0x86000000#32, .ppuTVblankOam), (0x87000000#32, .ppuLycCheck), (0x88000000#32, .rasterBgwin),
      (0x89000000#32, .rasterObj), (0x90000000#32, .orchStep), (0x91000000#32, .orchDispatch)] →
    encode i = w ∧ i.internal = true
      ∧ decode c w = if c.inside = true then .ok i else .error .internalEventAtInterface

/-- Decoding an encoded well-formed operation gives it back, in every context that admits it. -/
def Obligations.DecodeOfEncode : Prop :=
  ∀ (i : Instr) (c : Context), i.wellFormed = true → c.admits i = true → decode c (encode i) = .ok i

/-- A word that decodes is the word of a well-formed operation the context admits: every bit is read. -/
def Obligations.EncodeOfDecode : Prop :=
  ∀ (c : Context) (w : Word) (i : Instr), decode c w = .ok i →
    i.wellFormed = true ∧ c.admits i = true ∧ encode i = w

/-- R120: a word is refused for the first reason of the table that applies to it, and for none otherwise;
presenting it sets the mark and changes no other state, and no step follows. -/
def Obligations.FirstApplicableRefusal : Prop :=
  (∀ (c : Context) (w : Word) (r : RefusalReason), decode c w = .error r ↔
    refusalApplies c w r ∧ ∀ r', refusalRank r' < refusalRank r → ¬ refusalApplies c w r')
  ∧ ∀ (s : State) (w : Word) (rest : List Input) (r : RefusalReason), s.Running →
      s.port.inbox = .word w :: rest →
      decode { variant := s.cart.map (fun c => c.mbc.variant), acd := s.cfg.variantAcdModel, inside := false } w
        = .error r →
      ∃ t, step s = .next t
        ∧ t = { s with marks := { s.marks with refusal := some r },
                       port := { s.port with inbox := rest, reply := none } }
        ∧ step t = .refused (.stopped r)

/-! ## The step -/

/-- A step takes the first input; a word that decodes runs: `step` is `exec` of the operation on the state
without that input (and without the reply of the word before). -/
def Obligations.StepRunsDecodedInstruction : Prop :=
  ∀ (s : State) (w : Word) (rest : List Input) (i : Instr), s.Running →
    (s.port.inbox = .word w :: rest →
      decode { variant := s.cart.map (fun c => c.mbc.variant), acd := s.cfg.variantAcdModel, inside := false } w
        = .ok i →
      step s = exec i { s with port := { s.port with inbox := rest, reply := none } })
    ∧ (s.port.inbox = .event w :: rest →
      decode { variant := s.cart.map (fun c => c.mbc.variant), acd := s.cfg.variantAcdModel, inside := true } w
        = .ok i →
      step s = exec i { s with port := { s.port with inbox := rest, reply := none } })

/-- No operation that a word names stops: in every state, `exec` of what a word decodes to there answers a
next state. -/
def Obligations.DecodedWordsAnswerNext : Prop :=
  ∀ (s : State) (inside : Bool) (w : Word) (i : Instr),
    decode { variant := s.cart.map (fun c => c.mbc.variant), acd := s.cfg.variantAcdModel, inside := inside } w
      = .ok i → ∃ t, exec i s = .next t

/-- R52: a mark is never cleared, for a machine with a mark takes no step (R120, R400); a machine is
created with neither. -/
def Obligations.MarksStopTheMachine : Prop :=
  (∀ (s : State) (f : FaultMark), s.marks.fault = some f → step s = .fault (.stopped f))
  ∧ (∀ (s : State) (r : RefusalReason), s.marks.fault = none → s.marks.refusal = some r →
      step s = .refused (.stopped r))
  ∧ (∀ s t : State, step s = .next t → s.marks = { fault := none, refusal := none })
  ∧ ∀ cfg init cpu timer latch entry port,
      (State.create cfg init cpu timer latch entry port).marks = { fault := none, refusal := none }

/-- The numeric codes of the faults and of the refusal reasons (R401 to R404). -/
def Obligations.MarkCodes : Prop :=
  (∀ (b : Byte) (n x y : Nat), (FaultMark.unsupportedCartridge b).code = 0x01#8
    ∧ (FaultMark.malformedImage n).code = 0x02#8 ∧ (FaultMark.outOfRangeIndex n).code = 0x03#8
    ∧ (FaultMark.outOfRangePixel x y).code = 0x03#8)
  ∧ [RefusalReason.reservedUnit, .reservedOp, .reservedBits, .unroutedCartAddress, .unroutedSurfaceAddress,
      .internalEventAtInterface, .noCartridge, .reload, .unspecifiedVariant].map refusalCode
    = [0x10#8, 0x11, 0x12, 0x13, 0x14, 0x15, 0x16, 0x17, 0x18]

/-- R361: a key report between two words enters the latch's buffer and changes nothing else; with nothing
presented nothing happens (the model's choice, assumption log 1). -/
def Obligations.KeyReportsAndIdle : Prop :=
  ∀ s : State, s.Running →
    (∀ (k : Nat) (p : Bool) (rest : List Input), s.port.inbox = .key k p :: rest →
      step s = .next { s with ext := { s.ext with keys := s.ext.keys ++ [(k, p)] },
                              port := { s.port with inbox := rest, reply := none } })
    ∧ (s.port.inbox = [] → step s = .next s)

/-! ## Reset and invariants -/

/-- R31: each register stands at its address, and the reset column. -/
def Obligations.RegisterTable : Prop :=
  (∀ x ∈ [(Reg.lcdc, 0xFF40, 0x91#8), (.stat, 0xFF41, 0x02#8), (.scy, 0xFF42, 0x00#8), (.scx, 0xFF43, 0x00#8),
      (.ly, 0xFF44, 0x00#8), (.lyc, 0xFF45, 0x00#8), (.bgp, 0xFF47, 0xFC#8), (.obp0, 0xFF48, 0xFF#8),
      (.obp1, 0xFF49, 0xFF#8), (.wy, 0xFF4A, 0x00#8), (.wx, 0xFF4B, 0x00#8), (.ie, 0xFFFF, 0x00#8),
      (.iflag, 0xFF0F, 0x00#8)],
    (∀ s : State, s.memRead x.2.1 = s.io x.1) ∧ State.reset.io x.1 = x.2.2)
  ∧ ∀ s : State, s.memRead 0xFF00 = s.io .joyp

/-- R442: what creation fixes whatever the OPEN initial contents are, and what those contents are by default. -/
def Obligations.CreationValues : Prop :=
  (∀ cfg init cpu timer latch entry port,
    let s := State.create cfg init cpu timer latch entry port
    s.cfg = cfg ∧ s.surface = init.surface ∧ s.fb = init.fb
      ∧ s.ppu.counter = 0 ∧ s.ppu.frameReady = false ∧ s.cart = none ∧ s.orch.carry = 0
      ∧ s.ext.enable = { pending := false, active := false } ∧ s.marks = { fault := none, refusal := none })
  ∧ State.reset = State.create Config.default Initial.default Answers.none Answers.none Answers.none []
      Port.empty
  ∧ State.reset.mode = .oam
  ∧ (∀ a, regAt a = none → State.reset.memRead a = 0)
  ∧ ∀ x y, x < 160 → y < 144 → State.reset.pixel? x y = some 0

/-- The reset state satisfies the invariant (R162, R441). -/
def Obligations.ResetSatisfiesInvariant : Prop := Inv State.reset

/-- Every step keeps the invariant: `PpuOk` (R162), the canonical form and place of every sparse memory, the
cartridge's bounds (R243, R250, R290, R295, R304), and that the host presents no internal event. -/
def Obligations.StepKeepsInvariant : Prop :=
  ∀ s t : State, Inv s → step s = .next t → Inv t

/-- No operation changes the parameters of R9, nor what the model keeps beside the spec's state: the inputs
still to come and the image held out.  That the parameters are a record of State, and that inputs and
image are fields, is the model's choice (assumption logs 2, 1 and 19). -/
def Obligations.ParametersUnchanged : Prop :=
  ∀ (i : Instr) (s t : State), exec i s = .next t →
    t.cfg = s.cfg ∧ t.port.inbox = s.port.inbox ∧ t.port.loader = s.port.loader

/-- R258: the variant and the image never change once loaded, and the controller changes only through a
cartridge write (a step and a tick make those of the CPU). -/
def Obligations.OneVariantPerCartridge : Prop :=
  ∀ (i : Instr) (s t : State), exec i s = .next t →
    SameCartridge s t
    ∧ (i.wellFormed = true → (∀ v a d, selectWrite v a d ≠ some i) → i ≠ .cartLoad → i ≠ .orchStep →
        i ≠ .orchDispatch → i ≠ .orchTick → t.cart = s.cart)

/-- R53, R140, R240: no operation of the environment or the cartridge changes what only the PPU writes, a
surface operation leaves the cartridge alone and a cartridge operation the surface. -/
def Obligations.EnvironmentPermissions : Prop :=
  ∀ (i : Instr) (s t : State), exec i s = .next t →
    (i.variant ≠ none → PpuUntouched s t ∧ t.surface = s.surface)
    ∧ (i.wellFormed = true → (∃ a, i = .envRd a) ∨ (∃ a d, i = .envWr a d) ∨ (∃ d, i = .envWrStat d)
        ∨ (∃ d, i = .envWrLy d) → PpuUntouched s t ∧ t.cart = s.cart ∧ t.orch = s.orch ∧ t.ext = s.ext)

/-! ## Surface access -/

/-- R13 and R14: the bit helpers, and `requestInterrupt`. -/
def Obligations.BitHelpersAndRequest : Prop :=
  (∀ (v : Byte) (i : Nat), i < 8 →
    (testBit v i = true ↔ v.toNat / 2 ^ i % 2 = 1)
    ∧ setBit v i = v ||| BitVec.ofNat 8 (2 ^ i) ∧ clearBit v i = v &&& ~~~ BitVec.ofNat 8 (2 ^ i))
  ∧ ∀ (s : State) (line : Nat), line ≤ 4 →
      s.requestInterrupt line
        = s.withRegs { s.surface.regs with iflag := setBit s.surface.regs.iflag line }
      ∧ ∀ k, testBit ((s.requestInterrupt line).io .iflag) k
          = (testBit (s.io .iflag) k || decide (k = line))

/-- R141: `ENV.RD` returns the byte the surface holds and changes nothing; outside the surface ranges, or with
data bits set, it is refused. -/
def Obligations.EnvRead : Prop :=
  ∀ (s : State) (a : Addr),
    (a.surfaceRange = true → exec (.envRd a) s = .next (s.replying (s.memRead a.toNat)))
    ∧ (a.surfaceRange = false → exec (.envRd a) s = .next (s.refusedBy .unroutedSurfaceAddress))
    ∧ encode (.envRd a) = envrdText a
    ∧ ∀ (c : Context) (d : Byte), d ≠ 0 → decode c (envrdText a ||| d.setWidth 32) = .error .reservedBits

/-- R142: `ENV.WR` writes one surface byte and nothing else; at 0xFF0F it replaces all of `IF`. -/
def Obligations.EnvWrite : Prop :=
  ∀ (s : State) (a : Addr) (d : Byte), a ≠ 0xFF41#16 → a ≠ 0xFF44#16 →
    (a.surfaceRange = true → ∃ t, exec (.envWr a d) s = .next t
      ∧ t = { s with surface := t.surface }
      ∧ (∀ b, t.memRead b = if b = a.toNat then d else s.memRead b)
      ∧ (∀ r : Reg, t.io r = if a.toNat = r.addr then d else s.io r))
    ∧ (a.surfaceRange = false → exec (.envWr a d) s = .next (s.refusedBy .unroutedSurfaceAddress))
    ∧ encode (.envWr a d) = envwrText a d
    ∧ (a.surfaceRange = true → ∀ c : Context, decode c (envwrText a d) = .ok (.envWr a d))

/-- R143 and R144: a write of `STAT` keeps bits 2..0, a write of `LY` is discarded. -/
def Obligations.EnvWriteStatAndLy : Prop :=
  ∀ (s : State) (d : Byte),
    exec (.envWrStat d) s
      = .next (s.withRegs { s.surface.regs with stat := (d &&& 0xF8#8) ||| (s.surface.regs.stat &&& 0x07#8) })
    ∧ encode (.envWrStat d) = 0x51FF4100#32 ||| d.setWidth 32
    ∧ exec (.envWrLy d) s = .next s
    ∧ encode (.envWrLy d) = 0x51FF4400#32 ||| d.setWidth 32
    ∧ ∀ c : Context, decode c (0x51FF4100#32 ||| d.setWidth 32) = .ok (.envWrStat d)
        ∧ decode c (0x51FF4400#32 ||| d.setWidth 32) = .ok (.envWrLy d)

/-! ## PPU timing -/

/-- R153, R155, R156, R157, R158: the five transitions that draw nothing, exactly. -/
def Obligations.ModeTransitions : Prop :=
  ∀ s : State,
    let g := s.surface.regs
    let entered (g' : Regs) : Regs := if testBit g.stat 5 = true then { g' with iflag := g.iflag ||| 0x02#8 } else g'
    exec .ppuTOamVram s = .next (s.withRegs { g with stat := (g.stat &&& 0xFC#8) ||| 0x03#8 })
    ∧ exec .ppuTHblankOam s
        = .next (s.withRegs (entered { g with ly := g.ly + 1, stat := (g.stat &&& 0xFC#8) ||| 0x02#8 }))
    ∧ exec .ppuTHblankVblank s
        = .next { s.withRegs { g with ly := 144#8, stat := (g.stat &&& 0xFC#8) ||| 0x01#8,
                                      iflag := g.iflag ||| 0x01#8 }
                  with ppu := { s.ppu with frameReady := true } }
    ∧ exec .ppuTVblankLine s = .next (s.withRegs { g with ly := g.ly + 1 })
    ∧ exec .ppuTVblankOam s
        = .next (s.withRegs (entered { g with ly := 0#8, stat := (g.stat &&& 0xFC#8) ||| 0x02#8 }))
    ∧ [Instr.ppuTOamVram, .ppuTHblankOam, .ppuTHblankVblank, .ppuTVblankLine, .ppuTVblankOam].map encode
        = [0x81000000#32, 0x83000000#32, 0x84000000#32, 0x85000000#32, 0x86000000#32]

/-- R159 and R160: display off, which `PPU.ADVANCE` runs while `LCDC[7] = 0`, and the coincidence check with
its request on a newly set bit, which ends every `PPU.ADVANCE`. -/
def Obligations.DisplayOffAndCoincidence : Prop :=
  ∀ s : State,
    let g := s.surface.regs
    exec .ppuLcdOff s = .next { s.withRegs { g with ly := 0#8, stat := g.stat &&& 0xFC#8 }
                                with ppu := { s.ppu with counter := 0 } }
    ∧ (g.ly ≠ g.lyc → exec .ppuLycCheck s = .next (s.withRegs { g with stat := g.stat &&& 0xFB#8 }))
    ∧ (g.ly = g.lyc → testBit g.stat 2 = false ∧ testBit g.stat 6 = true →
        exec .ppuLycCheck s
          = .next (s.withRegs { g with stat := g.stat ||| 0x04#8, iflag := g.iflag ||| 0x02#8 }))
    ∧ (g.ly = g.lyc → ¬ (testBit g.stat 2 = false ∧ testBit g.stat 6 = true) →
        exec .ppuLycCheck s = .next (s.withRegs { g with stat := g.stat ||| 0x04#8 }))
    ∧ encode .ppuLcdOff = 0x80000000#32 ∧ encode .ppuLycCheck = 0x87000000#32
    ∧ ∀ n : Payload, s.Running →
        (lcdOn (s.io .lcdc) = false → exec (.ppuAdvance n) s = inOrder [exec .ppuLcdOff, exec .ppuLycCheck] s)
        ∧ ∀ t, exec (.ppuAdvance n) s = .next t → t.Running →
            testBit (t.io .stat) 2 = decide (t.io .ly = t.io .lyc)

/-- R154: both passes in order, then the mode, then the request; where the row does not exist the first
call of the sink faults and nothing is written (R213). -/
def Obligations.VramToHblank : Prop :=
  ∀ s : State, s.Running →
    exec .ppuTVramHblank s = inOrder
      [ fun u => bgWinSpec u.line u,
        fun u => objSpec u.line u,
        fun u => .next (u.withRegs { u.surface.regs with stat := u.surface.regs.stat &&& 0xFC#8 }),
        fun u => .next (if testBit (u.io .stat) 3 = true
          then u.withRegs { u.surface.regs with iflag := u.surface.regs.iflag ||| 0x02#8 } else u) ] s
    ∧ (s.line < 144 → ∃ t, exec .ppuTVramHblank s = .next t
        ∧ t = { s.withRegs { s.surface.regs with
                  stat := s.surface.regs.stat &&& 0xFC#8,
                  iflag := if testBit (s.io .stat) 3 = true then s.surface.regs.iflag ||| 0x02#8
                    else s.surface.regs.iflag }
                with fb := t.fb }
        ∧ (∀ row, RowDrawn s s.line row → t.fb[s.line]? = some row)
        ∧ ∀ x y, y ≠ s.line → t.pixel? x y = s.pixel? x y)
    ∧ (144 ≤ s.line → exec .ppuTVramHblank s = .next (s.faulted (.outOfRangePixel 0 s.line)))
    ∧ encode .ppuTVramHblank = 0x82000000#32

/-- R150, R151, R161: with the display on, `PPU.ADVANCE` adds the cycles to the counter, runs the transitions
the loop picks in order, and then the coincidence check; with it off, `PPU.LCD_OFF` and the check. -/
def Obligations.AdvanceRunsTheLoop : Prop :=
  (∀ (s : State) (n : Payload), s.Running →
    (lcdOn (s.io .lcdc) = true → ∃ events u,
      LoopRun (s.setCounter (s.ppu.counter + n.toNat)) events u
      ∧ (u.Running → exec (.ppuAdvance n) s = exec .ppuLycCheck u)
      ∧ (¬ u.Running → exec (.ppuAdvance n) s = .next u))
    ∧ (lcdOn (s.io .lcdc) = false → exec (.ppuAdvance n) s = inOrder [exec .ppuLcdOff, exec .ppuLycCheck] s)
    ∧ encode (.ppuAdvance n) = advanceText n)
  ∧ (∀ v : Byte, lcdOn v = true ↔ v.toNat / 2 ^ 7 % 2 = 1)
  ∧ threshold .oam = 80 ∧ threshold .vram = 172 ∧ threshold .hblank = 204 ∧ threshold .vblank = 456

/-- R162: `PPU.ADVANCE` from a state that satisfies `PpuOk` completes, faults on nothing, and leaves a state
that satisfies it; and every transition of the loop keeps mode and scanline in agreement (R152). -/
def Obligations.AdvanceKeepsPpuOk : Prop :=
  (∀ (s : State) (n : Payload), s.Running → PpuOk s →
    ∃ t, exec (.ppuAdvance n) s = .next t ∧ t.Running ∧ PpuOk t)
  ∧ ∀ s : State, s.Running → PpuLines s →
      ∃ t, exec (turnEvent s) s = .next t ∧ t.Running ∧ PpuLines t

/-- R53, R85: what the operations of the PPU can change, and that they only set bits 0 and 1 of `IF`. -/
def Obligations.PpuFootprint : Prop :=
  ∀ (i : Instr) (s t : State),
    ((∃ n, i = .ppuAdvance n) ∨ i ∈ [Instr.ppuLcdOff, .ppuTOamVram, .ppuTVramHblank, .ppuTHblankOam,
      .ppuTHblankVblank, .ppuTVblankLine, .ppuTVblankOam, .ppuLycCheck, .rasterBgwin, .rasterObj]) →
    exec i s = .next t →
    t = { s with
          surface := { s.surface with
            regs := { s.surface.regs with stat := t.io .stat, ly := t.io .ly, iflag := t.io .iflag } },
          ppu := t.ppu, fb := t.fb, marks := { s.marks with fault := t.marks.fault } }
    ∧ (∀ k, 3 ≤ k → testBit (t.io .stat) k = testBit (s.io .stat) k)
    ∧ (∀ k, 2 ≤ k → testBit (t.io .iflag) k = testBit (s.io .iflag) k)
    ∧ ∀ k, testBit (s.io .iflag) k = true → testBit (t.io .iflag) k = true

/-- R166: two ways of splitting the same cycles into calls run the same transitions in the same order and
end in the same state, but for the coincidence bit and its request. -/
def Obligations.CadenceLaw : Prop :=
  ∀ (s t u : State) (ns ms : List Payload) (events events' : List Instr), s.Running → PpuOk s →
    AdvancesRun s ns events t → AdvancesRun s ms events' u →
    (ns.map BitVec.toNat).sum = (ms.map BitVec.toNat).sum →
    events = events'
    ∧ t.line = u.line ∧ t.mode = u.mode ∧ t.ppu = u.ppu ∧ t.fb = u.fb
    ∧ (∀ k, k ≠ 1 → testBit (t.io .iflag) k = testBit (u.io .iflag) k)
    ∧ (testBit (s.io .stat) 6 = false → t.io .iflag = u.io .iflag)
    ∧ ∀ k, k ≠ 2 → testBit (t.io .stat) k = testBit (u.io .stat) k

/-- R164: the frame's clock, one VBLANK request at 65664, and every row drawn once. -/
def Obligations.FrameTiming : Prop :=
  ∀ s : State, s.Running → lcdOn (s.io .lcdc) = true → s.mode = .oam → s.line = 0 → s.ppu.counter = 0 →
    (∀ n : Payload, n.toNat ≤ 70224 → ∃ t, exec (.ppuAdvance n) s = .next t ∧ t.Running
      ∧ (t.mode, t.line, t.ppu.counter) = frameClock n.toNat
      ∧ (n.toNat < 65664 → t.ppu.frameReady = s.ppu.frameReady
          ∧ testBit (t.io .iflag) 0 = testBit (s.io .iflag) 0)
      ∧ (65664 ≤ n.toNat → t.ppu.frameReady = true ∧ testBit (t.io .iflag) 0 = true)
      ∧ ∀ y row, y < 144 → RowDrawn s y row →
          t.fb[y]? = if 456 * y + 252 ≤ n.toNat then some row else s.fb[y]?)
    ∧ (∃ u, LoopRun (s.setCounter 70224) frameEvents u)
    ∧ frameEvents.count .ppuTHblankVblank = 1 ∧ frameEvents.count .ppuTVramHblank = 144

/-- R165: after the display is enabled again, from the state `PPU.LCD_OFF` left, the frame runs 252 cycles
ahead of R164's clock, row 0 is not drawn, and VBLANK is requested at 65412 and not before. -/
def Obligations.DisplayReenable : Prop :=
  ∀ (s : State) (n : Payload), s.Running → lcdOn (s.io .lcdc) = true → s.mode = .hblank → s.line = 0 →
    s.ppu.counter = 0 → n.toNat ≤ 65412 →
    ∃ t, exec (.ppuAdvance n) s = .next t ∧ t.Running
      ∧ (t.mode, t.line, t.ppu.counter) = frameClock (n.toNat + 252)
      ∧ t.fb[0]? = s.fb[0]?
      ∧ (n.toNat < 65412 → t.ppu.frameReady = s.ppu.frameReady
          ∧ testBit (t.io .iflag) 0 = testBit (s.io .iflag) 0)
      ∧ (n.toNat = 65412 → t.ppu.frameReady = true ∧ testBit (t.io .iflag) 0 = true)
      ∧ ∀ y row, 1 ≤ y → y < 144 → RowDrawn s y row →
          t.fb[y]? = if 456 * y ≤ n.toNat then some row else s.fb[y]?

/-! ## Rasterizer -/

/-- R190 to R199: the background/window pass is the spec's loop over `setPixel`; on an existing row it
completes, every cell of the row holds `BgWinPixel`, and nothing else changes (R213 for the others). -/
def Obligations.BackgroundWindowPass : Prop :=
  ∀ s : State, s.Running →
    exec .rasterBgwin s = bgWinSpec s.line s
    ∧ (s.line < 144 → ∃ t, exec .rasterBgwin s = .next t ∧ t = { s with fb := t.fb }
        ∧ ∀ x y, t.pixel? x y
            = if y = s.line ∧ x < 160 then some (bgWinPixelSpec s x y) else s.pixel? x y)
    ∧ (144 ≤ s.line → exec .rasterBgwin s = .next (s.faulted (.outOfRangePixel 0 s.line)))
    ∧ encode .rasterBgwin = 0x88000000#32

/-- R201 to R210: the sprite pass is the spec's loop over the entries, 39 first, and their columns; on an
existing row it completes and changes no other row, and nothing but the frame buffer. -/
def Obligations.SpritePass : Prop :=
  ∀ s : State, s.Running →
    exec .rasterObj s = objSpec s.line s
    ∧ (s.line < 144 → ∃ t, exec .rasterObj s = .next t ∧ t = { s with fb := t.fb }
        ∧ ∀ x y, y ≠ s.line → t.pixel? x y = s.pixel? x y)
    ∧ encode .rasterObj = 0x89000000#32

/-- R207, R208, R211: a cell no opaque sprite pixel covers keeps its value; where the lowest-index opaque
pixel lies above the background it stays; a lone pixel behind the background is drawn only on the shade
`BehindVisible` lets through. -/
def Obligations.SpritePriority : Prop :=
  ∀ (s t : State) (x : Nat), s.Running → s.line < 144 → x < 160 → exec .rasterObj s = .next t →
    ((∀ i < 40, spriteAtSpec s s.line i x = none) → t.pixel? x s.line = s.pixel? x s.line)
    ∧ (∀ i v, i < 40 → spriteAtSpec s s.line i x = some (v, false) →
        (∀ j < i, spriteAtSpec s s.line j x = none) → t.pixel? x s.line = some v)
    ∧ (∀ i v, i < 40 → spriteAtSpec s s.line i x = some (v, true) →
        (∀ j < 40, j ≠ i → spriteAtSpec s s.line j x = none) →
        t.pixel? x s.line
          = if s.pixel? x s.line = some (behindShadeSpec s) then some v else s.pixel? x s.line)

/-! ## Cartridge -/

/-- R241 to R243: the loader's checks in their order, and the reset registers of the variant the header
names; a second load is refused (R120). -/
def Obligations.CartridgeLoad : Prop :=
  ∀ s : State,
    let img := s.port.loader
    let t := img.byte 0x147
    (s.cart = none → img.size < 0x150 → exec .cartLoad s = .next (s.faulted (.malformedImage img.size)))
    ∧ (s.cart = none → 0x150 ≤ img.size →
        (∀ row ∈ headerTable, ¬ (row.1 ≤ t.toNat ∧ t.toNat ≤ row.2.1)) →
        exec .cartLoad s = .next (s.faulted (.unsupportedCartridge t)))
    ∧ (s.cart = none → 0x150 ≤ img.size → ∀ row ∈ headerTable, row.1 ≤ t.toNat → t.toNat ≤ row.2.1 →
        (¬ SizeDeclared img → exec .cartLoad s = .next (s.faulted (.malformedImage img.size)))
        ∧ (SizeDeclared img → Memory.wf s.cfg.cartRamInit = true →
            ∃ m, exec .cartLoad s = .next { s with cart := some { img := img, mbc := m } }
              ∧ m.variant = row.2.2 ∧ AtLoad s.cfg.cartRamInit img row.2.2 m))
    ∧ (s.cart ≠ none → exec .cartLoad s = .next (s.refusedBy .reload))
    ∧ encode .cartLoad = 0x40000000#32

/-- R245 to R249: the fixed mapping. -/
def Obligations.FixedMapping : Prop :=
  ∀ (s : State) (img : Image) (a : Addr) (d : Byte),
    s.cart = some { img := img, mbc := .fixed } → 0x8000 ≤ img.size →
    (a.within 0x0000 0x3FFF = true → exec (.cartFRdRom0 a) s = .next (s.replying (img.byte a.toNat))
      ∧ encode (.cartFRdRom0 a) = crdText a)
    ∧ (a.within 0x4000 0x7FFF = true → exec (.cartFRdRomx a) s = .next (s.replying (img.byte a.toNat))
      ∧ encode (.cartFRdRomx a) = crdText a)
    ∧ (a.within 0x0000 0x7FFF = true → exec (.cartFWrRom a d) s = .next s
      ∧ encode (.cartFWrRom a d) = cwrText a d)
    ∧ (a.within 0xA000 0xBFFF = true → exec (.cartFRdRam a) s = .next (s.replying 0xFF)
      ∧ encode (.cartFRdRam a) = crdText a
      ∧ exec (.cartFWrRam a d) s = .next s ∧ encode (.cartFWrRam a d) = cwrText a d)

/-- R251, R252, R256: the reads of variant B. -/
def Obligations.VariantBReads : Prop :=
  ∀ (s : State) (img : Image) (m : MbcB) (a : Addr),
    s.cart = some { img := img, mbc := .b m } → 0x8000 ≤ img.size →
    let i := m.romBank.toNat * 0x4000 + (a &&& 0x3FFF#16).toNat
    (a.within 0x0000 0x3FFF = true → exec (.cartBRdRom0 a) s = .next (s.replying (img.byte a.toNat))
      ∧ encode (.cartBRdRom0 a) = crdText a)
    ∧ (a.within 0x4000 0x7FFF = true →
        (i < img.size → exec (.cartBRdRomx a) s = .next (s.replying (img.byte i)))
        ∧ (img.size ≤ i → exec (.cartBRdRomx a) s = .next (s.faulted (.outOfRangeIndex i)))
        ∧ encode (.cartBRdRomx a) = crdText a)
    ∧ (a.within 0xA000 0xBFFF = true →
        (m.ramEnable = false → exec (.cartBRdRam a) s = .next (s.replying 0xFF))
        ∧ (m.ramEnable = true → exec (.cartBRdRam a) s
            = .next (s.replying (0#4 ++ Cells.read m.ram (a &&& 0x01FF#16).toNat)))
        ∧ encode (.cartBRdRam a) = crdText a)

/-- R253, R254, R255, R257: the writes of variant B. -/
def Obligations.VariantBWrites : Prop :=
  ∀ (s : State) (img : Image) (m : MbcB) (a : Addr) (d : Byte),
    s.cart = some { img := img, mbc := .b m } →
    (a.within 0x0000 0x1FFF = true →
        (s.cfg.mbc2EnableSelect = .addrBit8 → exec (.cartBWrRamen a d) s = .next (s.withMbc img
          (.b { m with ramEnable := if a.getLsbD 8 = false then !m.ramEnable else m.ramEnable })))
        ∧ (s.cfg.mbc2EnableSelect = .dataBit0 → exec (.cartBWrRamen a d) s = .next (s.withMbc img
          (.b { m with ramEnable := if d.getLsbD 0 = false then !m.ramEnable else m.ramEnable })))
        ∧ encode (.cartBWrRamen a d) = cwrText a d)
    ∧ (a.within 0x2000 0x3FFF = true → exec (.cartBWrRomb a d) s
          = .next (s.withMbc img (.b { m with romBank := (d &&& 0x0F#8).setWidth 4 }))
        ∧ encode (.cartBWrRomb a d) = cwrText a d)
    ∧ (a.within 0x4000 0x7FFF = true → exec (.cartBWrHi a d) s = .next s
        ∧ encode (.cartBWrHi a d) = cwrText a d)
    ∧ (a.within 0xA000 0xBFFF = true → ∃ ram,
        exec (.cartBWrRam a d) s = .next (s.withMbc img (.b { m with ram := ram }))
        ∧ (m.ramEnable = true → StoredAt m.ram ram (a &&& 0x01FF#16).toNat ((d &&& 0x0F#8).setWidth 4))
        ∧ (m.ramEnable = false → ram = m.ram)
        ∧ encode (.cartBWrRam a d) = cwrText a d)

/-- R292, R293, R298, with the indices of R290: the reads of variant A; no ROM read faults. -/
def Obligations.VariantAReads : Prop :=
  ∀ (s : State) (img : Image) (m : MbcA) (a : Addr),
    s.cart = some { img := img, mbc := .a m } → s.cfg.variantAcdModel = .physical → SizeOk img →
    let rb := if m.mode = 1#1 then m.bank2.toNat else 0
    (a.within 0x0000 0x3FFF = true → exec (.cartARdRom0 a) s = .next (s.replying
          (img.byte (romIndexSpec img (if m.mode = 1#1 then m.bank2.toNat <<< 5 else 0) a)))
        ∧ encode (.cartARdRom0 a) = crdText a)
    ∧ (a.within 0x4000 0x7FFF = true → exec (.cartARdRomx a) s = .next (s.replying
          (img.byte (romIndexSpec img ((m.bank2.toNat <<< 5) ||| m.bank1.toNat) a)))
        ∧ encode (.cartARdRomx a) = crdText a)
    ∧ (a.within 0xA000 0xBFFF = true → exec (.cartARdRam a) s = .next (s.replying
          (if m.ramEnable = false ∨ ramSizeSpec img = 0 then 0xFF else Cells.read m.ram (ramIndexSpec img rb a)))
        ∧ encode (.cartARdRam a) = crdText a)

/-- R294 to R297 and R299: the writes of variant A. -/
def Obligations.VariantAWrites : Prop :=
  ∀ (s : State) (img : Image) (m : MbcA) (a : Addr) (d : Byte),
    s.cart = some { img := img, mbc := .a m } → s.cfg.variantAcdModel = .physical →
    let rb := if m.mode = 1#1 then m.bank2.toNat else 0
    (a.within 0x0000 0x1FFF = true → exec (.cartAWrRamen a d) s
          = .next (s.withMbc img (.a { m with ramEnable := decide (d &&& 0x0F#8 = 0x0A#8) }))
        ∧ encode (.cartAWrRamen a d) = cwrText a d)
    ∧ (a.within 0x2000 0x3FFF = true → exec (.cartAWrBank1 a d) s = .next (s.withMbc img (.a { m with
          bank1 := if d &&& 0x1F#8 = 0 then 1#5 else (d &&& 0x1F#8).setWidth 5 }))
        ∧ encode (.cartAWrBank1 a d) = cwrText a d)
    ∧ (a.within 0x4000 0x5FFF = true → exec (.cartAWrBank2 a d) s
          = .next (s.withMbc img (.a { m with bank2 := (d &&& 0x03#8).setWidth 2 }))
        ∧ encode (.cartAWrBank2 a d) = cwrText a d)
    ∧ (a.within 0x6000 0x7FFF = true → exec (.cartAWrMode a d) s
          = .next (s.withMbc img (.a { m with mode := (d &&& 0x01#8).setWidth 1 }))
        ∧ encode (.cartAWrMode a d) = cwrText a d)
    ∧ (a.within 0xA000 0xBFFF = true → ∃ ram,
        exec (.cartAWrRam a d) s = .next (s.withMbc img (.a { m with ram := ram }))
        ∧ RamWritten img (m.ramEnable = true) rb a d m.ram ram ∧ encode (.cartAWrRam a d) = cwrText a d)

/-- R301, R302, R307: the reads of variant C; a selected clock register reads 0xFF. -/
def Obligations.VariantCReads : Prop :=
  ∀ (s : State) (img : Image) (m : MbcC) (a : Addr),
    s.cart = some { img := img, mbc := .c m } → s.cfg.variantAcdModel = .physical → SizeOk img →
    (a.within 0x0000 0x3FFF = true → exec (.cartCRdRom0 a) s = .next (s.replying (img.byte a.toNat))
        ∧ encode (.cartCRdRom0 a) = crdText a)
    ∧ (a.within 0x4000 0x7FFF = true → exec (.cartCRdRomx a) s
          = .next (s.replying (img.byte (romIndexSpec img m.romBank.toNat a)))
        ∧ encode (.cartCRdRomx a) = crdText a)
    ∧ (a.within 0xA000 0xBFFF = true → exec (.cartCRdRam a) s = .next (s.replying
          (if m.ramEnable = false ∨ 3 < m.ramSel.toNat ∨ ramSizeSpec img = 0 then 0xFF
           else Cells.read m.ram (ramIndexSpec img m.ramSel.toNat a)))
        ∧ encode (.cartCRdRam a) = crdText a)

/-- R303 to R306 and R308: the writes of variant C. -/
def Obligations.VariantCWrites : Prop :=
  ∀ (s : State) (img : Image) (m : MbcC) (a : Addr) (d : Byte),
    s.cart = some { img := img, mbc := .c m } → s.cfg.variantAcdModel = .physical →
    (a.within 0x0000 0x1FFF = true → exec (.cartCWrRamen a d) s
          = .next (s.withMbc img (.c { m with ramEnable := decide (d &&& 0x0F#8 = 0x0A#8) }))
        ∧ encode (.cartCWrRamen a d) = cwrText a d)
    ∧ (a.within 0x2000 0x3FFF = true → exec (.cartCWrRomb a d) s = .next (s.withMbc img (.c { m with
          romBank := if d &&& 0x7F#8 = 0 then 1#7 else (d &&& 0x7F#8).setWidth 7 }))
        ∧ encode (.cartCWrRomb a d) = cwrText a d)
    ∧ (a.within 0x4000 0x5FFF = true → exec (.cartCWrRamsel a d) s
          = .next (s.withMbc img (.c { m with ramSel := (d &&& 0x0F#8).setWidth 4 }))
        ∧ encode (.cartCWrRamsel a d) = cwrText a d)
    ∧ (a.within 0x6000 0x7FFF = true → exec (.cartCWrLatch a d) s = .next s
        ∧ encode (.cartCWrLatch a d) = cwrText a d)
    ∧ (a.within 0xA000 0xBFFF = true → ∃ ram,
        exec (.cartCWrRam a d) s = .next (s.withMbc img (.c { m with ram := ram }))
        ∧ RamWritten img (m.ramEnable = true ∧ m.ramSel.toNat ≤ 3) m.ramSel.toNat a d m.ram ram
        ∧ encode (.cartCWrRam a d) = cwrText a d)

/-- R311, R312, R318: the reads of variant D. -/
def Obligations.VariantDReads : Prop :=
  ∀ (s : State) (img : Image) (m : MbcD) (a : Addr),
    s.cart = some { img := img, mbc := .d m } → s.cfg.variantAcdModel = .physical → SizeOk img →
    (a.within 0x0000 0x3FFF = true → exec (.cartDRdRom0 a) s = .next (s.replying (img.byte a.toNat))
        ∧ encode (.cartDRdRom0 a) = crdText a)
    ∧ (a.within 0x4000 0x7FFF = true → exec (.cartDRdRomx a) s = .next (s.replying
          (img.byte (romIndexSpec img ((m.romBankHi.toNat <<< 8) ||| m.romBankLo.toNat) a)))
        ∧ encode (.cartDRdRomx a) = crdText a)
    ∧ (a.within 0xA000 0xBFFF = true → exec (.cartDRdRam a) s = .next (s.replying
          (if m.ramEnable = false ∨ ramSizeSpec img = 0 then 0xFF
           else Cells.read m.ram (ramIndexSpec img m.ramBank.toNat a)))
        ∧ encode (.cartDRdRam a) = crdText a)

/-- R313 to R317 and R319: the writes of variant D. -/
def Obligations.VariantDWrites : Prop :=
  ∀ (s : State) (img : Image) (m : MbcD) (a : Addr) (d : Byte),
    s.cart = some { img := img, mbc := .d m } → s.cfg.variantAcdModel = .physical →
    (a.within 0x0000 0x1FFF = true → exec (.cartDWrRamen a d) s
          = .next (s.withMbc img (.d { m with ramEnable := decide (d &&& 0x0F#8 = 0x0A#8) }))
        ∧ encode (.cartDWrRamen a d) = cwrText a d)
    ∧ (a.within 0x2000 0x2FFF = true → exec (.cartDWrRombLo a d) s
          = .next (s.withMbc img (.d { m with romBankLo := d }))
        ∧ encode (.cartDWrRombLo a d) = cwrText a d)
    ∧ (a.within 0x3000 0x3FFF = true → exec (.cartDWrRombHi a d) s
          = .next (s.withMbc img (.d { m with romBankHi := (d &&& 0x01#8).setWidth 1 }))
        ∧ encode (.cartDWrRombHi a d) = cwrText a d)
    ∧ (a.within 0x4000 0x5FFF = true → exec (.cartDWrRamb a d) s
          = .next (s.withMbc img (.d { m with ramBank := (d &&& 0x0F#8).setWidth 4 }))
        ∧ encode (.cartDWrRamb a d) = cwrText a d)
    ∧ (a.within 0x6000 0x7FFF = true → exec (.cartDWr6000 a d) s = .next s
        ∧ encode (.cartDWr6000 a d) = cwrText a d)
    ∧ (a.within 0xA000 0xBFFF = true → ∃ ram,
        exec (.cartDWrRam a d) s = .next (s.withMbc img (.d { m with ram := ram }))
        ∧ RamWritten img (m.ramEnable = true) m.ramBank.toNat a d m.ram ram
        ∧ encode (.cartDWrRam a d) = cwrText a d)

/-- R88 for cartridge RAM: a read right after a write of an open RAM gives what was written (its low four
bits for variant B). -/
def Obligations.CartridgeRamReadBack : Prop :=
  ∀ (s t : State) (img : Image) (a : Addr) (d : Byte), s.cfg.variantAcdModel = .physical →
    (∀ m, s.cart = some { img := img, mbc := .a m } → m.ramEnable = true → ramSizeSpec img ≠ 0 →
      exec (.cartAWrRam a d) s = .next t → exec (.cartARdRam a) t = .next (t.replying d))
    ∧ (∀ m, s.cart = some { img := img, mbc := .b m } → m.ramEnable = true →
      exec (.cartBWrRam a d) s = .next t → exec (.cartBRdRam a) t = .next (t.replying (d &&& 0x0F#8)))
    ∧ (∀ m, s.cart = some { img := img, mbc := .c m } → m.ramEnable = true → m.ramSel.toNat ≤ 3 →
      ramSizeSpec img ≠ 0 →
      exec (.cartCWrRam a d) s = .next t → exec (.cartCRdRam a) t = .next (t.replying d))
    ∧ (∀ m, s.cart = some { img := img, mbc := .d m } → m.ramEnable = true → ramSizeSpec img ≠ 0 →
      exec (.cartDWrRam a d) s = .next t → exec (.cartDRdRam a) t = .next (t.replying d))

/-! ## Orchestrator -/

/-- R354: the five lines are offered to the CPU in the order 0 to 4, each when its bits of `IE` and `IF` are
both set at its turn, and then the enable latch is updated.  The clause on `DISPATCH_READ = SNAPSHOT`, whose
bits are those at the start, is the model's reading of a value the spec only names (assumption log 30). -/
def Obligations.DispatchScan : Prop :=
  ∀ s : State, s.Running →
    (s.cfg.dispatchRead = .fresh → exec .orchDispatch s = inOrder
      ([0, 1, 2, 3, 4].map (fun line u =>
          if testBit (u.io .ie) line = true ∧ testBit (u.io .iflag) line = true then vectorInterrupt line u
          else .next u)
        ++ [fun u => .next (u.updateDeferredEnableFlag)]) s)
    ∧ (s.cfg.dispatchRead = .snapshot → exec .orchDispatch s = inOrder
      ([0, 1, 2, 3, 4].map (fun line u =>
          if testBit (s.io .ie) line = true ∧ testBit (s.io .iflag) line = true then vectorInterrupt line u
          else .next u)
        ++ [fun u => .next (u.updateDeferredEnableFlag)]) s)
    ∧ encode .orchDispatch = 0x91000000#32
    ∧ ∀ c : Context, c.inside = false → decode c 0x91000000#32 = .error .internalEventAtInterface

/-- The reference contract of R357 and R359, the model's choice (assumption log 13): a line is taken only
while the latch is active; entry clears the master enable and the line's `IF` bit and keeps a pending enable
(assumption log 32), and the CPU's pushes follow, scripted or free (assumption log 4); the update makes a
pending enable active. -/
def Obligations.InterruptEntry : Prop :=
  ∀ (s : State) (line : Nat), line ≤ 4 →
    (s.ext.enable.active = false → vectorInterrupt line s = .next s)
    ∧ (s.ext.enable.active = true → ∀ (a : EntryAct) (rest : List EntryAct), s.ext.entry = a :: rest →
        vectorInterrupt line s = busAccesses (a.writes.map (fun w => .write w.1 w.2))
          { s.withRegs { s.surface.regs with iflag := clearBit s.surface.regs.iflag line }
            with ext := { s.ext with enable := { s.ext.enable with active := false }, entry := rest } })
    ∧ (s.ext.enable.active = true → s.ext.entry = [] →
        vectorInterrupt line s
          = busAccesses ((Config.cpuEntry s.ext.cpu.inner line).1.writes.map (fun w => .write w.1 w.2))
          { s.withRegs { s.surface.regs with iflag := clearBit s.surface.regs.iflag line }
            with ext := { s.ext with enable := { s.ext.enable with active := false },
                                     cpu := { s.ext.cpu with inner := (Config.cpuEntry s.ext.cpu.inner line).2 } } })
    ∧ s.updateDeferredEnableFlag
        = { s with ext := { s.ext with enable :=
              if s.ext.enable.pending = true then { pending := false, active := true } else s.ext.enable } }

/-- R354, R355, R359, R410: with the latch active, the lowest-numbered line both enabled and pending is the
one taken; the later lines find the latch inactive, and the update of the latch follows.  The entry, and that
it keeps a pending enable, is the model's choice (assumption logs 13 and 32). -/
def Obligations.DispatchTakesLowestLine : Prop :=
  ∀ (s : State) (line : Nat) (rest : List EntryAct), s.Running → line ≤ 4 → s.ext.enable.active = true →
    testBit (s.io .ie) line = true → testBit (s.io .iflag) line = true →
    (∀ l < line, ¬ (testBit (s.io .ie) l = true ∧ testBit (s.io .iflag) l = true)) →
    s.ext.entry = { writes := [] } :: rest →
    exec .orchDispatch s = .next
      { s.withRegs { s.surface.regs with iflag := clearBit s.surface.regs.iflag line }
        with ext := { s.ext with enable := { pending := false, active := s.ext.enable.pending },
                                 entry := rest } }

/-- R354, R356: where the latch is inactive, or no line is both enabled and pending, a dispatch only updates
the latch: `IF` keeps its requests, and bits 7..5 are not examined.  Every dispatch completes and leaves the
PPU's fields alone, for a cartridge the CPU can reach.  That an inactive latch takes nothing, and how the
update works, is the reference contract of R357, the model's choice (assumption log 13). -/
def Obligations.DispatchCompletes : Prop :=
  ∀ s : State, s.Running →
    (s.ext.enable.active = false
        ∨ (∀ l ≤ 4, ¬ (testBit (s.io .ie) l = true ∧ testBit (s.io .iflag) l = true)) →
      exec .orchDispatch s = .next { s with ext := { s.ext with enable :=
        if s.ext.enable.pending = true then { pending := false, active := true } else s.ext.enable } })
    ∧ (BusReady s → ∃ t, exec .orchDispatch s = .next t ∧ t.Running ∧ PpuUntouched s t ∧ BusReady t)

/-- R353: the phases (a) to (e) of a step in order; the timer and the PPU receive the count that the CPU's
step returned, and the step returns it (`CpuStepPhase`, `TimerPhase` and `LatchPhase` say what the phases
of the collaborators do).  The PPU's advance is R150's loop and one coincidence check for every count, and
`PPU.ADVANCE` where a word holds the count; that a larger count is one call too is the model's choice
(assumption log 33). -/
def Obligations.StepPhases : Prop :=
  ∀ s : State, s.Running →
    exec .orchStep s = inOrder
      [ fun u => cpuPhase { u with orch := { u.orch with phase := .cpu } },
        fun u => .next (timerPhase u.orch.stepCycles { u with orch := { u.orch with phase := .timer } }),
        fun u => ppuAdvance u.orch.stepCycles { u with orch := { u.orch with phase := .ppu } },
        fun u => .next (latchPhase { u with orch := { u.orch with phase := .latch } }),
        fun u => exec .orchDispatch { u with orch := { u.orch with phase := .dispatch } },
        fun u => .next { u with orch := { u.orch with phase := .idle } } ] s
    ∧ (∀ (c : Nat) (u : State), (timerPhase c u).orch = u.orch)
    ∧ (∀ t, exec .orchStep s = .next t → t.Running →
        ∃ u, cpuPhase { s with orch := { s.orch with phase := .cpu } } = .next u
          ∧ t.orch.stepCycles = u.orch.stepCycles)
    ∧ (∀ (n : Payload) (u : State), ppuAdvance n.toNat u = exec (.ppuAdvance n) u)
    ∧ (∀ (c : Nat) (u : State), u.Running →
        (lcdOn (u.io .lcdc) = true → ∃ events v, LoopRun (u.setCounter (u.ppu.counter + c)) events v
          ∧ ppuAdvance c u = inOrder [exec .ppuLycCheck] v)
        ∧ (lcdOn (u.io .lcdc) = false → ppuAdvance c u = inOrder [exec .ppuLcdOff, exec .ppuLycCheck] u))
    ∧ encode .orchStep = 0x90000000#32
    ∧ ∀ c : Context, c.inside = false → decode c 0x90000000#32 = .error .internalEventAtInterface

/-- A step completes and returns at least one cycle, for every answer of the collaborators, where the
cartridge's reads cannot fault (R353, R358, R364, R365).  The form of those answers, and that no phase is in
progress after a step, is the model's choice (assumption logs 4 and 11). -/
def Obligations.StepCompletes : Prop :=
  ∀ s : State, s.Running → PpuOk s → BusReady s →
    ∃ t, exec .orchStep s = .next t ∧ t.Running ∧ PpuOk t ∧ BusReady t
      ∧ 1 ≤ t.orch.stepCycles ∧ t.orch.phase = .idle
      ∧ t.orch.carry = s.orch.carry ∧ t.orch.cyclesDone = s.orch.cyclesDone

/-- R350 to R352: a tick is R350's loop of steps to the target `CLOCK_HZ / REFRESH_HZ + carry`, at most
`⌈target⌉` of them (R358), and the new carry is exact; without a cartridge it is refused. -/
def Obligations.TickIsTheLoop : Prop :=
  ∀ s : State,
    let target : ℚ := (s.cfg.clockHz : ℚ) / (s.cfg.refreshHz : ℚ) + s.orch.carry
    (s.Running → s.cart ≠ none → ∃ n t,
      TickRun target { s with orch := { s.orch with cyclesDone := 0 } } n t ∧ n ≤ ⌈target⌉.toNat
      ∧ (t.Running → exec .orchTick s
          = .next { t with orch := { t.orch with carry := target - (t.orch.cyclesDone : ℚ) } })
      ∧ (¬ t.Running → exec .orchTick s = .next t))
    ∧ (s.cart = none → exec .orchTick s = .next (s.refusedBy .noCartridge))
    ∧ encode .orchTick = 0x30000000#32

/-- A tick completes with no mark, for every answer of the collaborators, where the cartridge's reads cannot
fault; it keeps `PpuOk`, and the carry is at most 0 and, where the tick ran a step, above minus the last
step's cost (R350, R352, R358, R365). -/
def Obligations.TickCompletes : Prop :=
  ∀ s : State, s.Running → PpuOk s → BusReady s →
    let target : ℚ := (s.cfg.clockHz : ℚ) / (s.cfg.refreshHz : ℚ) + s.orch.carry
    ∃ t, exec .orchTick s = .next t ∧ t.Running ∧ PpuOk t ∧ BusReady t ∧ t.cfg = s.cfg
      ∧ t.orch.carry = target - (t.orch.cyclesDone : ℚ) ∧ t.orch.carry ≤ 0
      ∧ (0 < target → -(t.orch.stepCycles : ℚ) < t.orch.carry)

/-- R363, R362, R48: `HOST.COMMIT` presents the frame through the fixed four colours, leaves it as it is and
clears `frameReady`; without a cartridge it is refused. -/
def Obligations.HostCommit : Prop :=
  (∀ s : State,
    (s.cart ≠ none → exec .hostCommit s = .next
      { s with port := { s.port with shown := some { shades := s.fb, colors := s.cfg.outputColor } },
               ppu := { s.ppu with frameReady := false } })
    ∧ (s.cart = none → exec .hostCommit s = .next (s.refusedBy .noCartridge)))
  ∧ (∀ (s : State) (p : OutputColors) (x y : Nat),
      ({ shades := s.fb, colors := p } : Shown).color? x y
        = (s.pixel? x y).bind (fun v => [p.white, p.lightGray, p.darkGray, p.black][v.toNat]?))
  ∧ encode .hostCommit = 0x31000000#32

/-- R364: the timer writes only its own registers and `IF` bit 2, the latch only `JOYP` and `IF` bit 4, and
no access of the CPU reaches `STAT[2:0]`, `LY`, the PPU, the frame buffer or the carry.  That the timer's
registers are the plain-storage I/O bytes, and that the latch empties its buffer, is the model's choice
(assumption logs 15 and 7). -/
def Obligations.CollaboratorFootprints : Prop :=
  (∀ (c : Nat) (s : State), let t := timerPhase c s
    t = { s with surface := t.surface, ext := { s.ext with timer := t.ext.timer } }
    ∧ (∀ r : Reg, r ≠ .iflag → t.io r = s.io r)
    ∧ (∀ k, k ≠ 2 → testBit (t.io .iflag) k = testBit (s.io .iflag) k)
    ∧ (testBit (s.io .iflag) 2 = true → testBit (t.io .iflag) 2 = true)
    ∧ ∀ a, a < 0xFF00 ∨ 0xFF7F < a → t.memRead a = s.memRead a)
  ∧ (∀ s : State, let t := latchPhase s
    t = { s with surface := t.surface, ext := { s.ext with latch := t.ext.latch, keys := [] } }
    ∧ t.surface.mem = s.surface.mem
    ∧ (∀ r : Reg, r ≠ .iflag → r ≠ .joyp → t.io r = s.io r)
    ∧ (∀ k, k ≠ 4 → testBit (t.io .iflag) k = testBit (s.io .iflag) k)
    ∧ (testBit (s.io .iflag) 4 = true → testBit (t.io .iflag) 4 = true))
  ∧ ∀ (l : List Access) (s t : State), busAccesses l s = .next t →
      PpuUntouched s t ∧ SameCartridge s t ∧ t.orch = s.orch ∧ t.ext = s.ext ∧ t.cfg = s.cfg

/-- R358: an access of the CPU to the surface or the cartridge does what its word of format E or C does: where
the word decodes, the operation, with its mark where it faults (R252, R403); where it is refused (R120), the
refusal mark.  A read gives the CPU the byte its word returns, and on a bus whose reads cannot fault changes
nothing of the block.  The routing by the map of R87, and that an address outside the block is not its concern,
is the model's choice (assumption log 12), and so is that a read of the CPU leaves the interface's reply alone
and gives no byte where it sets a mark (assumption log 10), and that a refused access sets the mark as a word
does (assumption log 25). -/
def Obligations.CpuAccessIsItsWord : Prop :=
  ∀ (s : State) (a : Addr) (d : Byte),
    let c : Context :=
      { variant := s.cart.map (fun c => c.mbc.variant), acd := s.cfg.variantAcdModel, inside := false }
    (a.surfaceRange = true → busAccess (.read a) s = .next s ∧ busByte a s = some (s.memRead a.toNat)
      ∧ busAccess (.write a d) s = exec
          (if a = 0xFF41#16 then .envWrStat d else if a = 0xFF44#16 then .envWrLy d else .envWr a d) s)
    ∧ (a.toNat ≤ 0x7FFF ∨ 0xA000 ≤ a.toNat ∧ a.toNat ≤ 0xBFFF →
        (∀ access w, (access, w) = (Access.read a, crdText a) ∨ (access, w) = (Access.write a d, cwrText a d) →
          (∀ i, decode c w = .ok i → ∃ t, exec i s = .next t
            ∧ busAccess access s = .next { t with port := { t.port with reply := s.port.reply } })
          ∧ ∀ r, decode c w = .error r → busAccess access s = .next (s.refusedBy r))
        ∧ (∀ i t, decode c (crdText a) = .ok i → exec i s = .next t →
            busByte a s = if t.marks = s.marks then t.port.reply else none)
        ∧ (∀ r, decode c (crdText a) = .error r → s.Running → busByte a s = none)
        ∧ (s.cart = none → busAccess (.read a) s = .next (s.refusedBy .noCartridge)
            ∧ busAccess (.write a d) s = .next (s.refusedBy .noCartridge))
        ∧ (∀ k, s.cart = some k → k.mbc.variant ∈ [Variant.a, .c, .d] → s.cfg.variantAcdModel = .unspecified →
            busAccess (.read a) s = .next (s.refusedBy .unspecifiedVariant)
            ∧ busAccess (.write a d) s = .next (s.refusedBy .unspecifiedVariant))
        ∧ (∀ img m, s.cart = some { img := img, mbc := .b m } → a.within 0x4000 0x7FFF = true →
            let i := m.romBank.toNat * 0x4000 + (a &&& 0x3FFF#16).toNat
            img.size ≤ i → busAccess (.read a) s = .next (s.faulted (.outOfRangeIndex i)))
        ∧ (BusReady s → busAccess (.read a) s = .next s
            ∧ (∃ i b, decode c (crdText a) = .ok i ∧ exec i s = .next (s.replying b) ∧ busByte a s = some b)
            ∧ ∃ i, decode c (cwrText a d) = .ok i ∧ busAccess (.write a d) s = exec i s))
    ∧ (a.surfaceRange = false → ¬ (a.toNat ≤ 0x7FFF ∨ 0xA000 ≤ a.toNat ∧ a.toNat ≤ 0xBFFF) →
        busAccess (.read a) s = .next s ∧ busByte a s = none ∧ busAccess (.write a d) s = .next s)

/-! ## The collaborators' phases -/

/-- Phase (a), R358, R357, R412: the accesses of a CPU step take effect in the order the CPU issues them, what
follows a read depending on its byte, before the step returns; the return applies the step's effect on the
enable latch and leaves the count `c ≥ 1` for the phases after it.  That a step is scripted, or else a free
value of the CPU's own state and latch, and the forms of its effect on the latch, are the model's choice
(assumption logs 4 and 14). -/
def Obligations.CpuStepPhase : Prop :=
  (∀ s : State, s.Running →
    (∀ (act : CpuAct) (rest : List CpuAct), s.ext.cpu.scripted = act :: rest →
      let returns : State → Result := fun u => .next (u.cpuReturns
        { cyclesLess1 := act.cyclesLess1, enable := act.enable, inner := s.ext.cpu.inner })
      cpuPhase s = inOrder (act.accesses.map busAccess ++ [returns])
        { s with ext := { s.ext with cpu := { s.ext.cpu with scripted := rest } } })
    ∧ (s.ext.cpu.scripted = [] → cpuPhase s = runPlan (Config.cpuStep s.ext.cpu.inner s.ext.enable) s)
    ∧ (∀ (a : Addr) (d : Byte) (rest : CpuPlan),
        runPlan (.write a d rest) s = inOrder [busAccess (.write a d), runPlan rest] s)
    ∧ ∀ (a : Addr) (rest : Option Byte → CpuPlan),
        runPlan (.read a rest) s = inOrder [busAccess (.read a), runPlan (rest (busByte a s))] s)
  ∧ ∀ (s : State) (d : CpuDone),
      let latch : EnableLatch := match d.enable with
        | .keep => s.ext.enable
        | .enable => { s.ext.enable with pending := true }
        | .returnFromHandler => { s.ext.enable with active := true }
        | .put p a => { pending := p, active := a }
      runPlan (.done d) s = .next { s with
        ext := { s.ext with enable := latch, cpu := { s.ext.cpu with inner := d.inner } }
        orch := { s.orch with stepCycles := d.cyclesLess1 + 1 } }

/-- Phase (b), R360, R364: the writes of the timer's answer to the count `c` land on its own registers, the
last one to a byte standing, and its request sets bit 2 of `IF`; nothing else changes.  That the answer is
scripted, or else a free value of the timer's own state, `c` and the surface, and that its registers are the
plain-storage I/O bytes, is the model's choice (assumption logs 4 and 15). -/
def Obligations.TimerPhase : Prop :=
  ∀ (c : Nat) (s : State),
    let effect (act : TimerAct) (t : State) : Prop :=
      (∀ a : Addr, t.memRead a.toNat =
        if a = 0xFF0F#16 then (if act.request = true then s.io .iflag ||| 0x04#8 else s.io .iflag)
        else if plainIo a.toNat = true then
          (((act.writes.filter (fun w => w.1 == a)).getLast?).map (fun w => w.2)).getD (s.memRead a.toNat)
        else s.memRead a.toNat)
      ∧ t = { s with surface := t.surface, ext := { s.ext with timer := t.ext.timer } }
    (∀ (act : TimerAct) (rest : List TimerAct), s.ext.timer.scripted = act :: rest →
      effect act (timerPhase c s) ∧ (timerPhase c s).ext.timer = { s.ext.timer with scripted := rest })
    ∧ (s.ext.timer.scripted = [] →
      effect (Config.timerAdvance s.ext.timer.inner c s.surface).1 (timerPhase c s)
        ∧ (timerPhase c s).ext.timer
          = { scripted := [], inner := (Config.timerAdvance s.ext.timer.inner c s.surface).2 })

/-- Phase (d), R361, R364: the keys reported since the last read go to the latch, whose answer is the new `JOYP`
byte (or that it stays), and leave the buffer; its request sets bit 4 of `IF`; nothing else changes.  That
the answer is scripted, or else a free value of the latch's own state, the keys and the surface, and that the
buffer is emptied, is the model's choice (assumption logs 4 and 7). -/
def Obligations.LatchPhase : Prop :=
  ∀ s : State,
    let after (act : LatchAct) (latch : Answers LatchAct) : State :=
      { s.withRegs { s.surface.regs with
          joyp := act.joyp.getD s.surface.regs.joyp
          iflag := if act.request = true then s.surface.regs.iflag ||| 0x10#8 else s.surface.regs.iflag }
        with ext := { s.ext with latch := latch, keys := [] } }
    (∀ (act : LatchAct) (rest : List LatchAct), s.ext.latch.scripted = act :: rest →
      latchPhase s = after act { s.ext.latch with scripted := rest })
    ∧ (s.ext.latch.scripted = [] →
      latchPhase s = after (Config.latchAdvance s.ext.latch.inner s.ext.keys s.surface).1
        { scripted := [], inner := (Config.latchAdvance s.ext.latch.inner s.ext.keys s.surface).2 })
end

