-- ==== Sys2Proof/Laws/Cells.lean ====
section
/-! SUPPORT. The laws of sparse data: read after write, canonical form, bounds. -/

namespace Sys2Proof.Machine

@[simp] theorem Cells.read_nil {w : Nat} (a : Nat) : Cells.read ([] : Cells w) a = 0 := rfl

@[simp] theorem Cells.read_cons {w : Nat} (k : Nat) (v : BitVec w) (m : Cells w) (a : Nat) :
    Cells.read ((k, v) :: m) a = if a = k then v else Cells.read m a := rfl

theorem Cells.read_erase_self {w : Nat} (m : Cells w) (a : Nat) : Cells.read (Cells.erase m a) a = 0 := by
  induction m with
  | nil => rfl
  | cons c m ih =>
    obtain ⟨k, v⟩ := c
    by_cases h : k = a
    · simpa [Cells.erase, List.filter_cons, h] using ih
    · have h' : ¬ a = k := fun e => h e.symm
      simpa [Cells.erase, List.filter_cons, h, h'] using ih

theorem Cells.read_erase_of_ne {w : Nat} (m : Cells w) {a b : Nat} (h : b ≠ a) :
    Cells.read (Cells.erase m a) b = Cells.read m b := by
  induction m with
  | nil => rfl
  | cons c m ih =>
    obtain ⟨k, v⟩ := c
    by_cases hk : k = a
    · have hb : ¬ b = k := fun e => h (e.trans hk)
      simpa [Cells.erase, List.filter_cons, hk, hb, h] using ih
    · by_cases hb : b = k
      · simp [Cells.erase, hk, hb]
      · simpa [Cells.erase, List.filter_cons, hk, hb] using ih

theorem Cells.mem_erase {w : Nat} (m : Cells w) (a : Nat) : ∀ c ∈ Cells.erase m a, c.1 ≠ a := by
  intro c hc
  simpa using (List.mem_filter.mp hc).2

theorem Cells.read_insert_self {w : Nat} (a : Nat) (v : BitVec w) (m : Cells w) (h : ∀ c ∈ m, c.1 ≠ a) :
    Cells.read (Cells.insert a v m) a = v := by
  induction m with
  | nil => simp [Cells.insert]
  | cons c m ih =>
    obtain ⟨k, x⟩ := c
    have hk : ¬ a = k := fun e => h (k, x) (by simp) e.symm
    by_cases hlt : a < k
    · simp [Cells.insert, hlt]
    · simpa [Cells.insert, hlt, hk] using ih (fun c hc => h c (by simp [hc]))

theorem Cells.read_insert_of_ne {w : Nat} (a : Nat) (v : BitVec w) (m : Cells w) {b : Nat} (h : b ≠ a) :
    Cells.read (Cells.insert a v m) b = Cells.read m b := by
  induction m with
  | nil => simp [Cells.insert, h]
  | cons c m ih =>
    obtain ⟨k, x⟩ := c
    by_cases hlt : a < k
    · simp [Cells.insert, hlt, h]
    · by_cases hb : b = k
      · simp [Cells.insert, hlt, hb]
      · simpa [Cells.insert, hlt, hb] using ih

/-- A read after a write of the same index gives the value written, whatever the list. -/
@[simp] theorem Cells.read_write_self {w : Nat} (m : Cells w) (a : Nat) (v : BitVec w) :
    Cells.read (Cells.write m a v) a = v := by
  unfold Cells.write
  split
  · rename_i h
    rw [Cells.read_erase_self, h]
  · exact Cells.read_insert_self a v _ (Cells.mem_erase m a)

/-- A write leaves every other index alone, whatever the list. -/
theorem Cells.read_write_of_ne {w : Nat} (m : Cells w) {a b : Nat} (v : BitVec w) (h : b ≠ a) :
    Cells.read (Cells.write m a v) b = Cells.read m b := by
  unfold Cells.write
  split
  · exact Cells.read_erase_of_ne m h
  · rw [Cells.read_insert_of_ne a v _ h, Cells.read_erase_of_ne m h]

/-- Both cases of a read after a write. -/
theorem Cells.read_write {w : Nat} (m : Cells w) (a b : Nat) (v : BitVec w) :
    Cells.read (Cells.write m a v) b = if b = a then v else Cells.read m b := by
  by_cases h : b = a
  · simp [h]
  · simp [h, Cells.read_write_of_ne m v h]

/-! ## The canonical form -/

theorem Cells.wfFrom_mono {w : Nat} {lo lo' : Nat} (h : lo ≤ lo') (m : Cells w)
    (hm : Cells.wfFrom lo' m = true) : Cells.wfFrom lo m = true := by
  cases m with
  | nil => rfl
  | cons c m =>
    obtain ⟨k, v⟩ := c
    simp only [Cells.wfFrom, Bool.and_eq_true, decide_eq_true_eq] at hm ⊢
    exact ⟨⟨h.trans hm.1.1, hm.1.2⟩, hm.2⟩

theorem Cells.wfFrom_erase {w : Nat} (a : Nat) : ∀ (lo : Nat) (m : Cells w),
    Cells.wfFrom lo m = true → Cells.wfFrom lo (Cells.erase m a) = true := by
  intro lo m
  induction m generalizing lo with
  | nil => intro h; exact h
  | cons c m ih =>
    obtain ⟨k, v⟩ := c
    intro h
    simp only [Cells.wfFrom, Bool.and_eq_true, decide_eq_true_eq] at h
    by_cases hk : k = a
    · have : Cells.erase ((k, v) :: m) a = Cells.erase m a := by simp [Cells.erase, hk]
      rw [this]
      exact ih lo (Cells.wfFrom_mono (by omega) m h.2)
    · have : Cells.erase ((k, v) :: m) a = (k, v) :: Cells.erase m a := by simp [Cells.erase, hk]
      rw [this]
      simp only [Cells.wfFrom, Bool.and_eq_true, decide_eq_true_eq]
      exact ⟨h.1, ih (k + 1) h.2⟩

theorem Cells.wfFrom_insert {w : Nat} {a : Nat} {v : BitVec w} (hv : v ≠ 0) : ∀ (lo : Nat) (m : Cells w),
    lo ≤ a → (∀ c ∈ m, c.1 ≠ a) → Cells.wfFrom lo m = true → Cells.wfFrom lo (Cells.insert a v m) = true := by
  intro lo m
  induction m generalizing lo with
  | nil => intro hlo _ _; simpa [Cells.insert, Cells.wfFrom, hlo] using hv
  | cons c m ih =>
    obtain ⟨k, x⟩ := c
    intro hlo hne h
    simp only [Cells.wfFrom, Bool.and_eq_true, decide_eq_true_eq] at h
    have hk : k ≠ a := hne (k, x) (by simp)
    by_cases hlt : a < k
    · simp only [Cells.insert, hlt, if_true, Cells.wfFrom, Bool.and_eq_true, decide_eq_true_eq]
      exact ⟨⟨hlo, hv⟩, ⟨hlt, h.1.2⟩, h.2⟩
    · simp only [Cells.insert, hlt, if_false, Cells.wfFrom, Bool.and_eq_true, decide_eq_true_eq]
      exact ⟨h.1, ih (k + 1) (by omega) (fun c hc => hne c (by simp [hc])) h.2⟩

/-- Every write keeps the canonical form. -/
theorem Cells.wf_write {w : Nat} (m : Cells w) (a : Nat) (v : BitVec w) (h : Cells.wf m = true) :
    Cells.wf (Cells.write m a v) = true := by
  unfold Cells.write
  split
  · exact Cells.wfFrom_erase a 0 m h
  · rename_i hv
    exact Cells.wfFrom_insert hv 0 _ (Nat.zero_le _) (Cells.mem_erase m a) (Cells.wfFrom_erase a 0 m h)

theorem Cells.mem_insert {w : Nat} (a : Nat) (v : BitVec w) (m : Cells w) :
    ∀ c ∈ Cells.insert a v m, c = (a, v) ∨ c ∈ m := by
  induction m with
  | nil => intro c hc; simpa [Cells.insert] using hc
  | cons d m ih =>
    obtain ⟨k, x⟩ := d
    intro c hc
    by_cases hlt : a < k
    · simp only [Cells.insert, hlt, if_true, List.mem_cons] at hc ⊢
      exact hc
    · simp only [Cells.insert, hlt, if_false, List.mem_cons] at hc ⊢
      rcases hc with hc | hc
      · exact .inr (.inl hc)
      · rcases ih c hc with h | h
        · exact .inl h
        · exact .inr (.inr h)

/-- A write inside the bounds keeps the bounds. -/
theorem Cells.inside_write {w : Nat} (m : Cells w) (p : Nat → Bool) (a : Nat) (v : BitVec w)
    (ha : p a = true) (h : Cells.inside m p = true) : Cells.inside (Cells.write m a v) p = true := by
  simp only [Cells.inside, List.all_eq_true] at h ⊢
  intro c hc
  unfold Cells.write at hc
  split at hc
  · exact h c (List.mem_filter.mp hc).1
  · rcases Cells.mem_insert a v _ c hc with rfl | hc
    · exact ha
    · exact h c (List.mem_filter.mp hc).1

/-! ## What a load puts in cartridge RAM -/

theorem Cells.wfFrom_below {w : Nat} (n : Nat) : ∀ (lo : Nat) (m : Cells w),
    Cells.wfFrom lo m = true → Cells.wfFrom lo (Cells.below m n) = true := by
  intro lo m
  induction m generalizing lo with
  | nil => intro h; exact h
  | cons c m ih =>
    obtain ⟨k, v⟩ := c
    intro h
    simp only [Cells.wfFrom, Bool.and_eq_true, decide_eq_true_eq] at h
    by_cases hk : k < n
    · have : Cells.below ((k, v) :: m) n = (k, v) :: Cells.below m n := by simp [Cells.below, hk]
      rw [this]
      simp only [Cells.wfFrom, Bool.and_eq_true, decide_eq_true_eq]
      exact ⟨h.1, ih (k + 1) h.2⟩
    · have : Cells.below ((k, v) :: m) n = Cells.below m n := by simp [Cells.below, hk]
      rw [this]
      exact ih lo (Cells.wfFrom_mono (by omega) m h.2)

/-- A read below the bound is unchanged, a read above it is 0. -/
theorem Cells.read_below {w : Nat} (m : Cells w) (n a : Nat) :
    Cells.read (Cells.below m n) a = if a < n then Cells.read m a else 0 := by
  induction m with
  | nil => simp [Cells.below]
  | cons c m ih =>
    obtain ⟨k, v⟩ := c
    by_cases hk : k < n
    · have : Cells.below ((k, v) :: m) n = (k, v) :: Cells.below m n := by simp [Cells.below, hk]
      rw [this]
      by_cases ha : a = k
      · simp [ha, hk]
      · simp [ha, ih]
    · have : Cells.below ((k, v) :: m) n = Cells.below m n := by simp [Cells.below, hk]
      rw [this, ih]
      by_cases ha : a < n
      · have : ¬ a = k := by omega
        simp [ha, this]
      · simp [ha]

theorem Cells.wf_below {w : Nat} (m : Cells w) (n : Nat) (h : Cells.wf m = true) :
    Cells.wf (Cells.below m n) = true := Cells.wfFrom_below n 0 m h

theorem Cells.inside_below {w : Nat} (m : Cells w) (n : Nat) :
    Cells.inside (Cells.below m n) (fun i => decide (i < n)) = true := by
  simp only [Cells.inside, List.all_eq_true]
  intro c hc
  exact (List.mem_filter.mp hc).2

theorem Cells.wfFrom_lowNibbles : ∀ (lo : Nat) (m : Cells 8),
    Cells.wfFrom lo m = true → Cells.wfFrom lo (Cells.lowNibbles m) = true := by
  intro lo m
  induction m generalizing lo with
  | nil => intro h; exact h
  | cons c m ih =>
    obtain ⟨k, v⟩ := c
    intro h
    simp only [Cells.wfFrom, Bool.and_eq_true, decide_eq_true_eq] at h
    by_cases hv : v.setWidth 4 = 0
    · simp only [Cells.lowNibbles, hv, if_true]
      exact ih lo (Cells.wfFrom_mono (by omega) m h.2)
    · simp only [Cells.lowNibbles, hv, if_false, Cells.wfFrom, Bool.and_eq_true, decide_eq_true_eq]
      exact ⟨⟨h.1.1, hv⟩, ih (k + 1) h.2⟩

theorem Cells.wf_lowNibbles (m : Cells 8) (h : Cells.wf m = true) : Cells.wf (Cells.lowNibbles m) = true :=
  Cells.wfFrom_lowNibbles 0 m h

theorem Cells.inside_lowNibbles (m : Cells 8) (p : Nat → Bool) (h : Cells.inside m p = true) :
    Cells.inside (Cells.lowNibbles m) p = true := by
  induction m with
  | nil => rfl
  | cons c m ih =>
    obtain ⟨k, v⟩ := c
    simp only [Cells.inside, List.all_cons, Bool.and_eq_true] at h
    by_cases hv : v.setWidth 4 = 0
    · simp only [Cells.lowNibbles, hv, if_true]
      exact ih h.2
    · simp only [Cells.lowNibbles, hv, if_false, Cells.inside, List.all_cons, Bool.and_eq_true]
      exact ⟨h.1, ih h.2⟩

theorem Cells.read_of_wfFrom {w : Nat} : ∀ (lo : Nat) (m : Cells w) (a : Nat), Cells.wfFrom lo m = true → a < lo →
    Cells.read m a = 0 := by
  intro lo m
  induction m generalizing lo with
  | nil => intros; rfl
  | cons c m ih =>
    obtain ⟨k, v⟩ := c
    intro a h ha
    simp only [Cells.wfFrom, Bool.and_eq_true, decide_eq_true_eq] at h
    rw [Cells.read_cons, if_neg (by omega)]
    exact ih (k + 1) a h.2 (by omega)

/-- Variant B keeps the low four bits of each byte of `CART_RAM_INIT` (R250). -/
theorem Cells.read_lowNibbles (m : Cells 8) (h : Cells.wf m = true) (a : Nat) :
    Cells.read (Cells.lowNibbles m) a = (Cells.read m a).setWidth 4 := by
  unfold Cells.wf at h
  generalize 0 = lo at h
  induction m generalizing lo with
  | nil => rfl
  | cons c m ih =>
    obtain ⟨k, v⟩ := c
    simp only [Cells.wfFrom, Bool.and_eq_true, decide_eq_true_eq] at h
    by_cases hv : v.setWidth 4 = 0
    · simp only [Cells.lowNibbles, hv, if_true, Cells.read_cons]
      rw [ih (k + 1) h.2]
      by_cases ha : a = k
      · rw [if_pos ha, Cells.read_of_wfFrom (k + 1) m a h.2 (by omega), hv]
        rfl
      · rw [if_neg ha]
    · simp only [Cells.lowNibbles, hv, if_false, Cells.read_cons]
      by_cases ha : a = k
      · simp [ha]
      · rw [if_neg ha, if_neg ha, ih (k + 1) h.2]

end Sys2Proof.Machine
end

