-- ==== Sys2Proof/Laws/State.lean ====
section
/-! SUPPORT. One lemma per field per update of a state, so that no later proof unfolds a record update. -/

namespace Sys2Proof.Machine

/-! ## Registers -/

/-- A register read after a register write. -/
theorem Regs.get_set (g : Regs) (r r' : Reg) (v : Byte) :
    (g.set r v).get r' = if r' = r then v else g.get r' := by
  cases r <;> cases r' <;> rfl

/-- `io` after `setIo`. -/
@[simp] theorem State.io_setIo (s : State) (r r' : Reg) (v : Byte) :
    (s.setIo r v).io r' = if r' = r then v else s.io r' := Regs.get_set _ _ _ _

@[simp] theorem State.mem_setIo (s : State) (r : Reg) (v : Byte) :
    (s.setIo r v).surface.mem = s.surface.mem := rfl

/-! ## `setIo` -/

@[simp] theorem State.cfg_setIo (s : State) (r : Reg) (v : Byte) : (s.setIo r v).cfg = s.cfg := rfl

@[simp] theorem State.ppu_setIo (s : State) (r : Reg) (v : Byte) : (s.setIo r v).ppu = s.ppu := rfl

@[simp] theorem State.cart_setIo (s : State) (r : Reg) (v : Byte) : (s.setIo r v).cart = s.cart := rfl

@[simp] theorem State.orch_setIo (s : State) (r : Reg) (v : Byte) : (s.setIo r v).orch = s.orch := rfl

@[simp] theorem State.fb_setIo (s : State) (r : Reg) (v : Byte) : (s.setIo r v).fb = s.fb := rfl

@[simp] theorem State.ext_setIo (s : State) (r : Reg) (v : Byte) : (s.setIo r v).ext = s.ext := rfl

@[simp] theorem State.marks_setIo (s : State) (r : Reg) (v : Byte) : (s.setIo r v).marks = s.marks := rfl

@[simp] theorem State.port_setIo (s : State) (r : Reg) (v : Byte) : (s.setIo r v).port = s.port := rfl

/-! ## `setMode` -/

@[simp] theorem State.cfg_setMode (s : State) (m : Mode) : (s.setMode m).cfg = s.cfg := rfl

@[simp] theorem State.ppu_setMode (s : State) (m : Mode) : (s.setMode m).ppu = s.ppu := rfl

@[simp] theorem State.cart_setMode (s : State) (m : Mode) : (s.setMode m).cart = s.cart := rfl

@[simp] theorem State.orch_setMode (s : State) (m : Mode) : (s.setMode m).orch = s.orch := rfl

@[simp] theorem State.fb_setMode (s : State) (m : Mode) : (s.setMode m).fb = s.fb := rfl

@[simp] theorem State.ext_setMode (s : State) (m : Mode) : (s.setMode m).ext = s.ext := rfl

@[simp] theorem State.marks_setMode (s : State) (m : Mode) : (s.setMode m).marks = s.marks := rfl

@[simp] theorem State.port_setMode (s : State) (m : Mode) : (s.setMode m).port = s.port := rfl

@[simp] theorem State.mem_setMode (s : State) (m : Mode) : (s.setMode m).surface.mem = s.surface.mem := rfl

@[simp] theorem State.io_setMode (s : State) (m : Mode) (r : Reg) :
    (s.setMode m).io r = if r = .stat then withMode (s.io .stat) m else s.io r := State.io_setIo _ _ _ _

/-! ## `requestInterrupt` -/

@[simp] theorem State.cfg_requestInterrupt (s : State) (line : Nat) : (s.requestInterrupt line).cfg = s.cfg := rfl

@[simp] theorem State.ppu_requestInterrupt (s : State) (line : Nat) : (s.requestInterrupt line).ppu = s.ppu := rfl

@[simp] theorem State.cart_requestInterrupt (s : State) (line : Nat) : (s.requestInterrupt line).cart = s.cart := rfl

@[simp] theorem State.orch_requestInterrupt (s : State) (line : Nat) : (s.requestInterrupt line).orch = s.orch := rfl

@[simp] theorem State.fb_requestInterrupt (s : State) (line : Nat) : (s.requestInterrupt line).fb = s.fb := rfl

@[simp] theorem State.ext_requestInterrupt (s : State) (line : Nat) : (s.requestInterrupt line).ext = s.ext := rfl

@[simp] theorem State.marks_requestInterrupt (s : State) (line : Nat) : (s.requestInterrupt line).marks = s.marks := rfl

@[simp] theorem State.port_requestInterrupt (s : State) (line : Nat) : (s.requestInterrupt line).port = s.port := rfl

@[simp] theorem State.mem_requestInterrupt (s : State) (line : Nat) :
    (s.requestInterrupt line).surface.mem = s.surface.mem := rfl

@[simp] theorem State.io_requestInterrupt (s : State) (line : Nat) (r : Reg) :
    (s.requestInterrupt line).io r = if r = .iflag then setBit (s.io .iflag) line else s.io r :=
  State.io_setIo _ _ _ _

/-! ## `requestIf` -/

@[simp] theorem State.cfg_requestIf (s : State) (c : Bool) (line : Nat) : (s.requestIf c line).cfg = s.cfg := by cases c <;> rfl

@[simp] theorem State.ppu_requestIf (s : State) (c : Bool) (line : Nat) : (s.requestIf c line).ppu = s.ppu := by cases c <;> rfl

@[simp] theorem State.cart_requestIf (s : State) (c : Bool) (line : Nat) : (s.requestIf c line).cart = s.cart := by cases c <;> rfl

@[simp] theorem State.orch_requestIf (s : State) (c : Bool) (line : Nat) : (s.requestIf c line).orch = s.orch := by cases c <;> rfl

@[simp] theorem State.fb_requestIf (s : State) (c : Bool) (line : Nat) : (s.requestIf c line).fb = s.fb := by cases c <;> rfl

@[simp] theorem State.ext_requestIf (s : State) (c : Bool) (line : Nat) : (s.requestIf c line).ext = s.ext := by cases c <;> rfl

@[simp] theorem State.marks_requestIf (s : State) (c : Bool) (line : Nat) : (s.requestIf c line).marks = s.marks := by cases c <;> rfl

@[simp] theorem State.port_requestIf (s : State) (c : Bool) (line : Nat) : (s.requestIf c line).port = s.port := by cases c <;> rfl

@[simp] theorem State.mem_requestIf (s : State) (c : Bool) (line : Nat) :
    (s.requestIf c line).surface.mem = s.surface.mem := by cases c <;> rfl

@[simp] theorem State.io_requestIf (s : State) (c : Bool) (line : Nat) (r : Reg) :
    (s.requestIf c line).io r
      = if r = .iflag ∧ c = true then setBit (s.io .iflag) line else s.io r := by
  cases c <;> simp [State.requestIf]

/-! ## `memWrite` -/

@[simp] theorem State.cfg_memWrite (s : State) (a : Nat) (v : Byte) : (s.memWrite a v).cfg = s.cfg := by
  unfold State.memWrite; split <;> rfl

@[simp] theorem State.ppu_memWrite (s : State) (a : Nat) (v : Byte) : (s.memWrite a v).ppu = s.ppu := by
  unfold State.memWrite; split <;> rfl

@[simp] theorem State.cart_memWrite (s : State) (a : Nat) (v : Byte) : (s.memWrite a v).cart = s.cart := by
  unfold State.memWrite; split <;> rfl

@[simp] theorem State.orch_memWrite (s : State) (a : Nat) (v : Byte) : (s.memWrite a v).orch = s.orch := by
  unfold State.memWrite; split <;> rfl

@[simp] theorem State.fb_memWrite (s : State) (a : Nat) (v : Byte) : (s.memWrite a v).fb = s.fb := by
  unfold State.memWrite; split <;> rfl

@[simp] theorem State.ext_memWrite (s : State) (a : Nat) (v : Byte) : (s.memWrite a v).ext = s.ext := by
  unfold State.memWrite; split <;> rfl

@[simp] theorem State.marks_memWrite (s : State) (a : Nat) (v : Byte) : (s.memWrite a v).marks = s.marks := by
  unfold State.memWrite; split <;> rfl

@[simp] theorem State.port_memWrite (s : State) (a : Nat) (v : Byte) : (s.memWrite a v).port = s.port := by
  unfold State.memWrite; split <;> rfl

/-! ## `setCounter` -/

@[simp] theorem State.cfg_setCounter (s : State) (n : Nat) : (s.setCounter n).cfg = s.cfg := rfl

@[simp] theorem State.surface_setCounter (s : State) (n : Nat) : (s.setCounter n).surface = s.surface := rfl

@[simp] theorem State.cart_setCounter (s : State) (n : Nat) : (s.setCounter n).cart = s.cart := rfl

@[simp] theorem State.orch_setCounter (s : State) (n : Nat) : (s.setCounter n).orch = s.orch := rfl

@[simp] theorem State.fb_setCounter (s : State) (n : Nat) : (s.setCounter n).fb = s.fb := rfl

@[simp] theorem State.ext_setCounter (s : State) (n : Nat) : (s.setCounter n).ext = s.ext := rfl

@[simp] theorem State.marks_setCounter (s : State) (n : Nat) : (s.setCounter n).marks = s.marks := rfl

@[simp] theorem State.port_setCounter (s : State) (n : Nat) : (s.setCounter n).port = s.port := rfl

@[simp] theorem State.io_setCounter (s : State) (n : Nat) (q : Reg) : (s.setCounter n).io q = s.io q := rfl

/-! ## `setFrameReady` -/

@[simp] theorem State.cfg_setFrameReady (s : State) (b : Bool) : (s.setFrameReady b).cfg = s.cfg := rfl

@[simp] theorem State.surface_setFrameReady (s : State) (b : Bool) : (s.setFrameReady b).surface = s.surface := rfl

@[simp] theorem State.cart_setFrameReady (s : State) (b : Bool) : (s.setFrameReady b).cart = s.cart := rfl

@[simp] theorem State.orch_setFrameReady (s : State) (b : Bool) : (s.setFrameReady b).orch = s.orch := rfl

@[simp] theorem State.fb_setFrameReady (s : State) (b : Bool) : (s.setFrameReady b).fb = s.fb := rfl

@[simp] theorem State.ext_setFrameReady (s : State) (b : Bool) : (s.setFrameReady b).ext = s.ext := rfl

@[simp] theorem State.marks_setFrameReady (s : State) (b : Bool) : (s.setFrameReady b).marks = s.marks := rfl

@[simp] theorem State.port_setFrameReady (s : State) (b : Bool) : (s.setFrameReady b).port = s.port := rfl

@[simp] theorem State.io_setFrameReady (s : State) (b : Bool) (q : Reg) : (s.setFrameReady b).io q = s.io q := rfl

/-! ## `raise` -/

@[simp] theorem State.cfg_raise (s : State) (f : FaultMark) : (s.raise f).cfg = s.cfg := rfl

@[simp] theorem State.surface_raise (s : State) (f : FaultMark) : (s.raise f).surface = s.surface := rfl

@[simp] theorem State.ppu_raise (s : State) (f : FaultMark) : (s.raise f).ppu = s.ppu := rfl

@[simp] theorem State.cart_raise (s : State) (f : FaultMark) : (s.raise f).cart = s.cart := rfl

@[simp] theorem State.orch_raise (s : State) (f : FaultMark) : (s.raise f).orch = s.orch := rfl

@[simp] theorem State.fb_raise (s : State) (f : FaultMark) : (s.raise f).fb = s.fb := rfl

@[simp] theorem State.ext_raise (s : State) (f : FaultMark) : (s.raise f).ext = s.ext := rfl

@[simp] theorem State.port_raise (s : State) (f : FaultMark) : (s.raise f).port = s.port := rfl

@[simp] theorem State.io_raise (s : State) (f : FaultMark) (q : Reg) : (s.raise f).io q = s.io q := rfl

/-! ## `refuse` -/

@[simp] theorem State.cfg_refuse (s : State) (r : RefusalReason) : (s.refuse r).cfg = s.cfg := rfl

@[simp] theorem State.surface_refuse (s : State) (r : RefusalReason) : (s.refuse r).surface = s.surface := rfl

@[simp] theorem State.ppu_refuse (s : State) (r : RefusalReason) : (s.refuse r).ppu = s.ppu := rfl

@[simp] theorem State.cart_refuse (s : State) (r : RefusalReason) : (s.refuse r).cart = s.cart := rfl

@[simp] theorem State.orch_refuse (s : State) (r : RefusalReason) : (s.refuse r).orch = s.orch := rfl

@[simp] theorem State.fb_refuse (s : State) (r : RefusalReason) : (s.refuse r).fb = s.fb := rfl

@[simp] theorem State.ext_refuse (s : State) (r : RefusalReason) : (s.refuse r).ext = s.ext := rfl

@[simp] theorem State.port_refuse (s : State) (r : RefusalReason) : (s.refuse r).port = s.port := rfl

@[simp] theorem State.io_refuse (s : State) (r : RefusalReason) (q : Reg) : (s.refuse r).io q = s.io q := rfl

/-! ## `respond` -/

@[simp] theorem State.cfg_respond (s : State) (b : Byte) : (s.respond b).cfg = s.cfg := rfl

@[simp] theorem State.surface_respond (s : State) (b : Byte) : (s.respond b).surface = s.surface := rfl

@[simp] theorem State.ppu_respond (s : State) (b : Byte) : (s.respond b).ppu = s.ppu := rfl

@[simp] theorem State.cart_respond (s : State) (b : Byte) : (s.respond b).cart = s.cart := rfl

@[simp] theorem State.orch_respond (s : State) (b : Byte) : (s.respond b).orch = s.orch := rfl

@[simp] theorem State.fb_respond (s : State) (b : Byte) : (s.respond b).fb = s.fb := rfl

@[simp] theorem State.ext_respond (s : State) (b : Byte) : (s.respond b).ext = s.ext := rfl

@[simp] theorem State.marks_respond (s : State) (b : Byte) : (s.respond b).marks = s.marks := rfl

@[simp] theorem State.io_respond (s : State) (b : Byte) (q : Reg) : (s.respond b).io q = s.io q := rfl

/-! ## `setRow` -/

@[simp] theorem State.cfg_setRow (s : State) (y : Nat) (row : Row) : (s.setRow y row).cfg = s.cfg := rfl

@[simp] theorem State.surface_setRow (s : State) (y : Nat) (row : Row) : (s.setRow y row).surface = s.surface := rfl

@[simp] theorem State.ppu_setRow (s : State) (y : Nat) (row : Row) : (s.setRow y row).ppu = s.ppu := rfl

@[simp] theorem State.cart_setRow (s : State) (y : Nat) (row : Row) : (s.setRow y row).cart = s.cart := rfl

@[simp] theorem State.orch_setRow (s : State) (y : Nat) (row : Row) : (s.setRow y row).orch = s.orch := rfl

@[simp] theorem State.ext_setRow (s : State) (y : Nat) (row : Row) : (s.setRow y row).ext = s.ext := rfl

@[simp] theorem State.marks_setRow (s : State) (y : Nat) (row : Row) : (s.setRow y row).marks = s.marks := rfl

@[simp] theorem State.port_setRow (s : State) (y : Nat) (row : Row) : (s.setRow y row).port = s.port := rfl

@[simp] theorem State.io_setRow (s : State) (y : Nat) (row : Row) (q : Reg) : (s.setRow y row).io q = s.io q := rfl

/-! ## `setMbc` -/

@[simp] theorem State.cfg_setMbc (s : State) (img : Image) (m : Mbc) : (s.setMbc img m).cfg = s.cfg := rfl

@[simp] theorem State.surface_setMbc (s : State) (img : Image) (m : Mbc) : (s.setMbc img m).surface = s.surface := rfl

@[simp] theorem State.ppu_setMbc (s : State) (img : Image) (m : Mbc) : (s.setMbc img m).ppu = s.ppu := rfl

@[simp] theorem State.orch_setMbc (s : State) (img : Image) (m : Mbc) : (s.setMbc img m).orch = s.orch := rfl

@[simp] theorem State.fb_setMbc (s : State) (img : Image) (m : Mbc) : (s.setMbc img m).fb = s.fb := rfl

@[simp] theorem State.ext_setMbc (s : State) (img : Image) (m : Mbc) : (s.setMbc img m).ext = s.ext := rfl

@[simp] theorem State.marks_setMbc (s : State) (img : Image) (m : Mbc) : (s.setMbc img m).marks = s.marks := rfl

@[simp] theorem State.port_setMbc (s : State) (img : Image) (m : Mbc) : (s.setMbc img m).port = s.port := rfl

@[simp] theorem State.io_setMbc (s : State) (img : Image) (m : Mbc) (q : Reg) : (s.setMbc img m).io q = s.io q := rfl

/-! ## `setPhase` -/

@[simp] theorem State.cfg_setPhase (s : State) (p : Phase) : (s.setPhase p).cfg = s.cfg := rfl

@[simp] theorem State.surface_setPhase (s : State) (p : Phase) : (s.setPhase p).surface = s.surface := rfl

@[simp] theorem State.ppu_setPhase (s : State) (p : Phase) : (s.setPhase p).ppu = s.ppu := rfl

@[simp] theorem State.cart_setPhase (s : State) (p : Phase) : (s.setPhase p).cart = s.cart := rfl

@[simp] theorem State.fb_setPhase (s : State) (p : Phase) : (s.setPhase p).fb = s.fb := rfl

@[simp] theorem State.ext_setPhase (s : State) (p : Phase) : (s.setPhase p).ext = s.ext := rfl

@[simp] theorem State.marks_setPhase (s : State) (p : Phase) : (s.setPhase p).marks = s.marks := rfl

@[simp] theorem State.port_setPhase (s : State) (p : Phase) : (s.setPhase p).port = s.port := rfl

@[simp] theorem State.io_setPhase (s : State) (p : Phase) (q : Reg) : (s.setPhase p).io q = s.io q := rfl

/-! ## `reportKey` -/

@[simp] theorem State.cfg_reportKey (s : State) (k : Nat) (p : Bool) : (s.reportKey k p).cfg = s.cfg := rfl

@[simp] theorem State.surface_reportKey (s : State) (k : Nat) (p : Bool) : (s.reportKey k p).surface = s.surface := rfl

@[simp] theorem State.ppu_reportKey (s : State) (k : Nat) (p : Bool) : (s.reportKey k p).ppu = s.ppu := rfl

@[simp] theorem State.cart_reportKey (s : State) (k : Nat) (p : Bool) : (s.reportKey k p).cart = s.cart := rfl

@[simp] theorem State.orch_reportKey (s : State) (k : Nat) (p : Bool) : (s.reportKey k p).orch = s.orch := rfl

@[simp] theorem State.fb_reportKey (s : State) (k : Nat) (p : Bool) : (s.reportKey k p).fb = s.fb := rfl

@[simp] theorem State.marks_reportKey (s : State) (k : Nat) (p : Bool) : (s.reportKey k p).marks = s.marks := rfl

@[simp] theorem State.port_reportKey (s : State) (k : Nat) (p : Bool) : (s.reportKey k p).port = s.port := rfl

@[simp] theorem State.io_reportKey (s : State) (k : Nat) (p : Bool) (q : Reg) : (s.reportKey k p).io q = s.io q := rfl

/-! ## `updateDeferredEnableFlag` -/

@[simp] theorem State.cfg_updateDeferredEnableFlag (s : State) : (s.updateDeferredEnableFlag).cfg = s.cfg := rfl

@[simp] theorem State.surface_updateDeferredEnableFlag (s : State) : (s.updateDeferredEnableFlag).surface = s.surface := rfl

@[simp] theorem State.ppu_updateDeferredEnableFlag (s : State) : (s.updateDeferredEnableFlag).ppu = s.ppu := rfl

@[simp] theorem State.cart_updateDeferredEnableFlag (s : State) : (s.updateDeferredEnableFlag).cart = s.cart := rfl

@[simp] theorem State.orch_updateDeferredEnableFlag (s : State) : (s.updateDeferredEnableFlag).orch = s.orch := rfl

@[simp] theorem State.fb_updateDeferredEnableFlag (s : State) : (s.updateDeferredEnableFlag).fb = s.fb := rfl

@[simp] theorem State.marks_updateDeferredEnableFlag (s : State) : (s.updateDeferredEnableFlag).marks = s.marks := rfl

@[simp] theorem State.port_updateDeferredEnableFlag (s : State) : (s.updateDeferredEnableFlag).port = s.port := rfl

@[simp] theorem State.io_updateDeferredEnableFlag (s : State) (q : Reg) : (s.updateDeferredEnableFlag).io q = s.io q := rfl

/-! ## `enterInterrupt` -/

@[simp] theorem State.cfg_enterInterrupt (s : State) (line : Nat) : (s.enterInterrupt line).cfg = s.cfg := rfl

@[simp] theorem State.ppu_enterInterrupt (s : State) (line : Nat) : (s.enterInterrupt line).ppu = s.ppu := rfl

@[simp] theorem State.cart_enterInterrupt (s : State) (line : Nat) : (s.enterInterrupt line).cart = s.cart := rfl

@[simp] theorem State.orch_enterInterrupt (s : State) (line : Nat) : (s.enterInterrupt line).orch = s.orch := rfl

@[simp] theorem State.fb_enterInterrupt (s : State) (line : Nat) : (s.enterInterrupt line).fb = s.fb := rfl

@[simp] theorem State.marks_enterInterrupt (s : State) (line : Nat) : (s.enterInterrupt line).marks = s.marks := rfl

@[simp] theorem State.port_enterInterrupt (s : State) (line : Nat) : (s.enterInterrupt line).port = s.port := rfl

/-! ## `cpuReturns` -/

@[simp] theorem State.cfg_cpuReturns (s : State) (d : CpuDone) : (s.cpuReturns d).cfg = s.cfg := rfl

@[simp] theorem State.surface_cpuReturns (s : State) (d : CpuDone) : (s.cpuReturns d).surface = s.surface := rfl

@[simp] theorem State.ppu_cpuReturns (s : State) (d : CpuDone) : (s.cpuReturns d).ppu = s.ppu := rfl

@[simp] theorem State.cart_cpuReturns (s : State) (d : CpuDone) : (s.cpuReturns d).cart = s.cart := rfl

@[simp] theorem State.fb_cpuReturns (s : State) (d : CpuDone) : (s.cpuReturns d).fb = s.fb := rfl

@[simp] theorem State.marks_cpuReturns (s : State) (d : CpuDone) : (s.cpuReturns d).marks = s.marks := rfl

@[simp] theorem State.port_cpuReturns (s : State) (d : CpuDone) : (s.cpuReturns d).port = s.port := rfl

@[simp] theorem State.io_cpuReturns (s : State) (d : CpuDone) (q : Reg) : (s.cpuReturns d).io q = s.io q := rfl

@[simp] theorem State.orch_cpuReturns (s : State) (d : CpuDone) :
    (s.cpuReturns d).orch = { s.orch with stepCycles := d.cyclesLess1 + 1 } := rfl

@[simp] theorem State.ext_cpuReturns (s : State) (d : CpuDone) : (s.cpuReturns d).ext =
    { s.ext with enable := s.ext.enable.apply d.enable, cpu := { s.ext.cpu with inner := d.inner } } := rfl

/-! ## `tookCpuStep` -/

@[simp] theorem State.cfg_tookCpuStep (s : State) : (s.tookCpuStep).cfg = s.cfg := rfl

@[simp] theorem State.surface_tookCpuStep (s : State) : (s.tookCpuStep).surface = s.surface := rfl

@[simp] theorem State.ppu_tookCpuStep (s : State) : (s.tookCpuStep).ppu = s.ppu := rfl

@[simp] theorem State.cart_tookCpuStep (s : State) : (s.tookCpuStep).cart = s.cart := rfl

@[simp] theorem State.orch_tookCpuStep (s : State) : (s.tookCpuStep).orch = s.orch := rfl

@[simp] theorem State.fb_tookCpuStep (s : State) : (s.tookCpuStep).fb = s.fb := rfl

@[simp] theorem State.marks_tookCpuStep (s : State) : (s.tookCpuStep).marks = s.marks := rfl

@[simp] theorem State.port_tookCpuStep (s : State) : (s.tookCpuStep).port = s.port := rfl

@[simp] theorem State.io_tookCpuStep (s : State) (q : Reg) : (s.tookCpuStep).io q = s.io q := rfl

@[simp] theorem State.ext_tookCpuStep (s : State) : s.tookCpuStep.ext =
    { s.ext with cpu := { s.ext.cpu with scripted := s.ext.cpu.scripted.tail } } := rfl

/-! ## `keepReply` -/

@[simp] theorem State.cfg_keepReply (s : State) (t : State) : (s.keepReply t).cfg = s.cfg := rfl

@[simp] theorem State.surface_keepReply (s : State) (t : State) : (s.keepReply t).surface = s.surface := rfl

@[simp] theorem State.ppu_keepReply (s : State) (t : State) : (s.keepReply t).ppu = s.ppu := rfl

@[simp] theorem State.cart_keepReply (s : State) (t : State) : (s.keepReply t).cart = s.cart := rfl

@[simp] theorem State.orch_keepReply (s : State) (t : State) : (s.keepReply t).orch = s.orch := rfl

@[simp] theorem State.fb_keepReply (s : State) (t : State) : (s.keepReply t).fb = s.fb := rfl

@[simp] theorem State.ext_keepReply (s : State) (t : State) : (s.keepReply t).ext = s.ext := rfl

@[simp] theorem State.marks_keepReply (s : State) (t : State) : (s.keepReply t).marks = s.marks := rfl

@[simp] theorem State.io_keepReply (s : State) (t : State) (q : Reg) : (s.keepReply t).io q = s.io q := rfl

/-! ## `commitFrame` -/

@[simp] theorem State.cfg_commitFrame (s : State) : (s.commitFrame).cfg = s.cfg := rfl

@[simp] theorem State.surface_commitFrame (s : State) : (s.commitFrame).surface = s.surface := rfl

@[simp] theorem State.ppu_commitFrame (s : State) : (s.commitFrame).ppu = s.ppu := rfl

@[simp] theorem State.cart_commitFrame (s : State) : (s.commitFrame).cart = s.cart := rfl

@[simp] theorem State.orch_commitFrame (s : State) : (s.commitFrame).orch = s.orch := rfl

@[simp] theorem State.fb_commitFrame (s : State) : (s.commitFrame).fb = s.fb := rfl

@[simp] theorem State.ext_commitFrame (s : State) : (s.commitFrame).ext = s.ext := rfl

@[simp] theorem State.marks_commitFrame (s : State) : (s.commitFrame).marks = s.marks := rfl

@[simp] theorem State.io_commitFrame (s : State) (q : Reg) : (s.commitFrame).io q = s.io q := rfl

/-! ## `took` -/

@[simp] theorem State.cfg_took (s : State) : (s.took).cfg = s.cfg := rfl

@[simp] theorem State.surface_took (s : State) : (s.took).surface = s.surface := rfl

@[simp] theorem State.ppu_took (s : State) : (s.took).ppu = s.ppu := rfl

@[simp] theorem State.cart_took (s : State) : (s.took).cart = s.cart := rfl

@[simp] theorem State.orch_took (s : State) : (s.took).orch = s.orch := rfl

@[simp] theorem State.fb_took (s : State) : (s.took).fb = s.fb := rfl

@[simp] theorem State.ext_took (s : State) : (s.took).ext = s.ext := rfl

@[simp] theorem State.marks_took (s : State) : (s.took).marks = s.marks := rfl

@[simp] theorem State.io_took (s : State) (q : Reg) : (s.took).io q = s.io q := rfl

/-! ## The changed field -/

@[simp] theorem State.counter_setCounter (s : State) (n : Nat) : (s.setCounter n).ppu.counter = n := rfl

@[simp] theorem State.frameReady_setCounter (s : State) (n : Nat) :
    (s.setCounter n).ppu.frameReady = s.ppu.frameReady := rfl

@[simp] theorem State.counter_setFrameReady (s : State) (b : Bool) :
    (s.setFrameReady b).ppu.counter = s.ppu.counter := rfl

@[simp] theorem State.frameReady_setFrameReady (s : State) (b : Bool) :
    (s.setFrameReady b).ppu.frameReady = b := rfl

@[simp] theorem State.fault_raise (s : State) (f : FaultMark) : (s.raise f).marks.fault = some f := rfl

@[simp] theorem State.refusal_raise (s : State) (f : FaultMark) :
    (s.raise f).marks.refusal = s.marks.refusal := rfl

@[simp] theorem State.fault_refuse (s : State) (r : RefusalReason) :
    (s.refuse r).marks.fault = s.marks.fault := rfl

@[simp] theorem State.refusal_refuse (s : State) (r : RefusalReason) :
    (s.refuse r).marks.refusal = some r := rfl

@[simp] theorem State.reply_respond (s : State) (b : Byte) : (s.respond b).port.reply = some b := rfl

@[simp] theorem State.inbox_respond (s : State) (b : Byte) : (s.respond b).port.inbox = s.port.inbox := rfl

@[simp] theorem State.loader_respond (s : State) (b : Byte) : (s.respond b).port.loader = s.port.loader := rfl

@[simp] theorem State.shown_respond (s : State) (b : Byte) : (s.respond b).port.shown = s.port.shown := rfl

@[simp] theorem State.cart_setMbc (s : State) (img : Image) (m : Mbc) :
    (s.setMbc img m).cart = some { img := img, mbc := m } := rfl

@[simp] theorem State.inbox_took (s : State) : s.took.port.inbox = s.port.inbox.tail := rfl

@[simp] theorem State.loader_took (s : State) : s.took.port.loader = s.port.loader := rfl

@[simp] theorem State.reply_took (s : State) : s.took.port.reply = none := rfl

@[simp] theorem State.inbox_keepReply (t s : State) : (t.keepReply s).port.inbox = t.port.inbox := rfl

@[simp] theorem State.loader_keepReply (t s : State) : (t.keepReply s).port.loader = t.port.loader := rfl

@[simp] theorem State.shown_keepReply (t s : State) : (t.keepReply s).port.shown = t.port.shown := rfl

@[simp] theorem State.reply_keepReply (t s : State) : (t.keepReply s).port.reply = s.port.reply := rfl

/-! ## Mode and line -/

theorem State.mode_eq (s : State) : s.mode = modeOf (s.io .stat) := rfl

theorem State.line_eq (s : State) : s.line = (s.io .ly).toNat := rfl

/-! ## Surface bytes -/

/-- Distinct addresses hold distinct registers. -/
theorem regAt_addr (r : Reg) : regAt r.addr = some r := by cases r <;> rfl

theorem regAt_branch {a n : Nat} {q r : Reg} {rest : Option Reg}
    (h : (if a = n then some q else rest) = some r) : (a = n ∧ q = r) ∨ rest = some r := by
  by_cases e : a = n
  · rw [if_pos e] at h
    exact .inl ⟨e, Option.some.inj h⟩
  · rw [if_neg e] at h
    exact .inr h

theorem addr_of_regAt {a : Nat} {r : Reg} (h : regAt a = some r) : a = r.addr := by
  unfold regAt at h
  iterate 14
    rcases regAt_branch h with ⟨e, rfl⟩ | h
    · exact e
  cases h

/-- A surface byte reads as written, and no other byte changes. -/
theorem State.memRead_memWrite (s : State) (a b : Nat) (v : Byte) :
    (s.memWrite a v).memRead b = if b = a then v else s.memRead b := by
  unfold State.memRead State.memWrite
  cases ha : regAt a with
  | some r =>
    cases hb : regAt b with
    | some q =>
      by_cases h : b = a
      · subst h
        rw [ha] at hb
        cases hb
        simp
      · have : q ≠ r := by
          intro e
          subst e
          exact h ((addr_of_regAt hb).trans (addr_of_regAt ha).symm)
        simp [h, this]
    | none =>
      have h : b ≠ a := by rintro rfl; rw [ha] at hb; cases hb
      simp [h]
  | none =>
    cases hb : regAt b with
    | some q =>
      have h : b ≠ a := by rintro rfl; rw [ha] at hb; cases hb
      simp only [h, if_false]
      rfl
    | none => exact Cells.read_write _ _ _ _

/-- A register keeps its value under a write of any other address. -/
theorem State.io_memWrite (s : State) (a : Nat) (v : Byte) (r : Reg) :
    (s.memWrite a v).io r = if a = r.addr then v else s.io r := by
  have h := State.memRead_memWrite s a r.addr v
  simp only [State.memRead, regAt_addr] at h
  rw [h]
  by_cases e : r.addr = a
  · simp [e]
  · simp [e, Ne.symm e]

end Sys2Proof.Machine
end

