-- ==== Sys2Proof/Laws/Decode.lean ====
section
/-! SUPPORT. The fields of a word made by the encoder, and what the decoder makes of the words a bus
access is (R110, R113, R116, R119). -/

namespace Sys2Proof

/-! ## Fields of an encoded word -/

/-- Bit `i` of an encoded word. -/
theorem getLsbD_wordP (u o : BitVec 4) (p : Payload) (i : Nat) :
    (wordP u o p).getLsbD i
      = if i < 24 then p.getLsbD i else if i < 28 then o.getLsbD (i - 24) else u.getLsbD (i - 28) := by
  have e : (wordP u o p).getLsbD i = ((u ++ o : BitVec 8) ++ p : BitVec (8 + 24)).getLsbD i := rfl
  rw [e, BitVec.getLsbD_append]
  by_cases h : i < 24
  · simp [h]
  · have e' : (u ++ o : BitVec 8).getLsbD (i - 24) = (u ++ o : BitVec (4 + 4)).getLsbD (i - 24) := rfl
    rw [if_neg h, if_neg h, e', BitVec.getLsbD_append]
    by_cases h2 : i < 28
    · have : i - 24 < 4 := by omega
      simp [h2, this]
    · have h3 : ¬ i - 24 < 4 := by omega
      have h4 : i - 24 - 4 = i - 28 := by omega
      simp [h2, h3, h4]

@[simp] theorem unitOf_wordP (u o : BitVec 4) (p : Payload) : unitOf (wordP u o p) = u.toNat := by
  have : (wordP u o p).extractLsb' 28 4 = u := by
    apply BitVec.eq_of_getLsbD_eq
    intro i hi
    have h : ¬ 28 + i < 24 := by omega
    simp [getLsbD_wordP, hi, h]
  rw [unitOf, this]

@[simp] theorem opOf_wordP (u o : BitVec 4) (p : Payload) : opOf (wordP u o p) = o.toNat := by
  have : (wordP u o p).extractLsb' 24 4 = o := by
    apply BitVec.eq_of_getLsbD_eq
    intro i hi
    have h : 24 + i < 28 := by omega
    simp [getLsbD_wordP, hi, h]
  rw [opOf, this]

@[simp] theorem payloadOf_wordP (u o : BitVec 4) (p : Payload) : payloadOf (wordP u o p) = p := by
  apply BitVec.eq_of_getLsbD_eq
  intro i hi
  simp [payloadOf, getLsbD_wordP, hi]

theorem getLsbD_addrData (a : Addr) (d : Byte) (i : Nat) :
    (a ++ d : Payload).getLsbD i = if i < 8 then d.getLsbD i else a.getLsbD (i - 8) := by
  have e : (a ++ d : Payload).getLsbD i = (a ++ d : BitVec (16 + 8)).getLsbD i := rfl
  rw [e, BitVec.getLsbD_append]

@[simp] theorem addrOf_wordAD (u o : BitVec 4) (a : Addr) (d : Byte) : addrOf (wordAD u o a d) = a := by
  apply BitVec.eq_of_getLsbD_eq
  intro i hi
  have h : 8 + i < 24 := by omega
  simp only [addrOf, wordAD, BitVec.getLsbD_extractLsb', getLsbD_wordP, getLsbD_addrData, hi, h]
  simp

@[simp] theorem dataOf_wordAD (u o : BitVec 4) (a : Addr) (d : Byte) : dataOf (wordAD u o a d) = d := by
  apply BitVec.eq_of_getLsbD_eq
  intro i hi
  have h : 0 + i < 24 := by omega
  simp only [dataOf, wordAD, BitVec.getLsbD_extractLsb', getLsbD_wordP, getLsbD_addrData, hi, h]
  simp [hi]

@[simp] theorem unitOf_wordAD (u o : BitVec 4) (a : Addr) (d : Byte) : unitOf (wordAD u o a d) = u.toNat :=
  unitOf_wordP _ _ _

@[simp] theorem opOf_wordAD (u o : BitVec 4) (a : Addr) (d : Byte) : opOf (wordAD u o a d) = o.toNat :=
  opOf_wordP _ _ _

/-! ## Routing -/

theorem routedSurface_eq (a : Addr) : routedSurface a = Machine.inSurface a.toNat := rfl

theorem routedSurface_eq_surfaceRange (a : Addr) : routedSurface a = a.surfaceRange := by
  rw [Bool.eq_iff_iff]
  simp only [routedSurface, Addr.surfaceRange, Addr.within, Bool.or_eq_true, Bool.and_eq_true, decide_eq_true_eq]
  omega

theorem selectRead_isSome (v : Variant) (a : Addr) (h : routedCart a = true) :
    ∃ i, selectRead v a = some i := by
  unfold routedCart at h
  unfold selectRead
  simp only [decide_eq_true_eq] at h
  split_ifs
  · exact ⟨_, rfl⟩
  · exact ⟨_, rfl⟩
  · exact ⟨_, rfl⟩
  · omega

theorem selectWrite_isSome (v : Variant) (a : Addr) (d : Byte) (h : routedCart a = true) :
    ∃ i, selectWrite v a d = some i := by
  unfold routedCart at h
  unfold selectWrite
  simp only [decide_eq_true_eq] at h
  split_ifs
  · exact ⟨_, rfl⟩
  · exact ⟨_, rfl⟩
  · exact ⟨_, rfl⟩
  · exact ⟨_, rfl⟩
  · exact ⟨_, rfl⟩
  · exact ⟨_, rfl⟩
  · omega

/-! ## The words of bus accesses -/

theorem decode_envReadWord (c : Context) (a : Addr) (h : routedSurface a = true) :
    decode c (envReadWord a) = .ok (.envRd a) := by
  simp [decode, envReadWord, decodeEnv, h]

theorem decode_envWriteWord (c : Context) (a : Addr) (d : Byte) (h : routedSurface a = true) :
    decode c (envWriteWord a d) =
      .ok (if a = 0xFF41#16 then .envWrStat d else if a = 0xFF44#16 then .envWrLy d else .envWr a d) := by
  simp [decode, envWriteWord, decodeEnv, h]

theorem decode_cartReadWord (c : Context) (a : Addr) (v : Variant) (h : routedCart a = true)
    (hv : c.variant = some v) (hu : v.governedByAcdModel = true → c.acd = .physical) :
    ∃ i, selectRead v a = some i ∧ decode c (cartReadWord a) = .ok i := by
  obtain ⟨i, hi⟩ := selectRead_isSome v a h
  refine ⟨i, hi, ?_⟩
  have hn : ¬ (v.governedByAcdModel = true ∧ c.acd = .unspecified) := by
    rintro ⟨e, e'⟩
    rw [hu e] at e'
    cases e'
  simp [decode, cartReadWord, decodeCart, h, hv, hi, hn]

theorem decode_cartWriteWord (c : Context) (a : Addr) (d : Byte) (v : Variant) (h : routedCart a = true)
    (hv : c.variant = some v) (hu : v.governedByAcdModel = true → c.acd = .physical) :
    ∃ i, selectWrite v a d = some i ∧ decode c (cartWriteWord a d) = .ok i := by
  obtain ⟨i, hi⟩ := selectWrite_isSome v a d h
  refine ⟨i, hi, ?_⟩
  have hn : ¬ (v.governedByAcdModel = true ∧ c.acd = .unspecified) := by
    rintro ⟨e, e'⟩
    rw [hu e] at e'
    cases e'
  simp [decode, cartWriteWord, decodeCart, h, hv, hi, hn]

/-- A selected operation lies in its row's window, and is of the variant (R119). -/
theorem selectRead_wf {v : Variant} {a : Addr} {i : Instr} (h : selectRead v a = some i) :
    i.wellFormed = true ∧ i.variant = some v ∧ i.internal = false := by
  unfold selectRead at h
  split_ifs at h with h1 h2 h3
  all_goals
    cases h
    cases v <;> refine ⟨?_, rfl, rfl⟩ <;>
      simp only [Instr.wellFormed, Addr.within, Bool.and_eq_true, decide_eq_true_eq] <;> omega

/-- A selected operation lies in its row's window, and is of the variant (R119). -/
theorem selectWrite_wf {v : Variant} {a : Addr} {d : Byte} {i : Instr} (h : selectWrite v a d = some i) :
    i.wellFormed = true ∧ i.variant = some v ∧ i.internal = false := by
  unfold selectWrite at h
  split_ifs at h with h1 h2 h3 h4 h5 h6
  all_goals
    cases h
    cases v <;> refine ⟨?_, rfl, rfl⟩ <;>
      simp only [Instr.wellFormed, Addr.within, Bool.and_eq_true, decide_eq_true_eq] <;> omega

/-- What the decoder reads in format C (R113, R119). -/
theorem decodeCart_ok {c : Context} {w : Word} {i : Instr} (h : decodeCart c w = .ok i) :
    opOf w ≤ 1 ∧ (opOf w = 0 → dataOf w = 0) ∧ ∃ v, c.variant = some v
      ∧ (v.governedByAcdModel = true → c.acd = .physical)
      ∧ (if opOf w = 0 then selectRead v (addrOf w) else selectWrite v (addrOf w) (dataOf w)) = some i := by
  unfold decodeCart at h
  by_cases h1 : 1 < opOf w
  · rw [if_pos h1] at h; cases h
  rw [if_neg h1] at h
  by_cases h2 : opOf w = 0 ∧ dataOf w ≠ 0
  · rw [if_pos h2] at h; cases h
  rw [if_neg h2] at h
  by_cases h3 : routedCart (addrOf w) = false
  · rw [if_pos h3] at h; cases h
  rw [if_neg h3] at h
  cases hv : c.variant with
  | none => rw [hv] at h; cases h
  | some v =>
    rw [hv] at h
    dsimp only at h
    by_cases h4 : v.governedByAcdModel = true ∧ c.acd = .unspecified
    · rw [if_pos h4] at h; cases h
    rw [if_neg h4] at h
    refine ⟨by omega, fun e => ?_, v, rfl, fun g => ?_, ?_⟩
    · by_contra d; exact h2 ⟨e, d⟩
    · cases ha : c.acd with
      | physical => rfl
      | unspecified => exact absurd ⟨g, ha⟩ h4
    · split at h
      · cases h; assumption
      · cases h

theorem decodeCart_wf {c : Context} {w : Word} {i : Instr} (h : decodeCart c w = .ok i) : i.wellFormed = true := by
  obtain ⟨_, _, v, _, _, hi⟩ := decodeCart_ok h
  split_ifs at hi
  · exact (selectRead_wf hi).1
  · exact (selectWrite_wf hi).1

/-- What the decoder reads in format E (R116, R121). -/
theorem decodeEnv_ok {w : Word} {i : Instr} (h : decodeEnv w = .ok i) :
    routedSurface (addrOf w) = true ∧
      ((opOf w = 0 ∧ dataOf w = 0 ∧ i = .envRd (addrOf w)) ∨
        (opOf w = 1 ∧ addrOf w = 0xFF41#16 ∧ i = .envWrStat (dataOf w)) ∨
        (opOf w = 1 ∧ addrOf w = 0xFF44#16 ∧ i = .envWrLy (dataOf w)) ∨
        (opOf w = 1 ∧ addrOf w ≠ 0xFF41#16 ∧ addrOf w ≠ 0xFF44#16 ∧ i = .envWr (addrOf w) (dataOf w))) := by
  unfold decodeEnv at h
  by_cases h1 : 1 < opOf w
  · rw [if_pos h1] at h; cases h
  rw [if_neg h1] at h
  by_cases h2 : opOf w = 0 ∧ dataOf w ≠ 0
  · rw [if_pos h2] at h; cases h
  rw [if_neg h2] at h
  by_cases h3 : routedSurface (addrOf w) = false
  · rw [if_pos h3] at h; cases h
  rw [if_neg h3] at h
  refine ⟨by simpa using h3, ?_⟩
  by_cases h4 : opOf w = 0
  · rw [if_pos h4] at h
    cases h
    exact .inl ⟨h4, by by_contra d; exact h2 ⟨h4, d⟩, rfl⟩
  · have h1' : opOf w = 1 := by omega
    rw [if_neg h4] at h
    by_cases h5 : addrOf w = 0xFF41#16
    · rw [if_pos h5] at h; cases h; exact .inr (.inl ⟨h1', h5, rfl⟩)
    rw [if_neg h5] at h
    by_cases h6 : addrOf w = 0xFF44#16
    · rw [if_pos h6] at h; cases h; exact .inr (.inr (.inl ⟨h1', h6, rfl⟩))
    rw [if_neg h6] at h
    cases h
    exact .inr (.inr (.inr ⟨h1', h5, h6, rfl⟩))

theorem decodeEnv_wf {w : Word} {i : Instr} (h : decodeEnv w = .ok i) : i.wellFormed = true := by
  obtain ⟨hr, h⟩ := decodeEnv_ok h
  rw [routedSurface_eq_surfaceRange] at hr
  rcases h with ⟨_, _, rfl⟩ | ⟨_, _, rfl⟩ | ⟨_, _, rfl⟩ | ⟨_, h1, h2, rfl⟩
  · exact hr
  · rfl
  · rfl
  · simp [Instr.wellFormed, hr, h1, h2]

/-! ## The words as the assembler writes them (R122, R124) -/

theorem cartReadWord_eq (a : Addr) : cartReadWord a = 0x20000000#32 ||| (a.setWidth 32 <<< 8) := by
  apply BitVec.eq_of_getLsbD_eq
  intro i hi
  simp only [cartReadWord, wordAD, getLsbD_wordP, getLsbD_addrData]
  interval_cases i <;> simp

theorem cartWriteWord_eq (a : Addr) (d : Byte) :
    cartWriteWord a d = 0x21000000#32 ||| (a.setWidth 32 <<< 8) ||| d.setWidth 32 := by
  apply BitVec.eq_of_getLsbD_eq
  intro i hi
  simp only [cartWriteWord, wordAD, getLsbD_wordP, getLsbD_addrData]
  interval_cases i <;> simp

theorem envReadWord_eq (a : Addr) : envReadWord a = 0x50000000#32 ||| (a.setWidth 32 <<< 8) := by
  apply BitVec.eq_of_getLsbD_eq
  intro i hi
  simp only [envReadWord, wordAD, getLsbD_wordP, getLsbD_addrData]
  interval_cases i <;> simp

theorem envWriteWord_eq (a : Addr) (d : Byte) :
    envWriteWord a d = 0x51000000#32 ||| (a.setWidth 32 <<< 8) ||| d.setWidth 32 := by
  apply BitVec.eq_of_getLsbD_eq
  intro i hi
  simp only [envWriteWord, wordAD, getLsbD_wordP, getLsbD_addrData]
  interval_cases i <;> simp

theorem ppuWord_eq (n : Payload) : wordP 1 0 n = 0x10000000#32 ||| n.setWidth 32 := by
  apply BitVec.eq_of_getLsbD_eq
  intro i hi
  simp only [getLsbD_wordP]
  interval_cases i <;> simp

/-! ## A word from its fields, and the context an operation needs -/

theorem word_eq (w : Word) : w = wordP (w.extractLsb' 28 4) (w.extractLsb' 24 4) (payloadOf w) := by
  apply BitVec.eq_of_getLsbD_eq
  intro i hi
  rw [getLsbD_wordP]
  unfold payloadOf
  simp only [BitVec.getLsbD_extractLsb']
  split_ifs with h1 h2
  · simp [h1]
  · have : i - 24 < 4 := by omega
    have e : 24 + (i - 24) = i := by omega
    simp [this, e]
  · have : i - 28 < 4 := by omega
    have e : 28 + (i - 28) = i := by omega
    simp [this, e]

theorem word_eq_wordAD (w : Word) :
    w = wordAD (w.extractLsb' 28 4) (w.extractLsb' 24 4) (addrOf w) (dataOf w) := by
  conv => lhs; rw [word_eq w]
  unfold wordAD
  congr 1
  apply BitVec.eq_of_getLsbD_eq
  intro i hi
  rw [getLsbD_addrData]
  unfold payloadOf addrOf dataOf
  simp only [BitVec.getLsbD_extractLsb']
  split_ifs with h
  · simp [h, hi]
  · have : i - 8 < 16 := by omega
    have e : 8 + (i - 8) = i := by omega
    simp [this, e, hi]

theorem unit_bits {w : Word} {n : Nat} (h : unitOf w = n) (hn : n < 16) :
    w.extractLsb' 28 4 = BitVec.ofNat 4 n := by
  apply BitVec.eq_of_toNat_eq
  rw [BitVec.toNat_ofNat, Nat.mod_eq_of_lt hn]
  exact h

theorem op_bits {w : Word} {n : Nat} (h : opOf w = n) (hn : n < 16) :
    w.extractLsb' 24 4 = BitVec.ofNat 4 n := by
  apply BitVec.eq_of_toNat_eq
  rw [BitVec.toNat_ofNat, Nat.mod_eq_of_lt hn]
  exact h

theorem encode_selectRead {v : Variant} {a : Addr} {i : Instr} (h : selectRead v a = some i) :
    encode i = cartReadWord a := by
  unfold selectRead at h
  split_ifs at h <;> cases v <;> simp at h <;> subst h <;> rfl

theorem encode_selectWrite {v : Variant} {a : Addr} {d : Byte} {i : Instr} (h : selectWrite v a d = some i) :
    encode i = cartWriteWord a d := by
  unfold selectWrite at h
  split_ifs at h <;> cases v <;> simp at h <;> subst h <;> rfl

/-- A cartridge operation is admitted with its variant loaded, and with an algorithm for it (R119, R120). -/
theorem admits_cart {c : Context} {i : Instr} {v : Variant} (hi : i.variant = some v) :
    c.admits i = (c.variant == some v && (!v.governedByAcdModel || c.acd == .physical)) := by
  cases i <;> simp [Instr.variant] at hi <;> subst hi <;> simp [Context.admits, Instr.variant, Instr.internal]

end Sys2Proof
end

