-- ==== Sys2Proof/Laws/Flags.lean ====
section
/-! SUPPORT. What the packed-field operations do to each bit (R13, R34, R143, R160). -/

namespace Sys2Proof.Machine

theorem setBit_testBit (v : Byte) (i j : Nat) (hi : i < 8) :
    testBit (setBit v i) j = (testBit v j || decide (j = i)) := by
  unfold testBit setBit
  simp only [BitVec.getLsbD_or, BitVec.getLsbD_shiftLeft, BitVec.getLsbD_one]
  by_cases h : j = i
  · subst h; simp [hi]
  · have : ¬ (j - i = 0 ∧ ¬ j < i) := by omega
    by_cases h2 : j < i
    · simp [h, h2]
    · have : ¬ j - i = 0 := by omega
      simp [h, this]

theorem clearBit_testBit (v : Byte) (i j : Nat) (hi : i < 8) :
    testBit (clearBit v i) j = (testBit v j && !decide (j = i)) := by
  unfold testBit clearBit
  simp only [BitVec.getLsbD_and, BitVec.getLsbD_not, BitVec.getLsbD_shiftLeft, BitVec.getLsbD_one]
  by_cases h : j = i
  · subst h; simp [hi]
  · by_cases h8 : j < 8
    · by_cases h2 : j < i
      · simp [h, h2, h8]
      · have : ¬ j - i = 0 := by omega
        simp [h, this, h8]
    · have : v.getLsbD j = false := BitVec.getLsbD_of_ge v j (by omega)
      simp [this]

/-- Setting a set bit changes nothing (R408: a second request is lost in the first). -/
theorem setBit_of_testBit (v : Byte) (i : Nat) (hi : i < 8) (h : testBit v i = true) : setBit v i = v := by
  apply BitVec.eq_of_getLsbD_eq
  intro j hj
  have := setBit_testBit v i j hi
  unfold testBit at this h
  rw [this]
  by_cases e : j = i
  · subst e; simp [h]
  · simp [e]

theorem modeOf_withMode (v : Byte) (m : Mode) : modeOf (withMode v m) = m := by
  revert v
  cases m <;> decide +kernel

theorem testBit_withMode (v : Byte) (m : Mode) (i : Nat) (hi : 2 ≤ i) :
    testBit (withMode v m) i = testBit v i := by
  by_cases h8 : i < 8
  · revert v
    have : i = 2 ∨ i = 3 ∨ i = 4 ∨ i = 5 ∨ i = 6 ∨ i = 7 := by omega
    rcases this with rfl | rfl | rfl | rfl | rfl | rfl <;> cases m <;> decide +kernel
  · unfold testBit
    rw [BitVec.getLsbD_of_ge _ _ (by omega), BitVec.getLsbD_of_ge _ _ (by omega)]

theorem modeOf_withCoincidence (v : Byte) (b : Bool) : modeOf (withCoincidence v b) = modeOf v := by
  revert v
  cases b <;> decide +kernel

theorem testBit_withCoincidence (v : Byte) (b : Bool) (i : Nat) :
    testBit (withCoincidence v b) i = if i = 2 then b else testBit v i := by
  cases b
  · by_cases h : i = 2 <;> simp [withCoincidence, clearBit_testBit, h]
  · by_cases h : i = 2 <;> simp [withCoincidence, setBit_testBit, h]

theorem modeOf_statWrite (old data : Byte) : modeOf (statWrite old data) = modeOf old := by
  have h : (statWrite old data).toNat % 4 = old.toNat % 4 := by
    have e : (statWrite old data).setWidth 2 = old.setWidth 2 := by
      apply BitVec.eq_of_getLsbD_eq
      intro i hi
      have : i = 0 ∨ i = 1 := by omega
      rcases this with rfl | rfl <;> simp [statWrite]
    have := congrArg BitVec.toNat e
    simpa using this
  simp only [modeOf, h]

/-- An environment write of STAT keeps bits 2..0 and takes bits 7..3 from the data (R143). -/
theorem testBit_statWrite (old data : Byte) (i : Nat) :
    testBit (statWrite old data) i = if i < 3 then testBit old i else testBit data i := by
  by_cases h8 : i < 8
  · have : i = 0 ∨ i = 1 ∨ i = 2 ∨ i = 3 ∨ i = 4 ∨ i = 5 ∨ i = 6 ∨ i = 7 := by omega
    rcases this with rfl | rfl | rfl | rfl | rfl | rfl | rfl | rfl <;> simp [testBit, statWrite]
  · have : ¬ i < 3 := by omega
    unfold testBit
    rw [BitVec.getLsbD_of_ge _ _ (by omega), if_neg this, BitVec.getLsbD_of_ge _ _ (by omega)]

theorem threshold_pos (m : Mode) : 80 ≤ threshold m := by cases m <;> decide

theorem threshold_le (m : Mode) : threshold m ≤ 456 := by cases m <;> decide

/-- `BGP AND 3` is the shade of id 0 (R208). -/
theorem palMap_zero (p : Byte) : palMap p 0 = p.setWidth 2 := by simp [palMap]

/-- The signed form and the XOR form of R196 agree. -/
theorem tileDataAddr_signed (idx : Byte) : tileDataAddr idx false = 0x8800 + 16 * (idx ^^^ 0x80#8).toNat := by
  revert idx
  decide +kernel

/-- A tile's data lies in 0x8000..0x97FF, whatever the indexing (R42, R196). -/
theorem tileDataAddr_bounds (idx : Byte) (u : Bool) :
    0x8000 ≤ tileDataAddr idx u ∧ tileDataAddr idx u + 15 ≤ 0x97FF := by
  revert idx
  cases u <;> decide +kernel

end Sys2Proof.Machine
end

