-- ==== Sys2Proof/Laws/Ppu.lean ====
section
/-! SUPPORT. What the PPU's events and its advance loop can do (R150 to R166, R190 to R213). -/

namespace Sys2Proof.Machine

/-! ## Sequencing -/

@[simp] theorem andThen_next (s : State) (f : State → Result) :
    andThen (.next s) f = if s.halted then .next s else f s := rfl

theorem andThen_of_running {s : State} (h : s.halted = false) (f : State → Result) :
    andThen (.next s) f = f s := by simp [h]

/-- A sequence that answers a next state: the first part stopped there, or the rest ran. -/
theorem andThen_eq_next {o : Result} {f : State → Result} {t : State} (h : andThen o f = .next t) :
    ∃ s, o = .next s ∧ ((s.halted = true ∧ t = s) ∨ (s.halted = false ∧ f s = .next t)) := by
  cases o with
  | next s =>
    refine ⟨s, rfl, ?_⟩
    rw [andThen_next] at h
    cases hs : s.halted with
    | true => rw [hs] at h; simp at h; exact .inl ⟨rfl, h.symm⟩
    | false => rw [hs] at h; simp at h; exact .inr ⟨rfl, h⟩
  | fault r => cases h
  | refused r => cases h

theorem running_iff (s : State) : s.Running ↔ s.halted = false := by
  unfold State.Running State.halted
  cases s.marks.fault <;> cases s.marks.refusal <;> simp

theorem halted_of_marks {s t : State} (h : t.marks = s.marks) : t.halted = s.halted := by
  simp [State.halted, h]

/-! ## Marks under the register updates -/

@[simp] theorem halted_setIo (s : State) (r : Reg) (v : Byte) : (s.setIo r v).halted = s.halted := rfl

@[simp] theorem halted_setMode (s : State) (m : Mode) : (s.setMode m).halted = s.halted := rfl

@[simp] theorem halted_setCounter (s : State) (n : Nat) : (s.setCounter n).halted = s.halted := rfl

@[simp] theorem halted_setRow (s : State) (y : Nat) (row : Row) : (s.setRow y row).halted = s.halted := rfl

@[simp] theorem halted_setPhase (s : State) (p : Phase) : (s.setPhase p).halted = s.halted := rfl

@[simp] theorem halted_requestInterrupt (s : State) (l : Nat) : (s.requestInterrupt l).halted = s.halted := rfl

@[simp] theorem halted_requestIf (s : State) (c : Bool) (l : Nat) : (s.requestIf c l).halted = s.halted := by
  cases c <;> rfl

@[simp] theorem halted_memWrite (s : State) (a : Nat) (v : Byte) : (s.memWrite a v).halted = s.halted :=
  halted_of_marks (by simp)

@[simp] theorem halted_setFrameReady (s : State) (b : Bool) : (s.setFrameReady b).halted = s.halted := rfl

@[simp] theorem halted_raise (s : State) (f : FaultMark) : (s.raise f).halted = true := by
  simp [State.halted]

@[simp] theorem halted_refuse (s : State) (r : RefusalReason) : (s.refuse r).halted = true := by
  simp [State.halted]

/-! ## Mode and line under the register updates -/

@[simp] theorem mode_setMode (s : State) (m : Mode) : (s.setMode m).mode = m := by
  simp [State.mode_eq, modeOf_withMode]

@[simp] theorem mode_setCounter (s : State) (n : Nat) : (s.setCounter n).mode = s.mode := rfl

@[simp] theorem line_setCounter (s : State) (n : Nat) : (s.setCounter n).line = s.line := rfl

@[simp] theorem mode_setRow (s : State) (y : Nat) (row : Row) : (s.setRow y row).mode = s.mode := rfl

@[simp] theorem line_setRow (s : State) (y : Nat) (row : Row) : (s.setRow y row).line = s.line := rfl

@[simp] theorem mode_requestIf (s : State) (c : Bool) (l : Nat) : (s.requestIf c l).mode = s.mode := by
  simp [State.mode_eq]

@[simp] theorem line_requestIf (s : State) (c : Bool) (l : Nat) : (s.requestIf c l).line = s.line := by
  simp [State.line_eq]

@[simp] theorem line_setMode (s : State) (m : Mode) : (s.setMode m).line = s.line := by
  simp [State.line_eq]

@[simp] theorem mode_setLy (s : State) (v : Byte) : (s.setIo .ly v).mode = s.mode := by
  simp [State.mode_eq]

@[simp] theorem line_setLy (s : State) (v : Byte) : (s.setIo .ly v).line = v.toNat := by
  simp [State.line_eq]

/-! ## What an event of the PPU leaves alone (R53, R81, R85, R408) -/

/-- The footprint of the PPU: it writes `STAT[2:0]`, `LY`, sets bits of `IF`, and the PPU's own state, the
frame buffer and the fault mark. -/
structure PpuFrame (s t : State) : Prop where
  cfg : t.cfg = s.cfg
  cart : t.cart = s.cart
  orch : t.orch = s.orch
  ext : t.ext = s.ext
  port : t.port = s.port
  refusal : t.marks.refusal = s.marks.refusal
  fault : s.marks.fault.isSome = true → t.marks.fault.isSome = true
  mem : t.surface.mem = s.surface.mem
  io : ∀ r, r ≠ .stat → r ≠ .ly → r ≠ .iflag → t.io r = s.io r
  stat : ∀ i, 3 ≤ i → testBit (t.io .stat) i = testBit (s.io .stat) i
  iflag : ∀ i, testBit (s.io .iflag) i = true → testBit (t.io .iflag) i = true
  iflagHigh : ∀ i, 2 ≤ i → testBit (t.io .iflag) i = testBit (s.io .iflag) i

theorem PpuFrame.refl (s : State) : PpuFrame s s := by
  constructor <;> intros <;> first | rfl | assumption

theorem PpuFrame.trans {s t u : State} (h : PpuFrame s t) (g : PpuFrame t u) : PpuFrame s u where
  cfg := g.cfg.trans h.cfg
  cart := g.cart.trans h.cart
  orch := g.orch.trans h.orch
  ext := g.ext.trans h.ext
  port := g.port.trans h.port
  refusal := g.refusal.trans h.refusal
  fault := g.fault ∘ h.fault
  mem := g.mem.trans h.mem
  io r a b c := (g.io r a b c).trans (h.io r a b c)
  stat i hi := (g.stat i hi).trans (h.stat i hi)
  iflag i hi := g.iflag i (h.iflag i hi)
  iflagHigh i hi := (g.iflagHigh i hi).trans (h.iflagHigh i hi)

theorem PpuFrame.setCounter (s : State) (n : Nat) : PpuFrame s (s.setCounter n) := by
  constructor <;> intros <;> first | rfl | assumption

theorem PpuFrame.setFrameReady (s : State) (b : Bool) : PpuFrame s (s.setFrameReady b) := by
  constructor <;> intros <;> first | rfl | assumption

theorem PpuFrame.setRow (s : State) (y : Nat) (row : Row) : PpuFrame s (s.setRow y row) := by
  constructor <;> intros <;> first | rfl | assumption

theorem PpuFrame.raise (s : State) (f : FaultMark) : PpuFrame s (s.raise f) := by
  constructor <;> intros <;> first | rfl | assumption

theorem PpuFrame.setMode (s : State) (m : Mode) : PpuFrame s (s.setMode m) where
  cfg := rfl
  cart := rfl
  orch := rfl
  ext := rfl
  port := rfl
  refusal := rfl
  fault := id
  mem := rfl
  io r a _ _ := by simp [a]
  stat i hi := by simp [testBit_withMode _ _ _ (by omega : 2 ≤ i)]
  iflag i hi := by simpa using hi
  iflagHigh i hi := by simp

theorem PpuFrame.setLy (s : State) (v : Byte) : PpuFrame s (s.setIo .ly v) where
  cfg := rfl
  cart := rfl
  orch := rfl
  ext := rfl
  port := rfl
  refusal := rfl
  fault := id
  mem := rfl
  io r _ b _ := by simp [b]
  stat i _ := by simp
  iflag i hi := by simpa using hi
  iflagHigh i hi := by simp

theorem PpuFrame.setStatCoincidence (s : State) (b : Bool) :
    PpuFrame s (s.setIo .stat (withCoincidence (s.io .stat) b)) where
  cfg := rfl
  cart := rfl
  orch := rfl
  ext := rfl
  port := rfl
  refusal := rfl
  fault := id
  mem := rfl
  io r a _ _ := by simp [a]
  stat i hi := by
    have : ¬ i = 2 := by omega
    simp [testBit_withCoincidence, this]
  iflag i hi := by simpa using hi
  iflagHigh i hi := by simp

theorem PpuFrame.requestInterrupt (s : State) (l : Nat) (hl : l < 2) : PpuFrame s (s.requestInterrupt l) where
  cfg := rfl
  cart := rfl
  orch := rfl
  ext := rfl
  port := rfl
  refusal := rfl
  fault := id
  mem := rfl
  io r _ _ c := by simp [c]
  stat i _ := by simp
  iflag i hi := by simp [setBit_testBit _ _ _ (by omega : l < 8), hi]
  iflagHigh i hi := by
    have : ¬ i = l := by omega
    simp [setBit_testBit _ _ _ (by omega : l < 8), this]

theorem PpuFrame.requestIf (s : State) (c : Bool) (l : Nat) (hl : l < 2) : PpuFrame s (s.requestIf c l) := by
  cases c
  · exact PpuFrame.refl s
  · exact PpuFrame.requestInterrupt s l hl

/-! ## The raster passes -/

/-- On an existing row the background pass replaces that row (R190). -/
theorem rasterBgWin_of_lt {line : Nat} (h : line < 144) (s : State) :
    rasterBgWin line s = .next (s.setRow line (bgWinRow s line)) := if_pos h

/-- Beyond the grid the first `setPixel` faults and no cell is written (R213). -/
theorem rasterBgWin_of_ge {line : Nat} (h : 144 ≤ line) (s : State) :
    rasterBgWin line s = .next (s.raise (.outOfRangePixel 0 line)) := if_neg (by omega)

theorem bgWinRow_get (s : State) (line x : Nat) (hx : x < 160) : (bgWinRow s line)[x] = bgWinPixel s x line := by
  simp [bgWinRow]

/-- On an existing row the sprite pass draws its pixels in order (R201, R211). -/
theorem rasterObj_of_lt {line : Nat} (h : line < 144) (s : State) :
    rasterObj line s =
      .next (s.setRow line ((objPixels s line).foldl (drawPixel (behindShade s)) s.fb[line])) := by
  simp [rasterObj, h]

theorem rasterBgWin_frame (line : Nat) (s t : State) (h : rasterBgWin line s = .next t) : PpuFrame s t := by
  unfold rasterBgWin at h
  split at h <;> cases h
  · exact PpuFrame.setRow _ _ _
  · exact PpuFrame.raise _ _

theorem rasterObj_frame (line : Nat) (s t : State) (h : rasterObj line s = .next t) : PpuFrame s t := by
  unfold rasterObj at h
  split at h
  · cases h; exact PpuFrame.setRow _ _ _
  · split at h <;> cases h
    · exact PpuFrame.refl s
    · exact PpuFrame.raise _ _

/-! ## Transitions -/

/-- Every transition answers a next state, and leaves alone what the PPU does not own. -/
theorem enterHblank_frame (s : State) : PpuFrame s (enterHblank s) :=
  (PpuFrame.setMode s _).trans (PpuFrame.requestIf _ _ _ (by decide))

theorem enterOam_frame (s : State) : PpuFrame s (enterOam s) :=
  (PpuFrame.setMode s _).trans (PpuFrame.requestIf _ _ _ (by decide))

theorem tVramHblank_frame (s t : State) (h : execPpuTVramHblank s = .next t) : PpuFrame s t := by
  obtain ⟨s1, h1, h | ⟨_, h⟩⟩ := andThen_eq_next h
  · rw [h.2]; exact rasterBgWin_frame _ _ _ h1
  · obtain ⟨s2, h2, h | ⟨_, h⟩⟩ := andThen_eq_next h
    · rw [h.2]; exact (rasterBgWin_frame _ _ _ h1).trans (rasterObj_frame _ _ _ h2)
    · cases h
      exact ((rasterBgWin_frame _ _ _ h1).trans (rasterObj_frame _ _ _ h2)).trans (enterHblank_frame _)

/-- On an existing row the transition into HBLANK runs whole (R154). -/
theorem tVramHblank_of_lt (s : State) (hr : s.halted = false) (h : s.line < 144) :
    ∃ fb, execPpuTVramHblank s = .next (enterHblank { s with fb := fb }) := by
  unfold execPpuTVramHblank
  rw [rasterBgWin_of_lt h, andThen_of_running (by simpa using hr), line_setRow,
    rasterObj_of_lt h, andThen_of_running (by simpa using hr)]
  exact ⟨_, rfl⟩

theorem transition_frame (s t : State) (h : transition s = .next t) : PpuFrame s t := by
  unfold transition at h
  split at h
  · cases h; exact PpuFrame.setMode _ _
  · exact tVramHblank_frame _ _ h
  · split at h <;> cases h
    · exact (((PpuFrame.setLy _ _).trans (PpuFrame.setMode _ _)).trans
        (PpuFrame.requestInterrupt _ _ (by decide))).trans (PpuFrame.setFrameReady _ _)
    · exact (PpuFrame.setLy _ _).trans (enterOam_frame _)
  · split at h <;> cases h
    · exact (PpuFrame.setLy _ _).trans (enterOam_frame _)
    · exact PpuFrame.setLy _ _

@[simp] theorem mode_enterHblank (s : State) : (enterHblank s).mode = .hblank := by simp [enterHblank]

@[simp] theorem line_enterHblank (s : State) : (enterHblank s).line = s.line := by simp [enterHblank]

@[simp] theorem mode_enterOam (s : State) : (enterOam s).mode = .oam := by simp [enterOam]

@[simp] theorem line_enterOam (s : State) : (enterOam s).line = s.line := by simp [enterOam]

@[simp] theorem halted_enterHblank (s : State) : (enterHblank s).halted = s.halted := by simp [enterHblank]

@[simp] theorem halted_enterOam (s : State) : (enterOam s).halted = s.halted := by simp [enterOam]

@[simp] theorem ppu_enterHblank (s : State) : (enterHblank s).ppu = s.ppu := by simp [enterHblank]

@[simp] theorem ppu_enterOam (s : State) : (enterOam s).ppu = s.ppu := by simp [enterOam]

/-- From a state whose mode and line agree, a transition completes, keeps the agreement and does not
touch the counter (R162). -/
theorem transition_ok (s : State) (hr : s.halted = false) (h : PpuLines s) :
    ∃ t, transition s = .next t ∧ t.halted = false ∧ PpuLines t ∧ t.ppu.counter = s.ppu.counter := by
  have hly : (s.io .ly).toNat = s.line := rfl
  unfold transition
  cases hm : s.mode with
  | oam =>
    have hl := h.2 (by simp [hm])
    exact ⟨_, rfl, by simpa using hr, ⟨by simp, fun _ => by simpa using hl⟩, rfl⟩
  | vram =>
    have hl := h.2 (by simp [hm])
    obtain ⟨fb, e⟩ := tVramHblank_of_lt s hr (by omega)
    refine ⟨_, e, ?_, ⟨by simp, fun _ => ?_⟩, ?_⟩
    · rw [halted_enterHblank]; exact hr
    · rw [line_enterHblank]; exact hl
    · rw [ppu_enterHblank]
  | hblank =>
    have hl := h.2 (by simp [hm])
    by_cases h144 : s.line + 1 = 144
    · simp only [h144, if_true]
      refine ⟨_, rfl, by simpa using hr, ?_, rfl⟩
      constructor <;> simp [State.mode_eq, State.line_eq, modeOf_withMode]
    · simp only [h144, if_false]
      refine ⟨_, rfl, by simpa using hr, ⟨by simp, fun _ => ?_⟩, by simp⟩
      simp only [line_enterOam, line_setLy]
      rw [BitVec.toNat_add, hly]
      have : (1 : Byte).toNat = 1 := rfl
      rw [this]
      omega
  | vblank =>
    have hl := h.1 hm
    by_cases h153 : s.line = 153
    · simp only [h153, if_true]
      exact ⟨_, rfl, by simpa using hr, ⟨by simp, fun _ => by simp⟩, by simp⟩
    · simp only [h153, if_false]
      refine ⟨_, rfl, by simpa using hr, ⟨fun _ => ?_, fun c => absurd hm (by simpa using c)⟩, rfl⟩
      simp only [line_setLy]
      rw [BitVec.toNat_add, hly]
      have : (1 : Byte).toNat = 1 := rfl
      rw [this]
      omega

/-! ## The loop (R150, R152) -/

theorem PpuLines.setCounter {s : State} (h : PpuLines s) (n : Nat) : PpuLines (s.setCounter n) := h

/-- What every turn keeps, the loop keeps. -/
theorem advanceLoop_induct (P : State → Prop)
    (hturn : ∀ s t, P s → threshold s.mode ≤ s.ppu.counter →
      transition (s.setCounter (s.ppu.counter - threshold s.mode)) = .next t → P t) :
    ∀ (n : Nat) (s t : State), P s → advanceLoop n s = .next t → P t := by
  intro n
  induction n with
  | zero => intro s t hs h; cases h; exact hs
  | succ n ih =>
    intro s t hs h
    unfold advanceLoop at h
    split at h
    · cases h; exact hs
    · rename_i hc
      obtain ⟨u, hu, h | ⟨_, h⟩⟩ := andThen_eq_next h
      · rw [h.2]; exact hturn s u hs (by omega) hu
      · exact ih u t (hturn s u hs (by omega) hu) h

theorem advanceLoop_frame (n : Nat) (s t : State) (h : advanceLoop n s = .next t) : PpuFrame s t :=
  advanceLoop_induct (fun u => PpuFrame s u)
    (fun u _ hu _ hv => hu.trans ((PpuFrame.setCounter u _).trans (transition_frame _ _ hv)))
    n s t (PpuFrame.refl s) h

/-- With enough fuel the loop ends below the threshold, the mode and line still agreeing (R152, R162). -/
theorem advanceLoop_fuel (n : Nat) : ∀ (s : State), s.halted = false → PpuLines s → s.ppu.counter / 80 < n →
    ∃ t, advanceLoop n s = .next t ∧ t.halted = false ∧ PpuOk t := by
  induction n with
  | zero => intro s _ _ h; omega
  | succ n ih =>
    intro s hr hl hn
    unfold advanceLoop
    by_cases hc : s.ppu.counter < threshold s.mode
    · rw [if_pos hc]; exact ⟨s, rfl, hr, hl, hc⟩
    · rw [if_neg hc]
      obtain ⟨u, hu, hur, hul, huc⟩ :=
        transition_ok (s.setCounter (s.ppu.counter - threshold s.mode)) hr (hl.setCounter _)
      rw [hu, andThen_of_running hur]
      have h80 := threshold_pos s.mode
      refine ih u hur hul ?_
      rw [huc, State.counter_setCounter]
      omega

/-! ## Display off, coincidence, advance -/

theorem lcdOff_frame (s t : State) (h : execPpuLcdOff s = .next t) : PpuFrame s t := by
  cases h
  exact ((PpuFrame.setLy _ _).trans (PpuFrame.setCounter _ _)).trans (PpuFrame.setMode _ _)

theorem lycCheck_frame (s t : State) (h : execPpuLycCheck s = .next t) : PpuFrame s t := by
  cases h
  exact (PpuFrame.setStatCoincidence _ _).trans (PpuFrame.requestIf _ _ _ (by decide))

/-- The coincidence check leaves mode, line and counter alone (R160). -/
theorem lycCheck_ok (s : State) (h : PpuOk s) (hr : s.halted = false) :
    ∃ t, execPpuLycCheck s = .next t ∧ t.halted = false ∧ PpuOk t := by
  refine ⟨_, rfl, by simpa using hr, ?_⟩
  obtain ⟨⟨h1, h2⟩, h3⟩ := h
  simp only [State.mode_eq, State.line_eq] at h1 h2 h3
  refine ⟨⟨?_, ?_⟩, ?_⟩ <;> simp [State.mode_eq, State.line_eq, modeOf_withCoincidence] <;> assumption

theorem ppuAdvance_frame (n : Nat) (s t : State) (h : ppuAdvance n s = .next t) : PpuFrame s t := by
  obtain ⟨u, hu, h⟩ := andThen_eq_next h
  have hf : PpuFrame s u := by
    split at hu
    · exact (PpuFrame.setCounter s _).trans (advanceLoop_frame _ _ _ hu)
    · exact lcdOff_frame _ _ hu
  rcases h with h | ⟨_, h⟩
  · rw [h.2]; exact hf
  · exact hf.trans (lycCheck_frame _ _ h)

/-- An advance from a state whose mode and line agree completes, without a mark, in a state that satisfies
`PpuOk` (R150, R162). -/
theorem ppuAdvance_ok (n : Nat) (s : State) (hr : s.halted = false) (h : PpuLines s) :
    ∃ t, ppuAdvance n s = .next t ∧ t.halted = false ∧ PpuOk t := by
  unfold ppuAdvance
  by_cases hon : lcdOn (s.io .lcdc) = true
  · rw [if_pos hon]
    obtain ⟨u, hu, hur, huo⟩ := advanceLoop_fuel ((s.ppu.counter + n) / 80 + 1)
      (s.setCounter (s.ppu.counter + n)) hr (h.setCounter _) (by simp)
    rw [hu, andThen_of_running hur]
    exact lycCheck_ok u huo hur
  · rw [if_neg hon]
    unfold execPpuLcdOff
    rw [andThen_of_running (by simpa using hr)]
    refine lycCheck_ok _ ⟨⟨by simp, fun _ => ?_⟩, ?_⟩ (by simpa using hr)
    · simp [State.line_eq]
    · simp [threshold]

end Sys2Proof.Machine
end

