-- ==== Sys2Proof/Laws/Bus.lean ====
section
/-! SUPPORT. What a word of format E or C can do, and that the CPU's bus completes where the cartridge is
ready (R53, R85, R120, R258, R358). -/

namespace Sys2Proof.Machine

/-! ## Marks only grow (R52) -/

/-- No mark of `s` is cleared in `t`. -/
structure MarksKept (s t : State) : Prop where
  fault : s.marks.fault.isSome = true → t.marks.fault.isSome = true
  refusal : s.marks.refusal.isSome = true → t.marks.refusal.isSome = true

theorem MarksKept.refl (s : State) : MarksKept s s := ⟨id, id⟩

theorem MarksKept.trans {s t u : State} (h : MarksKept s t) (g : MarksKept t u) : MarksKept s u :=
  ⟨g.fault ∘ h.fault, g.refusal ∘ h.refusal⟩

theorem MarksKept.of_eq {s t : State} (h : t.marks = s.marks) : MarksKept s t := by
  constructor <;> rw [h] <;> exact id

theorem MarksKept.raise (s : State) (f : FaultMark) : MarksKept s (s.raise f) := ⟨fun _ => rfl, id⟩

theorem MarksKept.refuse (s : State) (r : RefusalReason) : MarksKept s (s.refuse r) := ⟨id, fun _ => rfl⟩

/-! ## The footprint of a bus word -/

/-- What a word of format E or C leaves alone, and what it keeps in form. -/
structure BusFrame (s t : State) : Prop where
  cfg : t.cfg = s.cfg
  ppu : t.ppu = s.ppu
  orch : t.orch = s.orch
  fb : t.fb = s.fb
  ext : t.ext = s.ext
  inbox : t.port.inbox = s.port.inbox
  loader : t.port.loader = s.port.loader
  shown : t.port.shown = s.port.shown
  stat : ∀ i, i < 3 → testBit (t.io .stat) i = testBit (s.io .stat) i
  ly : t.io .ly = s.io .ly
  surface : SurfaceOk s.surface → SurfaceOk t.surface
  none : s.cart = none → t.cart = none
  cart : ∀ c, s.cart = some c → ∃ m, t.cart = some { img := c.img, mbc := m } ∧ m.variant = c.mbc.variant
    ∧ (MbcOk c.img.ramSize c.mbc → MbcOk c.img.ramSize m)
  marks : MarksKept s t

theorem BusFrame.refl (s : State) : BusFrame s s where
  cfg := rfl
  ppu := rfl
  orch := rfl
  fb := rfl
  ext := rfl
  inbox := rfl
  loader := rfl
  shown := rfl
  stat _ _ := rfl
  ly := rfl
  surface := id
  none := id
  cart c h := ⟨c.mbc, h, rfl, id⟩
  marks := MarksKept.refl s

theorem BusFrame.trans {s t u : State} (h : BusFrame s t) (g : BusFrame t u) : BusFrame s u where
  cfg := g.cfg.trans h.cfg
  ppu := g.ppu.trans h.ppu
  orch := g.orch.trans h.orch
  fb := g.fb.trans h.fb
  ext := g.ext.trans h.ext
  inbox := g.inbox.trans h.inbox
  loader := g.loader.trans h.loader
  shown := g.shown.trans h.shown
  stat i hi := (g.stat i hi).trans (h.stat i hi)
  ly := g.ly.trans h.ly
  surface := g.surface ∘ h.surface
  none := g.none ∘ h.none
  cart c hc := by
    obtain ⟨m, hm, vm, om⟩ := h.cart c hc
    obtain ⟨m', hm', vm', om'⟩ := g.cart _ hm
    exact ⟨m', hm', vm'.trans vm, om' ∘ om⟩
  marks := h.marks.trans g.marks

/-- An answer, a mark or a kept reply changes nothing that a bus word may not. -/
theorem BusFrame.of_marks_port {s t : State} (ht : t = { s with marks := t.marks, port := t.port })
    (hi : t.port.inbox = s.port.inbox) (hl : t.port.loader = s.port.loader)
    (hs : t.port.shown = s.port.shown) (hm : MarksKept s t) : BusFrame s t where
  cfg := by rw [ht]
  ppu := by rw [ht]
  orch := by rw [ht]
  fb := by rw [ht]
  ext := by rw [ht]
  inbox := hi
  loader := hl
  shown := hs
  stat _ _ := by rw [ht]; rfl
  ly := by rw [ht]; rfl
  surface h := by rw [ht]; exact h
  none h := by rw [ht]; exact h
  cart c h := ⟨c.mbc, by rw [ht]; exact h, rfl, id⟩
  marks := hm

theorem BusFrame.respond (s : State) (b : Byte) : BusFrame s (s.respond b) :=
  .of_marks_port rfl rfl rfl rfl (.of_eq rfl)

theorem BusFrame.raise (s : State) (f : FaultMark) : BusFrame s (s.raise f) :=
  .of_marks_port rfl rfl rfl rfl (.raise s f)

theorem BusFrame.refuse (s : State) (r : RefusalReason) : BusFrame s (s.refuse r) :=
  .of_marks_port rfl rfl rfl rfl (.refuse s r)

theorem BusFrame.keepReply (s t : State) : BusFrame t (t.keepReply s) :=
  .of_marks_port rfl rfl rfl rfl (.of_eq rfl)

/-- A write of the controller of the loaded cartridge, of the same variant and in range. -/
theorem BusFrame.setMbc {s : State} {img : Image} {m m' : Mbc} (hc : s.cart = some { img := img, mbc := m })
    (hv : m'.variant = m.variant) (ho : MbcOk img.ramSize m → MbcOk img.ramSize m') :
    BusFrame s (s.setMbc img m') where
  cfg := rfl
  ppu := rfl
  orch := rfl
  fb := rfl
  ext := rfl
  inbox := rfl
  loader := rfl
  shown := rfl
  stat _ _ := rfl
  ly := rfl
  surface := id
  none h := by rw [hc] at h; cases h
  cart c h := by
    rw [hc] at h
    cases h
    exact ⟨m', rfl, hv, ho⟩
  marks := .of_eq rfl

/-! ## Surface accesses -/

theorem addrNat_ne {a b : Addr} (h : a ≠ b) : a.toNat ≠ b.toNat := fun e => h (BitVec.eq_of_toNat_eq e)

theorem storedByte_of_surface {a : Nat} (h : inSurface a = true) (hr : regAt a = none) : storedByte a = true := by
  simp [storedByte, h, hr]

/-- A surface write to neither STAT nor LY (R142). -/
theorem BusFrame.memWrite (s : State) {a : Nat} (v : Byte) (ha : inSurface a = true)
    (h1 : a ≠ 0xFF41) (h2 : a ≠ 0xFF44) : BusFrame s (s.memWrite a v) where
  cfg := by simp
  ppu := by simp
  orch := by simp
  fb := by simp
  ext := by simp
  inbox := by simp
  loader := by simp
  shown := by simp
  stat i _ := by
    have : ¬ a = Reg.stat.addr := h1
    rw [State.io_memWrite, if_neg this]
  ly := by
    have : ¬ a = Reg.ly.addr := h2
    rw [State.io_memWrite, if_neg this]
  surface h := by
    unfold State.memWrite
    cases hr : regAt a with
    | some r => exact h
    | none => exact ⟨Cells.wf_write _ _ _ h.1, Cells.inside_write _ _ _ _ (storedByte_of_surface ha hr) h.2⟩
  none h := by simpa using h
  cart c h := ⟨c.mbc, by simpa using h, rfl, id⟩
  marks := .of_eq (by simp)

/-- `ENV.WR_STAT` keeps bits 2..0 (R143). -/
theorem BusFrame.statWrite (s : State) (d : Byte) :
    BusFrame s (s.setIo .stat (statWrite (s.io .stat) d)) where
  cfg := rfl
  ppu := rfl
  orch := rfl
  fb := rfl
  ext := rfl
  inbox := rfl
  loader := rfl
  shown := rfl
  stat i hi := by simp [testBit_statWrite, hi]
  ly := by simp
  surface := id
  none := id
  cart c h := ⟨c.mbc, h, rfl, id⟩
  marks := .of_eq rfl

/-! ## Cartridge accesses -/

/-- Every answer of an operation is inside the footprint. -/
def StaysIn (s : State) (o : Result) : Prop := ∀ t, o = .next t → BusFrame s t

theorem StaysIn.next {s t : State} (h : BusFrame s t) : StaysIn s (.next t) := by
  intro u e; cases e; exact h

theorem StaysIn.readImage (s : State) (img : Image) (i : Nat) : StaysIn s (readImage s img i) := by
  unfold Machine.readImage
  split
  · exact .next (.respond s _)
  · exact .next (.raise s _)

theorem StaysIn.onFixed {s : State} {op : Image → Result}
    (h : ∀ img, s.cart = some { img := img, mbc := .fixed } → StaysIn s (op img)) : StaysIn s (onFixed s op) := by
  unfold Machine.onFixed
  split
  · exact .next (.refuse s _)
  · exact h _ ‹_›
  · intro t e; cases e

theorem StaysIn.onB {s : State} {op : Image → MbcB → Result}
    (h : ∀ img m, s.cart = some { img := img, mbc := .b m } → StaysIn s (op img m)) : StaysIn s (onB s op) := by
  unfold Machine.onB
  split
  · exact .next (.refuse s _)
  · exact h _ _ ‹_›
  · intro t e; cases e

theorem StaysIn.onA {s : State} {op : Image → MbcA → Result}
    (h : ∀ img m, s.cart = some { img := img, mbc := .a m } → StaysIn s (op img m)) : StaysIn s (onA s op) := by
  unfold Machine.onA
  split
  · exact .next (.refuse s _)
  · split
    · exact .next (.refuse s _)
    · exact h _ _ ‹_›
  · intro t e; cases e

theorem StaysIn.onC {s : State} {op : Image → MbcC → Result}
    (h : ∀ img m, s.cart = some { img := img, mbc := .c m } → StaysIn s (op img m)) : StaysIn s (onC s op) := by
  unfold Machine.onC
  split
  · exact .next (.refuse s _)
  · split
    · exact .next (.refuse s _)
    · exact h _ _ ‹_›
  · intro t e; cases e

theorem StaysIn.onD {s : State} {op : Image → MbcD → Result}
    (h : ∀ img m, s.cart = some { img := img, mbc := .d m } → StaysIn s (op img m)) : StaysIn s (onD s op) := by
  unfold Machine.onD
  split
  · exact .next (.refuse s _)
  · split
    · exact .next (.refuse s _)
    · exact h _ _ ‹_›
  · intro t e; cases e

theorem nonzeroBank_ne_zero {w : Nat} (v : BitVec (w + 1)) : nonzeroBank v ≠ 0 := by
  unfold nonzeroBank
  split
  · simp
  · assumption

theorem ramIndex_lt {n : Nat} (h : n ≠ 0) (rb : Nat) (a : Addr) : ramIndex n rb a < n :=
  Nat.mod_lt _ (Nat.pos_of_ne_zero h)

/-- A RAM write keeps the canonical form and the bounds (R290). -/
theorem ramStore_ok (img : Image) (ram : Memory) (en : Bool) (bank : Nat) (a : Addr) (d : Byte)
    (h : Memory.wf ram = true ∧ Cells.inside ram (fun i => decide (i < img.ramSize)) = true) :
    Memory.wf (ramStore img ram en bank a d) = true
      ∧ Cells.inside (ramStore img ram en bank a d) (fun i => decide (i < img.ramSize)) = true := by
  unfold ramStore
  split
  · exact h
  · rename_i hn
    have h0 : img.ramSize ≠ 0 := fun e => hn (.inr e)
    exact ⟨Cells.wf_write _ _ _ h.1, Cells.inside_write _ _ _ _ (by simpa using ramIndex_lt h0 bank a) h.2⟩

theorem ramIndexB_lt (a : Addr) : ramIndexB a < 512 := Nat.mod_lt _ (by decide)

/-- A word of format E or C stays in the footprint (a write of STAT or LY is `ENV.WR_STAT` or `ENV.WR_LY`, R121). -/
theorem busExec_frame (i : Instr) (s : State) (hw : i.variant = none → i.wellFormed = true) :
    StaysIn s (busExec i s) := by
  cases i with
  | cartFRdRom0 a => exact .onFixed fun _ _ => .readImage _ _ _
  | cartFRdRomx a => exact .onFixed fun _ _ => .readImage _ _ _
  | cartFRdRam a => exact .onFixed fun _ _ => .next (.respond _ _)
  | cartFWrRom a d => exact .onFixed fun _ _ => .next (.refl _)
  | cartFWrRam a d => exact .onFixed fun _ _ => .next (.refl _)
  | cartARdRom0 a => exact .onA fun _ _ _ => .readImage _ _ _
  | cartARdRomx a => exact .onA fun _ _ _ => .readImage _ _ _
  | cartARdRam a => exact .onA fun _ _ _ => .next (.respond _ _)
  | cartAWrRamen a d => exact .onA fun _ _ h => .next (.setMbc h rfl id)
  | cartAWrBank1 a d => exact .onA fun _ _ h => .next (.setMbc h rfl fun o => ⟨nonzeroBank_ne_zero _, o.2⟩)
  | cartAWrBank2 a d => exact .onA fun _ _ h => .next (.setMbc h rfl id)
  | cartAWrMode a d => exact .onA fun _ _ h => .next (.setMbc h rfl id)
  | cartAWrRam a d => exact .onA fun _ _ h => .next (.setMbc h rfl fun o => ⟨o.1, ramStore_ok _ _ _ _ _ _ o.2⟩)
  | cartBRdRom0 a => exact .onB fun _ _ _ => .readImage _ _ _
  | cartBRdRomx a => exact .onB fun _ _ _ => .readImage _ _ _
  | cartBRdRam a => exact .onB fun _ _ _ => .next (.respond _ _)
  | cartBWrRamen a d => exact .onB fun _ _ h => .next (.setMbc h rfl id)
  | cartBWrRomb a d => exact .onB fun _ _ h => .next (.setMbc h rfl id)
  | cartBWrHi a d => exact .onB fun _ _ _ => .next (.refl _)
  | cartBWrRam a d =>
    refine .onB fun _ m h => .next (.setMbc h rfl fun o => ?_)
    show Cells.wf (if m.ramEnable then _ else _) = true ∧ _
    cases m.ramEnable
    · exact o
    · exact ⟨Cells.wf_write _ _ _ o.1, Cells.inside_write _ _ _ _ (by simpa using ramIndexB_lt a) o.2⟩
  | cartCRdRom0 a => exact .onC fun _ _ _ => .readImage _ _ _
  | cartCRdRomx a => exact .onC fun _ _ _ => .readImage _ _ _
  | cartCRdRam a => exact .onC fun _ _ _ => .next (.respond _ _)
  | cartCWrRamen a d => exact .onC fun _ _ h => .next (.setMbc h rfl id)
  | cartCWrRomb a d => exact .onC fun _ _ h => .next (.setMbc h rfl fun o => ⟨nonzeroBank_ne_zero _, o.2⟩)
  | cartCWrRamsel a d => exact .onC fun _ _ h => .next (.setMbc h rfl id)
  | cartCWrLatch a d => exact .onC fun _ _ _ => .next (.refl _)
  | cartCWrRam a d => exact .onC fun _ _ h => .next (.setMbc h rfl fun o => ⟨o.1, ramStore_ok _ _ _ _ _ _ o.2⟩)
  | cartDRdRom0 a => exact .onD fun _ _ _ => .readImage _ _ _
  | cartDRdRomx a => exact .onD fun _ _ _ => .readImage _ _ _
  | cartDRdRam a => exact .onD fun _ _ _ => .next (.respond _ _)
  | cartDWrRamen a d => exact .onD fun _ _ h => .next (.setMbc h rfl id)
  | cartDWrRombLo a d => exact .onD fun _ _ h => .next (.setMbc h rfl id)
  | cartDWrRombHi a d => exact .onD fun _ _ h => .next (.setMbc h rfl id)
  | cartDWrRamb a d => exact .onD fun _ _ h => .next (.setMbc h rfl id)
  | cartDWr6000 a d => exact .onD fun _ _ _ => .next (.refl _)
  | cartDWrRam a d => exact .onD fun _ _ h => .next (.setMbc h rfl fun o => ramStore_ok _ _ _ _ _ _ o)
  | envRd a =>
    show StaysIn s (execEnvRd a s)
    unfold execEnvRd
    split
    · exact .next (.respond _ _)
    · exact .next (.refuse _ _)
  | envWrStat d => exact .next (.statWrite s d)
  | envWrLy d => exact .next (.refl s)
  | envWr a d =>
    show StaysIn s (execEnvWr a d s)
    have hw := hw rfl
    simp only [Instr.wellFormed, Bool.and_eq_true, bne_iff_ne, ne_eq] at hw
    unfold execEnvWr
    split
    · exact .next (.memWrite s d ‹_› (addrNat_ne hw.1.2) (addrNat_ne hw.2))
    · exact .next (.refuse _ _)
  | _ => exact .next (.refl s)

/-- An operation of format E or C does on the bus what it does as a word presented (R358). -/
theorem busExec_eq_exec (i : Instr) (s : State)
    (h : i.variant ≠ none ∨ (∃ a, i = .envRd a) ∨ (∃ a d, i = .envWr a d) ∨ (∃ d, i = .envWrStat d)
      ∨ (∃ d, i = .envWrLy d)) : busExec i s = exec i s := by
  cases i <;> first | rfl | simp [Instr.variant] at h

/-! ## One access of the CPU -/

/-- What the decoder reads from a CPU access is well formed. -/
theorem access_wf {a : Access} {w : Word} {c : Context} {i : Instr} (ha : accessWord? a = some w)
    (hd : decode c w = .ok i) : i.wellFormed = true := by
  unfold accessWord? at ha
  split at ha <;> split at ha <;> cases ha
  · exact decodeEnv_wf (by simpa [decode, envReadWord] using hd)
  · exact decodeCart_wf (by simpa [decode, cartReadWord] using hd)
  · exact decodeEnv_wf (by simpa [decode, envWriteWord] using hd)
  · exact decodeCart_wf (by simpa [decode, cartWriteWord] using hd)

/-- A word of the CPU stays in the footprint. -/
theorem busWord_frame {a : Access} {w : Word} (ha : accessWord? a = some w) (s : State) :
    StaysIn s (busWord w s) := by
  unfold busWord
  cases hd : decode (s.context false) w with
  | error r => exact .next (.refuse s r)
  | ok i => exact busExec_frame i s (fun _ => access_wf ha hd)

/-- What an access does where its word decodes. -/
theorem busAccess_of_ok {a : Access} {w : Word} {s : State} {i : Instr} (ha : accessWord? a = some w)
    (hd : decode (s.context false) w = .ok i) : busAccess a s = keepingReply s (busExec i s) := by
  simp only [busAccess, busWord, ha, hd]

/-- What an access does where its word is refused (R120). -/
theorem busAccess_of_error {a : Access} {w : Word} {s : State} {r : RefusalReason} (ha : accessWord? a = some w)
    (hd : decode (s.context false) w = .error r) : busAccess a s = .next (s.refuse r) := by
  simp only [busAccess, busWord, ha, hd]
  rfl

theorem keepingReply_eq_next {s u : State} {o : Result} (h : keepingReply s o = .next u) :
    ∃ t, o = .next t ∧ u = t.keepReply s := by
  cases o with
  | next t => cases h; exact ⟨t, rfl, rfl⟩
  | fault _ => cases h
  | refused _ => cases h

theorem busAccess_frame (a : Access) (s : State) : StaysIn s (busAccess a s) := by
  unfold busAccess
  cases ha : accessWord? a with
  | none => exact .next (.refl s)
  | some w =>
    intro u hu
    obtain ⟨t, ht, rfl⟩ := keepingReply_eq_next hu
    exact (busWord_frame ha s t ht).trans (.keepReply s t)

theorem StaysIn.andThen {s : State} {o : Result} {f : State → Result} (h : StaysIn s o)
    (hf : ∀ t, StaysIn t (f t)) : StaysIn s (andThen o f) := by
  intro u hu
  obtain ⟨t, ht, ⟨_, e⟩ | ⟨_, e⟩⟩ := andThen_eq_next hu
  · rw [e]; exact h t ht
  · exact (h t ht).trans (hf t u e)

theorem busAccesses_frame (l : List Access) (s : State) : StaysIn s (busAccesses l s) := by
  induction l generalizing s with
  | nil => exact .next (.refl s)
  | cons a l ih => exact (busAccess_frame a s).andThen ih

/-! ## Completion on a ready bus -/

/-- A byte of the image within its length is returned. -/
theorem readImage_of_lt (s : State) {img : Image} {i : Nat} (h : i < img.size) :
    readImage s img i = .next (s.respond (img.byte i)) := if_pos h

theorem nBanks_mul {img : Image} (h : SizeOk img) : img.nBanks * 0x4000 = img.size ∧ 2 ≤ img.nBanks := by
  obtain ⟨h1, h2⟩ := h
  unfold Image.nBanks
  omega

/-- A bank number reduced modulo the bank count never leaves the image (R290). -/
theorem romIndex_lt {img : Image} (h : SizeOk img) (b : Nat) (a : Addr) : romIndex img.nBanks b a < img.size := by
  obtain ⟨h1, h2⟩ := nBanks_mul h
  have h3 : b % img.nBanks < img.nBanks := Nat.mod_lt _ (by omega)
  have h4 : a.toNat % 0x4000 < 0x4000 := Nat.mod_lt _ (by decide)
  have h5 : (b % img.nBanks + 1) * 0x4000 ≤ img.nBanks * 0x4000 := Nat.mul_le_mul_right _ (by omega)
  unfold romIndex
  omega

theorem romIndexB_lt {img : Image} (h : 0x40000 ≤ img.size) (b : BitVec 4) (a : Addr) : romIndexB b a < img.size := by
  have h3 := b.isLt
  have h4 : a.toNat % 0x4000 < 0x4000 := Nat.mod_lt _ (by decide)
  unfold romIndexB
  omega

/-- An operation of a loaded, ready cartridge answers without a mark. -/
def Completes (s : State) (o : Result) : Prop := ∃ t, o = .next t ∧ t.marks = s.marks

theorem Completes.next {s t : State} (h : t.marks = s.marks) : Completes s (.next t) := ⟨t, rfl, h⟩

theorem Completes.readImage (s : State) {img : Image} {i : Nat} (h : i < img.size) :
    Completes s (readImage s img i) := ⟨_, readImage_of_lt s h, rfl⟩

theorem selectRead_completes {s : State} {c : Cart} (hc : s.cart = some c) (ok : CartOk c)
    (hb : BanksReachable s) (hv : VariantUsable s) {a : Addr} {i : Instr}
    (h : selectRead c.mbc.variant a = some i) : Completes s (busExec i s) := by
  obtain ⟨img, mbc⟩ := c
  have hs : SizeOk img := ok.2.1
  have h8 : 0x8000 ≤ img.size := hs.1
  have hp := hv _ hc
  unfold selectRead at h
  cases mbc with
  | fixed =>
    split_ifs at h with h1 h2 h3 <;> cases h
    · simp only [busExec, execCartFRdRom0, onFixed, hc]; exact .readImage s (by omega)
    · simp only [busExec, execCartFRdRomx, onFixed, hc]; exact .readImage s (by omega)
    · simp only [busExec, execCartFRdRam, onFixed, hc]; exact .next rfl
  | a m =>
    have hp' : ¬ s.cfg.variantAcdModel = .unspecified := by rw [hp rfl]; simp
    split_ifs at h with h1 h2 h3 <;> cases h
    · simp only [busExec, execCartARdRom0, onA, hc, hp', if_false]; exact .readImage s (romIndex_lt hs _ _)
    · simp only [busExec, execCartARdRomx, onA, hc, hp', if_false]; exact .readImage s (romIndex_lt hs _ _)
    · simp only [busExec, execCartARdRam, onA, hc, hp', if_false]; exact .next rfl
  | b m =>
    split_ifs at h with h1 h2 h3 <;> cases h
    · simp only [busExec, execCartBRdRom0, onB, hc]; exact .readImage s (by omega)
    · simp only [busExec, execCartBRdRomx, onB, hc]; exact .readImage s (romIndexB_lt (hb _ _ hc) _ _)
    · simp only [busExec, execCartBRdRam, onB, hc]; exact .next rfl
  | c m =>
    have hp' : ¬ s.cfg.variantAcdModel = .unspecified := by rw [hp rfl]; simp
    split_ifs at h with h1 h2 h3 <;> cases h
    · simp only [busExec, execCartCRdRom0, onC, hc, hp', if_false]; exact .readImage s (by omega)
    · simp only [busExec, execCartCRdRomx, onC, hc, hp', if_false]; exact .readImage s (romIndex_lt hs _ _)
    · simp only [busExec, execCartCRdRam, onC, hc, hp', if_false]; exact .next rfl
  | d m =>
    have hp' : ¬ s.cfg.variantAcdModel = .unspecified := by rw [hp rfl]; simp
    split_ifs at h with h1 h2 h3 <;> cases h
    · simp only [busExec, execCartDRdRom0, onD, hc, hp', if_false]; exact .readImage s (by omega)
    · simp only [busExec, execCartDRdRomx, onD, hc, hp', if_false]; exact .readImage s (romIndex_lt hs _ _)
    · simp only [busExec, execCartDRdRam, onD, hc, hp', if_false]; exact .next rfl

theorem selectWrite_completes {s : State} {c : Cart} (hc : s.cart = some c) (hv : VariantUsable s)
    {a : Addr} {d : Byte} {i : Instr} (h : selectWrite c.mbc.variant a d = some i) : Completes s (busExec i s) := by
  obtain ⟨img, mbc⟩ := c
  have hp := hv _ hc
  unfold selectWrite at h
  cases mbc with
  | fixed =>
    split_ifs at h <;> cases h <;> simp only [busExec, execCartFWrRom, execCartFWrRam, onFixed, hc] <;> exact .next rfl
  | a m =>
    have hp' : ¬ s.cfg.variantAcdModel = .unspecified := by rw [hp rfl]; simp
    split_ifs at h <;> cases h <;>
      simp only [busExec, execCartAWrRamen, execCartAWrBank1, execCartAWrBank2, execCartAWrMode, execCartAWrRam,
        onA, hc, hp', if_false] <;> exact .next rfl
  | b m =>
    split_ifs at h <;> cases h <;>
      simp only [busExec, execCartBWrRamen, execCartBWrRomb, execCartBWrHi, execCartBWrRam, onB, hc] <;>
      exact .next rfl
  | c m =>
    have hp' : ¬ s.cfg.variantAcdModel = .unspecified := by rw [hp rfl]; simp
    split_ifs at h <;> cases h <;>
      simp only [busExec, execCartCWrRamen, execCartCWrRomb, execCartCWrRamsel, execCartCWrLatch, execCartCWrRam,
        onC, hc, hp', if_false] <;> exact .next rfl
  | d m =>
    have hp' : ¬ s.cfg.variantAcdModel = .unspecified := by rw [hp rfl]; simp
    split_ifs at h <;> cases h <;>
      simp only [busExec, execCartDWrRamen, execCartDWrRombLo, execCartDWrRombHi, execCartDWrRamb, execCartDWr6000,
        execCartDWrRam, onD, hc, hp', if_false] <;> exact .next rfl

/-- A ready bus stays ready under whatever keeps the cartridge and the parameters. -/
theorem BusReady.of_frame {s t : State} (h : BusReady s) (f : BusFrame s t) : BusReady t := by
  obtain ⟨⟨c, hc, ok⟩, hb, hv⟩ := h
  obtain ⟨m, hm, vm, om⟩ := f.cart c hc
  refine ⟨⟨_, hm, ok.1, ok.2.1, om ok.2.2⟩, ?_, ?_⟩
  · intro img m' h'
    rw [hm] at h'
    cases h'
    obtain ⟨img, mbc⟩ := c
    cases mbc with
    | b m0 => exact hb _ _ hc
    | fixed => cases vm
    | a _ => cases vm
    | c _ => cases vm
    | d _ => cases vm
  · intro c' h' g
    rw [hm] at h'
    cases h'
    rw [f.cfg]
    exact hv c hc (vm ▸ g)

/-- Every CPU access completes on a ready bus, without a mark (R120, R252, R290). -/
theorem busAccess_completes (a : Access) (s : State) (h : BusReady s) : Completes s (busAccess a s) := by
  obtain ⟨⟨c, hc, ok⟩, hb, hv⟩ := h
  have hctx : (s.context false).variant = some c.mbc.variant := by simp [State.context, hc]
  have hacd : c.mbc.variant.governedByAcdModel = true → (s.context false).acd = .physical := hv c hc
  have key : ∀ w i, decode (s.context false) w = .ok i → accessWord? a = some w → Completes s (busExec i s) →
      Completes s (busAccess a s) := by
    intro w i hd hw ⟨t, ht, mt⟩
    rw [busAccess_of_ok hw hd, ht]
    exact .next mt
  cases a with
  | read a =>
    cases hb' : busTarget a with
    | surface =>
      have hs : routedSurface a = true := by
        unfold busTarget at hb'; by_contra n; rw [if_neg n] at hb'; split at hb' <;> cases hb'
      refine key _ _ (decode_envReadWord _ a hs) (by simp [accessWord?, hb']) ?_
      exact ⟨s.respond (s.memRead a.toNat), if_pos hs, rfl⟩
    | cartridge =>
      have hs : routedCart a = true := by
        unfold busTarget at hb'; by_contra n; rw [if_neg n] at hb'; split at hb' <;> cases hb'
      obtain ⟨i, hi, hd⟩ := decode_cartReadWord (s.context false) a _ hs hctx hacd
      exact key _ i hd (by simp [accessWord?, hb']) (selectRead_completes hc ok hb hv hi)
    | outside =>
      unfold busAccess
      simp only [accessWord?, hb']
      exact .next rfl
  | write a d =>
    cases hb' : busTarget a with
    | surface =>
      have hs : routedSurface a = true := by
        unfold busTarget at hb'; by_contra n; rw [if_neg n] at hb'; split at hb' <;> cases hb'
      refine key _ _ (decode_envWriteWord _ a d hs) (by simp [accessWord?, hb']) ?_
      split_ifs
      · exact .next rfl
      · exact .next rfl
      · exact ⟨s.memWrite a.toNat d, if_pos hs, by simp⟩
    | cartridge =>
      have hs : routedCart a = true := by
        unfold busTarget at hb'; by_contra n; rw [if_neg n] at hb'; split at hb' <;> cases hb'
      obtain ⟨i, hi, hd⟩ := decode_cartWriteWord (s.context false) a d _ hs hctx hacd
      exact key _ i hd (by simp [accessWord?, hb']) (selectWrite_completes hc hv hi)
    | outside =>
      unfold busAccess
      simp only [accessWord?, hb']
      exact .next rfl

/-- What a CPU read of the surface gives (R141, R358). -/
theorem busByte_surface (a : Addr) (s : State) (h : routedSurface a = true) :
    busByte a s = some (s.memRead a.toNat) := by
  have ht : busTarget a = .surface := if_pos h
  simp only [busByte, busWord, accessWord?, ht, decode_envReadWord _ a h]
  have he : busExec (.envRd a) s = .next (s.respond (s.memRead a.toNat)) := if_pos h
  rw [he]
  exact if_pos rfl

/-- Outside the block a CPU read gives nothing of the block (R87). -/
theorem busByte_outside (a : Addr) (s : State) (h : busTarget a = .outside) : busByte a s = none := by
  simp only [busByte, accessWord?, h]

/-- All the CPU's accesses of a step complete on a ready bus, without a mark. -/
theorem busAccesses_completes (l : List Access) (s : State) (hr : s.halted = false) (h : BusReady s) :
    Completes s (busAccesses l s) := by
  induction l generalizing s with
  | nil => exact .next rfl
  | cons a l ih =>
    obtain ⟨t, ht, mt⟩ := busAccess_completes a s h
    have htr : t.halted = false := (halted_of_marks mt).trans hr
    have hf := busAccess_frame a s t ht
    show Completes s (andThen (busAccess a s) (busAccesses l))
    rw [ht, andThen_of_running htr]
    obtain ⟨u, hu, mu⟩ := ih t htr (h.of_frame hf)
    exact ⟨u, hu, mu.trans mt⟩

end Sys2Proof.Machine
end

