-- ==== Sys2Proof/Laws/Raster.lean ====
section
/-! SUPPORT. The rasterizer's cells: what a row write does to each pixel, the spec's integer form of a
background pixel and of a sprite pixel (R190 to R210), and the pixel sink's calls as row writes. -/

namespace Sys2Proof.Machine

/-! ## Cells -/

/-- A row write, cell by cell. -/
theorem pixel_setRow (s : State) (y : Nat) (row : Row) (x y' : Nat) :
    (s.setRow y row).pixel? x y' = if y' = y ∧ y < 144 then row[x]? else s.pixel? x y' := by
  unfold State.pixel? State.setRow
  by_cases h : y' = y
  · subst h
    by_cases h2 : y' < 144
    · simp [h2]
    · simp [h2]
  · have h' : ¬ y = y' := fun e => h e.symm
    simp [h, h', Vector.getElem?_setIfInBounds_ne]

theorem setRow_setRow (s : State) (y : Nat) (r r' : Row) : (s.setRow y r).setRow y r' = s.setRow y r' := by
  simp [State.setRow, Vector.setIfInBounds_setIfInBounds]

theorem fb_setRow (s : State) (y : Nat) (row : Row) (h : y < 144) : (s.setRow y row).fb[y]? = some row := by
  simp [State.setRow, h]

/-- A call of the sink inside the grid (R362). -/
theorem setPixel_of_row {s : State} {y : Nat} {row : Row} (h : s.fb[y]? = some row) {x : Nat} (hx : x < 160)
    (v : Shade) : setPixel x y v s = .next (s.setRow y (row.setIfInBounds x v)) := by
  simp [setPixel, h, hx]

theorem pixel_of_row {s : State} {y : Nat} {row : Row} (h : s.fb[y]? = some row) (x : Nat) :
    s.pixel? x y = row[x]? := by simp [State.pixel?, h]

/-! ## The spec's integers -/

theorem palSpec_eq (p : Byte) (id : Shade) : palSpec p id.toNat = palMap p id := by
  unfold palSpec palMap
  apply BitVec.eq_of_toNat_eq
  simp [Nat.shiftRight_eq_div_pow]

theorem idSpec_eq (lo hi : Byte) (b : ℤ) : idSpec lo hi b = (planeId lo hi b.toNat).toNat := by
  unfold idSpec planeId
  cases testBit hi b.toNat <;> cases testBit lo b.toNat <;> rfl

theorem windowActiveSpec_eq (s : State) (x y : Nat) :
    windowActiveSpec s x y = windowActive (s.io .lcdc) (s.io .wy) (s.io .wx) x y := by
  unfold windowActiveSpec windowActive winOn
  congr 1
  rw [decide_eq_decide]
  omega

theorem tileDataSpec_eq (idx : Byte) (sel : Bool) : tileDataSpec idx sel = (tileDataAddr idx sel : ℤ) := by
  unfold tileDataSpec tileDataAddr
  cases sel
  · have := BitVec.le_toInt idx
    simp only [Bool.false_eq_true, if_false]
    push_cast
    omega
  · simp

/-- The integers of a background pixel are the machine's numbers (R191 to R195). -/
theorem tileCoordSpec_eq (s : State) (x y : Nat) :
    tileCoordSpec s x y =
      (let active := windowActive (s.io .lcdc) (s.io .wy) (s.io .wx) x y
       let xy := if active then winCoord (s.io .wx) (s.io .wy) x y else bgCoord (s.io .scx) (s.io .scy) x y
       (mapBase (if active then winMapSelect (s.io .lcdc) else bgMapSelect (s.io .lcdc)),
        (xy.1 : ℤ), (xy.2 : ℤ))) := by
  unfold tileCoordSpec
  rw [windowActiveSpec_eq]
  cases h : windowActive (s.io .lcdc) (s.io .wy) (s.io .wx) x y
  · simp only [Bool.false_eq_true, if_false, bgCoord, mapBase, bgMapSelect]
    push_cast
    rfl
  · simp only [if_true, winCoord, mapBase, winMapSelect]
    unfold windowActive at h
    simp only [Bool.and_eq_true, decide_eq_true_eq] at h
    have h1 : (x : ℤ) - (((s.io .wx).toNat : ℤ) - 7) = ((x + 7 - (s.io .wx).toNat : Nat) : ℤ) := by omega
    have h2 : (y : ℤ) - ((s.io .wy).toNat : ℤ) = ((y - (s.io .wy).toNat : Nat) : ℤ) := by omega
    rw [h1, h2]

/-- A pixel of the background pass is the spec's (R190 to R199). -/
theorem bgWinPixelSpec_eq (s : State) (x y : Nat) : bgWinPixelSpec s x y = bgWinPixel s x y := by
  unfold bgWinPixelSpec bgWinPixel
  rw [tileCoordSpec_eq]
  simp only [tileDataSpec_eq, idSpec_eq, palSpec_eq, colorId, planeAddr, mapEntryAddr, unsignedTiles]
  generalize (if windowActive (s.io .lcdc) (s.io .wy) (s.io .wx) x y = true then _ else _ : Nat × Nat) = xy
  have e1 : ∀ m : Nat, ((m : ℤ) + (xy.2 : ℤ) / 8 * 32 + (xy.1 : ℤ) / 8).toNat = m + xy.2 / 8 * 32 + xy.1 / 8 := by
    intro m; omega
  have e2 : ∀ b : Nat, ((b : ℤ) + 2 * ((xy.2 : ℤ) % 8)).toNat = b + 2 * (xy.2 % 8) := by intro b; omega
  have e3 : ∀ b : Nat, ((b : ℤ) + 2 * ((xy.2 : ℤ) % 8) + 1).toNat = b + 2 * (xy.2 % 8) + 1 := by intro b; omega
  have e4 : (7 - (xy.1 : ℤ) % 8).toNat = 7 - xy.1 % 8 := by omega
  rw [e1, e2, e3, e4]

/-! ## Statements in order -/

@[simp] theorem inOrder_nil (s : State) : inOrder [] s = .next s := rfl

theorem foldl_andThen_halted {s : State} (h : s.halted = true) (l : List (State → Result)) :
    l.foldl andThen (.next s) = .next s := by
  induction l with
  | nil => rfl
  | cons f l ih => rw [List.foldl_cons, andThen_next, if_pos h]; exact ih

theorem inOrder_of_halted {s : State} (h : s.halted = true) (l : List (State → Result)) :
    inOrder l s = .next s := foldl_andThen_halted h l

/-- The first statement runs, and the others after it. -/
theorem inOrder_cons {s t : State} (h : s.halted = false) {f : State → Result} (hf : f s = .next t)
    (l : List (State → Result)) : inOrder (f :: l) s = inOrder l t := by
  unfold inOrder
  rw [List.foldl_cons, andThen_of_running h, hf]

/-! ## The pixel sink's calls as one row write -/

theorem setRow_self (s : State) (y : Nat) (h : y < 144) : s.setRow y s.fb[y] = s := by
  have : s.fb.setIfInBounds y s.fb[y] = s.fb := by
    apply Vector.ext
    intro i hi
    simp only [Vector.getElem_setIfInBounds, ite_eq_right_iff]
    rintro rfl; rfl
  simp [State.setRow, this]

/-- Calls of the sink along one row write that row once. -/
theorem inOrder_setPixel (line : Nat) (hl : line < 144) (f : State → Nat → Shade)
    (hf : ∀ s row x, f (s.setRow line row) x = f s x) : ∀ (l : List Nat) (s : State) (row : Row),
    s.halted = false → (∀ x ∈ l, x < 160) →
    inOrder (l.map (fun x t => setPixel x line (f t x) t)) (s.setRow line row)
      = .next (s.setRow line (l.foldl (fun r x => r.setIfInBounds x (f s x)) row)) := by
  intro l
  induction l with
  | nil => intro s row _ _; rfl
  | cons x l ih =>
    intro s row hr hx
    rw [List.map_cons, inOrder_cons (f := fun t => setPixel x line (f t x) t) (by simpa using hr)
        (setPixel_of_row (fb_setRow s line row hl) (hx x (by simp)) _),
      setRow_setRow, hf, ih s _ hr (fun y hy => hx y (by simp [hy]))]
    rfl

/-- A row after each listed cell was written. -/
theorem foldl_setIfInBounds_get (f : Nat → Shade) (l : List Nat) (row : Row) (x : Nat) (hx : x < 160) :
    (l.foldl (fun r y => r.setIfInBounds y (f y)) row)[x] = if x ∈ l then f x else row[x] := by
  induction l generalizing row with
  | nil => simp
  | cons y l ih =>
    rw [List.foldl_cons, ih]
    by_cases h : x ∈ l
    · simp [h]
    · by_cases e : x = y
      · subst e; simp [h]
      · have e' : ¬ y = x := fun c => e c.symm
        simp [h, e, e']

/-! ## Sprites -/

theorem behindShadeSpec_eq (s : State) : behindShadeSpec s = behindShade s := by
  unfold behindShadeSpec behindShade
  cases s.cfg.behindTest
  · simp only [palMap_zero]
    apply BitVec.eq_of_getLsbD_eq
    intro i hi
    have : i = 0 ∨ i = 1 := by omega
    rcases this with rfl | rfl <;> simp
  · rfl

theorem heightSpec_eq (s : State) : heightSpec s = (spriteHeight (s.io .lcdc) : ℤ) := by
  unfold heightSpec spriteHeight tallSprites
  cases testBit (s.io .lcdc) 2 <;> rfl

/-- The span test (R203). -/
theorem spriteCovers_iff (oy : Byte) (line h : Nat) :
    spriteCovers oy line h = true
      ↔ (oy.toNat : ℤ) - 16 ≤ (line : ℤ) ∧ (line : ℤ) < (oy.toNat : ℤ) - 16 + (h : ℤ) := by
  simp only [spriteCovers, Bool.and_eq_true, decide_eq_true_eq]
  omega

/-- The tile row of an entry that covers the line (R204, R205). -/
theorem spriteAddrSpec_eq (mask : Bool) (tile oy : Byte) (line h : Nat) (yflip : Bool)
    (hc : spriteCovers oy line h = true) :
    spriteAddrSpec mask tile (spriteRowSpec ((line : ℤ) - ((oy.toNat : ℤ) - 16)) h yflip) h
      = (spriteRowAddr mask tile (spriteRow oy line h yflip) h : ℤ) := by
  rw [spriteCovers_iff] at hc
  have hr : spriteRowSpec ((line : ℤ) - ((oy.toNat : ℤ) - 16)) h yflip = (spriteRow oy line h yflip : ℤ) := by
    unfold spriteRowSpec spriteRow
    cases yflip <;> simp <;> omega
  rw [hr]
  unfold spriteAddrSpec spriteRowAddr
  have hh : (h : ℤ) = 16 ↔ h = 16 := by omega
  simp only [hh]
  push_cast
  split_ifs <;> rfl

/-- What the sprite pass does with one opaque pixel on screen (R208). -/
def drawSpec (line : Nat) (p : SpritePixel) (s : State) : Result :=
  if p.behind = true then
    withPixel p.x line s (fun v => if v = behindShade s then setPixel p.x line p.shade s else .next s)
  else setPixel p.x line p.shade s

/-- One column of an entry that covers the line (R206, R207, R209, R210). -/
theorem objColumnSpec_eq (line i c : Nat) (s : State)
    (hc : spriteCovers (s.memRead (oamEntry i)) line (spriteHeight (s.io .lcdc)) = true) :
    objColumnSpec line i c s =
      (let e := oamEntry i
       let h := spriteHeight (s.io .lcdc)
       let attr := s.memRead (e + 3)
       let addr := spriteRowAddr s.cfg.tallSpriteMaskLsb (s.memRead (e + 2))
        (spriteRow (s.memRead e) line h (testBit attr 6)) h
       match spritePixel (s.memRead addr) (s.memRead (addr + 1)) attr
         (if testBit attr 4 then s.io .obp1 else s.io .obp0) (s.memRead (e + 1)) c with
       | none => .next s
       | some p => drawSpec line p s) := by
  unfold objColumnSpec
  rw [heightSpec_eq]
  have eo : 0xFE00 + 4 * i = oamEntry i := rfl
  simp only [eo]
  rw [spriteAddrSpec_eq _ _ _ _ _ _ hc]
  generalize spriteRowAddr s.cfg.tallSpriteMaskLsb (s.memRead (oamEntry i + 2))
        (spriteRow (s.memRead (oamEntry i)) line (spriteHeight (s.io .lcdc)) (testBit (s.memRead (oamEntry i + 3)) 6)) (spriteHeight (s.io .lcdc)) = addr
  have e1 : ((addr : ℤ) + 1).toNat = addr + 1 := by omega
  have e2 : ((addr : ℤ)).toNat = addr := by omega
  rw [e1, e2, behindShadeSpec_eq]
  generalize s.memRead (oamEntry i + 3) = attr
  generalize s.memRead (oamEntry i + 1) = ox
  generalize s.memRead addr = lo
  generalize s.memRead (addr + 1) = hi
  have eb : (spriteBitSpec c (testBit attr 5)).toNat = spriteBit c (testBit attr 5) := by
    unfold spriteBitSpec spriteBit
    cases testBit attr 5 <;> simp
  rw [idSpec_eq, eb, palSpec_eq]
  unfold spritePixel
  dsimp only
  by_cases h0 : planeId lo hi (spriteBit c (testBit attr 5)) = 0
  · rw [if_pos h0, if_pos (by rw [h0]; rfl)]
  · have h0' : ¬ (planeId lo hi (spriteBit c (testBit attr 5))).toNat = 0 := by
      intro e; exact h0 (BitVec.eq_of_toNat_eq e)
    rw [if_neg h0, if_neg h0']
    unfold spriteColumn
    by_cases hx : 8 ≤ ox.toNat + c ∧ ox.toNat + c < 168
    · have hx' : ¬ ((ox.toNat : ℤ) - 8 + (c : ℤ) < 0 ∨ 159 < (ox.toNat : ℤ) - 8 + (c : ℤ)) := by omega
      have ex : ((ox.toNat : ℤ) - 8 + (c : ℤ)).toNat = ox.toNat + c - 8 := by omega
      rw [if_neg hx', if_pos hx, ex]
      rfl
    · have hx' : ((ox.toNat : ℤ) - 8 + (c : ℤ) < 0 ∨ 159 < (ox.toNat : ℤ) - 8 + (c : ℤ)) := by omega
      rw [if_pos hx', if_neg hx]
      rfl
/-- One opaque pixel on an existing row. -/
theorem drawSpec_of_row {line : Nat} (s : State) (row : Row) (hl : line < 144)
    (p : SpritePixel) (hx : p.x < 160) :
    drawSpec line p (s.setRow line row) = .next (s.setRow line (drawPixel (behindShade s) row p)) := by
  have hrow := fb_setRow s line row hl
  have hb : behindShade (s.setRow line row) = behindShade s := rfl
  have hget : row[p.x]? = some row[p.x] := by simp [hx]
  unfold drawSpec drawPixel withPixel
  rw [pixel_of_row hrow, hget, setPixel_of_row hrow hx, hb, setRow_setRow]
  cases p.behind
  · simp
  · by_cases e : row[p.x] = behindShade s
    · simp [e]
    · simp [e]

/-- One opaque pixel on a row that does not exist faults. -/
theorem drawSpec_of_ge {line : Nat} (s : State) (hl : 144 ≤ line) (p : SpritePixel) :
    drawSpec line p s = .next (s.raise (.outOfRangePixel p.x line)) := by
  have h1 : s.fb[line]? = none := by simp [hl]
  unfold drawSpec withPixel setPixel State.pixel?
  simp [h1]

theorem spritePixel_x {lo hi attr pal ox : Byte} {c : Nat} {p : SpritePixel}
    (h : spritePixel lo hi attr pal ox c = some p) : p.x < 160 := by
  unfold spritePixel spriteColumn at h
  dsimp only at h
  split_ifs at h with h1 h2
  · simp at h; subst h; simp; omega
  · simp at h

/-- The pixels of a list of columns, drawn in order. -/
theorem inOrder_columns_row (line i : Nat) (hl : line < 144) (f : Nat → Option SpritePixel) (hfx : ∀ c p, f c = some p → p.x < 160)
    (s : State) (hr : s.halted = false) (l : List Nat)
    (hf : ∀ c ∈ l, ∀ row, objColumnSpec line i c (s.setRow line row) = match f c with
       | none => .next (s.setRow line row)
       | some p => drawSpec line p (s.setRow line row)) : ∀ (row : Row),
    inOrder (l.map (objColumnSpec line i)) (s.setRow line row)
      = .next (s.setRow line ((l.filterMap f).foldl (drawPixel (behindShade s)) row)) := by
  induction l with
  | nil => intro row; rfl
  | cons c l ih =>
    intro row
    have h1 := hf c (by simp) row
    cases hc : f c with
    | none =>
      rw [hc] at h1
      rw [List.map_cons, inOrder_cons (by simpa using hr) h1, ih (fun d hd => hf d (by simp [hd])), List.filterMap_cons_none hc]
    | some p =>
      rw [hc] at h1
      rw [List.map_cons, inOrder_cons (by simpa using hr) (h1.trans (drawSpec_of_row s row hl p (hfx c p hc))), ih (fun d hd => hf d (by simp [hd])), List.filterMap_cons_some hc]
      rfl

theorem inOrder_columns_none (line i : Nat) (hl : 144 ≤ line) (f : Nat → Option SpritePixel)
    (s : State) (hr : s.halted = false) (l : List Nat)
    (hf : ∀ c ∈ l, objColumnSpec line i c s = match f c with
       | none => .next s
       | some p => drawSpec line p s) :
    inOrder (l.map (objColumnSpec line i)) s = match l.filterMap f with
      | [] => .next s
      | p :: _ => .next (s.raise (.outOfRangePixel p.x line)) := by
  induction l with
  | nil => rfl
  | cons c l ih =>
    have h1 := hf c (by simp)
    cases hc : f c with
    | none =>
      rw [hc] at h1
      rw [List.map_cons, inOrder_cons hr h1, ih (fun d hd => hf d (by simp [hd])), List.filterMap_cons_none hc]
    | some p =>
      rw [hc] at h1
      rw [List.map_cons, inOrder_cons hr (h1.trans (drawSpec_of_ge s hl p)), inOrder_of_halted (by simp), List.filterMap_cons_some hc]

/-- One entry on an existing row (R201 to R210). -/
theorem objEntrySpec_row (line i : Nat) (hl : line < 144) (s : State) (hr : s.halted = false) (row : Row) :
    objEntrySpec line i (s.setRow line row)
      = .next (s.setRow line ((spritePixels s line i).foldl (drawPixel (behindShade s)) row)) := by
  unfold objEntrySpec spritePixels
  rw [heightSpec_eq]
  dsimp only
  by_cases hc : spriteCovers (s.memRead (oamEntry i)) line (spriteHeight (s.io .lcdc)) = true
  · have hc' := (spriteCovers_iff _ _ _).mp hc
    rw [if_pos hc]
    refine (if_pos hc').trans ?_
    refine inOrder_columns_row line i hl _ ?_ s hr _ ?_ row
    · intro c p h; exact spritePixel_x h
    · intro c _ row
      exact objColumnSpec_eq line i c (s.setRow line row) hc
  · have hc' := fun h => hc ((spriteCovers_iff _ _ _).mpr h)
    rw [if_neg hc]
    exact if_neg hc'

/-- One entry on a row that does not exist: its first pixel faults. -/
theorem objEntrySpec_none (line i : Nat) (hl : 144 ≤ line) (s : State) (hr : s.halted = false) :
    objEntrySpec line i s = match spritePixels s line i with
      | [] => .next s
      | p :: _ => .next (s.raise (.outOfRangePixel p.x line)) := by
  unfold objEntrySpec spritePixels
  rw [heightSpec_eq]
  dsimp only
  by_cases hc : spriteCovers (s.memRead (oamEntry i)) line (spriteHeight (s.io .lcdc)) = true
  · have hc' := (spriteCovers_iff _ _ _).mp hc
    rw [if_pos hc]
    refine (if_pos hc').trans ?_
    refine inOrder_columns_none line i hl _ s hr _ ?_
    intro c _
    exact objColumnSpec_eq line i c s hc
  · have hc' := fun h => hc ((spriteCovers_iff _ _ _).mpr h)
    rw [if_neg hc]
    exact if_neg hc'

/-- Entries in order on an existing row (R211). -/
theorem inOrder_entries_row (line : Nat) (hl : line < 144) (s : State) (hr : s.halted = false) (l : List Nat) :
    ∀ row : Row,
    inOrder (l.map (objEntrySpec line)) (s.setRow line row)
      = .next (s.setRow line ((l.flatMap (spritePixels s line)).foldl (drawPixel (behindShade s)) row)) := by
  induction l with
  | nil => intro row; rfl
  | cons i l ih =>
    intro row
    rw [List.map_cons, inOrder_cons (by simpa using hr) (objEntrySpec_row line i hl s hr row), ih, List.flatMap_cons, List.foldl_append]

/-- Entries in order on a row that does not exist. -/
theorem inOrder_entries_none (line : Nat) (hl : 144 ≤ line) (s : State) (hr : s.halted = false) (l : List Nat) :
    inOrder (l.map (objEntrySpec line)) s = match l.flatMap (spritePixels s line) with
      | [] => .next s
      | p :: _ => .next (s.raise (.outOfRangePixel p.x line)) := by
  induction l with
  | nil => rfl
  | cons i l ih =>
    have h1 := objEntrySpec_none line i hl s hr
    rw [List.flatMap_cons]
    cases hp : spritePixels s line i with
    | nil =>
      rw [hp] at h1
      rw [List.map_cons, inOrder_cons hr h1, ih]; rfl
    | cons p ps =>
      rw [hp] at h1
      rw [List.map_cons, inOrder_cons hr h1, inOrder_of_halted (by simp)]; rfl

end Sys2Proof.Machine
end

