-- ==== Sys2Proof/Laws/PpuRun.lean ====
section
/-! SUPPORT. R150's loop as a run of internal events: it always ends, it is determined by its start, the
cycles can be handed over in parts, and what the loop does not read does not matter (R150, R152, R166). -/

namespace Sys2Proof.Machine

/-! ## Turns -/

theorem rasterBgWin_next (line : Nat) (s : State) : ∃ u, rasterBgWin line s = .next u ∧ u.ppu = s.ppu := by
  unfold rasterBgWin
  split
  · exact ⟨_, rfl, rfl⟩
  · exact ⟨_, rfl, rfl⟩

theorem rasterObj_next (line : Nat) (s : State) : ∃ u, rasterObj line s = .next u ∧ u.ppu = s.ppu := by
  unfold rasterObj
  split
  · exact ⟨_, rfl, rfl⟩
  · split
    · exact ⟨_, rfl, rfl⟩
    · exact ⟨_, rfl, rfl⟩

theorem tVramHblank_next (s : State) : ∃ u, execPpuTVramHblank s = .next u ∧ u.ppu = s.ppu := by
  unfold execPpuTVramHblank
  obtain ⟨u, hu, pu⟩ := rasterBgWin_next s.line s
  rw [hu, andThen_next]
  split
  · exact ⟨u, rfl, pu⟩
  · obtain ⟨v, hv, pv⟩ := rasterObj_next u.line u
    rw [hv, andThen_next]
    split
    · exact ⟨v, rfl, pv.trans pu⟩
    · exact ⟨_, rfl, by rw [ppu_enterHblank, pv, pu]⟩

/-- A turn's event is the transition of the mode (R150). -/
theorem exec_turnEvent (s : State) (n : Nat) : exec (turnEvent s) (s.setCounter n) = transition (s.setCounter n) := by
  unfold turnEvent transition
  rw [mode_setCounter, line_setCounter]
  cases s.mode
  · by_cases h : s.line + 1 = 144
    · simp only [h, if_true]; rfl
    · simp only [h, if_false]; rfl
  · by_cases h : s.line = 153
    · simp only [h, if_true]; rfl
    · simp only [h, if_false]; rfl
  · rfl
  · rfl

/-- A transition answers a next state, and does not touch the counter (R153 to R158). -/
theorem transition_next (s : State) : ∃ u, transition s = .next u ∧ u.ppu.counter = s.ppu.counter := by
  unfold transition
  cases s.mode
  · dsimp only
    split
    · exact ⟨_, rfl, rfl⟩
    · exact ⟨_, rfl, by simp⟩
  · dsimp only
    split
    · exact ⟨_, rfl, by simp⟩
    · exact ⟨_, rfl, rfl⟩
  · exact ⟨_, rfl, rfl⟩
  · obtain ⟨u, hu, pu⟩ := tVramHblank_next s
    exact ⟨u, hu, by rw [pu]⟩

/-! ## The loop is the run -/

/-- With enough fuel the loop is a run of events (R150). -/
theorem loopRun_of_advanceLoop (n : Nat) : ∀ s : State, s.halted = false → s.ppu.counter / 80 < n →
    ∃ events t, LoopRun s events t ∧ advanceLoop n s = .next t := by
  induction n with
  | zero => intro s _ h; omega
  | succ n ih =>
    intro s hr hn
    unfold advanceLoop
    by_cases hc : s.ppu.counter < threshold s.mode
    · exact ⟨[], s, .exit hc, if_pos hc⟩
    · rw [if_neg hc]
      obtain ⟨u, hu, cu⟩ := transition_next (s.setCounter (s.ppu.counter - threshold s.mode))
      have run := (exec_turnEvent s _).trans hu
      have h80 := threshold_pos s.mode
      rw [hu, andThen_next]
      cases hur : u.halted with
      | true => exact ⟨_, u, .stop (by omega) run (by rw [running_iff, hur]; simp), rfl⟩
      | false =>
        obtain ⟨ev, t, hrun, ht⟩ := ih u hur (by rw [cu, State.counter_setCounter]; omega)
        exact ⟨_, t, .turn (by omega) run ((running_iff u).mpr hur) hrun, ht⟩

/-- A run is determined by its start. -/
theorem LoopRun.unique {s t : State} {ev : List Instr} (h : LoopRun s ev t) :
    ∀ {ev' : List Instr} {t' : State}, LoopRun s ev' t' → ev = ev' ∧ t = t' := by
  induction h with
  | exit h =>
    intro ev' t' h'
    cases h' with
    | exit _ => exact ⟨rfl, rfl⟩
    | turn g _ _ _ => omega
    | stop g _ _ => omega
  | turn h run going _ ih =>
    intro ev' t' h'
    cases h' with
    | exit g => omega
    | turn g run' going' rest' =>
      rw [run] at run'
      cases run'
      obtain ⟨e, f⟩ := ih rest'
      exact ⟨by rw [e], f⟩
    | stop g run' marked' =>
      rw [run] at run'
      cases run'
      exact absurd going marked'
  | stop h run marked =>
    intro ev' t' h'
    cases h' with
    | exit g => omega
    | turn g run' going' rest' =>
      rw [run] at run'
      cases run'
      exact absurd going' marked
    | stop g run' marked' =>
      rw [run] at run'
      cases run'
      exact ⟨rfl, rfl⟩

/-- A run from a state whose mode and line agree never stops on a mark, and ends in `PpuOk` (R162). -/
theorem LoopRun.ok {s t : State} {ev : List Instr} (h : LoopRun s ev t) (hr : s.Running) (hl : PpuLines s) :
    t.Running ∧ PpuOk t := by
  induction h with
  | exit h => exact ⟨hr, hl, h⟩
  | @turn s u t ev h run going _ ih =>
    obtain ⟨v, hv, hvr, hvl, _⟩ := transition_ok (s.setCounter (s.ppu.counter - threshold s.mode))
      ((running_iff s).mp hr) (hl.setCounter _)
    rw [exec_turnEvent, hv] at run
    cases run
    exact ih going hvl
  | @stop s u h run marked =>
    obtain ⟨v, hv, hvr, hvl, _⟩ := transition_ok (s.setCounter (s.ppu.counter - threshold s.mode))
      ((running_iff s).mp hr) (hl.setCounter _)
    rw [exec_turnEvent, hv] at run
    cases run
    exact absurd ((running_iff _).mpr hvr) marked

/-- From every state without a mark there is a run. -/
theorem LoopRun.exists (s : State) (hr : s.Running) : ∃ ev t, LoopRun s ev t := by
  obtain ⟨ev, t, h, _⟩ := loopRun_of_advanceLoop (s.ppu.counter / 80 + 1) s ((running_iff s).mp hr) (by omega)
  exact ⟨ev, t, h⟩

/-! ## Handing over the cycles in parts -/

/-- The answer with its counter replaced. -/
def Result.withCounter (o : Result) (n : Nat) : Result :=
  match o with
  | .next u => .next (u.setCounter n)
  | .fault f => .fault f
  | .refused r => .refused r

theorem andThen_withCounter {o : Result} {f g : State → Result} (n : Nat)
    (h : ∀ s, g (s.setCounter n) = (f s).withCounter n) :
    andThen (o.withCounter n) g = (andThen o f).withCounter n := by
  cases o with
  | next s =>
    show andThen (.next (s.setCounter n)) g = _
    rw [andThen_next, andThen_next, halted_setCounter, h]
    split <;> rfl
  | fault _ => rfl
  | refused _ => rfl

theorem rasterBgWin_setCounter (line n : Nat) (s : State) :
    rasterBgWin line (s.setCounter n) = (rasterBgWin line s).withCounter n := by
  unfold rasterBgWin
  split <;> rfl

theorem rasterObj_setCounter (line n : Nat) (s : State) :
    rasterObj line (s.setCounter n) = (rasterObj line s).withCounter n := by
  have h1 : objPixels (s.setCounter n) line = objPixels s line := rfl
  have h2 : behindShade (s.setCounter n) = behindShade s := rfl
  have h3 : (s.setCounter n).fb = s.fb := rfl
  unfold rasterObj
  rw [h1, h2, h3]
  split
  · rfl
  · split <;> rfl

theorem requestIf_setCounter (s : State) (n : Nat) (c : Bool) (l : Nat) :
    (s.setCounter n).requestIf c l = (s.requestIf c l).setCounter n := by cases c <;> rfl

/-- No transition reads or writes the counter. -/
theorem transition_setCounter (s : State) (n : Nat) :
    transition (s.setCounter n) = (transition s).withCounter n := by
  have hb : ∀ u : State, enterHblank (u.setCounter n) = (enterHblank u).setCounter n := fun u =>
    requestIf_setCounter (u.setMode .hblank) n _ _
  have ho : ∀ u : State, enterOam (u.setCounter n) = (enterOam u).setCounter n := fun u =>
    requestIf_setCounter (u.setMode .oam) n _ _
  unfold transition
  rw [mode_setCounter, line_setCounter]
  cases s.mode
  · dsimp only
    split
    · rfl
    · exact congrArg Host.Outcome.next (ho (s.setIo .ly (s.io .ly + 1)))
  · dsimp only
    split
    · exact congrArg Host.Outcome.next (ho (s.setIo .ly 0))
    · rfl
  · rfl
  · show andThen (rasterBgWin s.line (s.setCounter n)) _ = _
    rw [rasterBgWin_setCounter]
    refine andThen_withCounter n (fun u => ?_)
    show andThen (rasterObj u.line (u.setCounter n)) _ = _
    rw [rasterObj_setCounter]
    refine andThen_withCounter n (fun v => ?_)
    exact congrArg Host.Outcome.next (hb v)

/-- Cycles handed over later join the run: the loop on `a + b` cycles is the loop on `a`, then on `b`
from where it ended (R152). -/
theorem LoopRun.add {s u t : State} {ev ev' : List Instr} (b : Nat) (h : LoopRun s ev u) (hu : u.Running)
    (h' : LoopRun (u.setCounter (u.ppu.counter + b)) ev' t) :
    LoopRun (s.setCounter (s.ppu.counter + b)) (ev ++ ev') t := by
  induction h with
  | exit _ => exact h'
  | @turn s w u ev h run going _ ih =>
    have hm : (s.setCounter (s.ppu.counter + b)).mode = s.mode := rfl
    have he : turnEvent (s.setCounter (s.ppu.counter + b)) = turnEvent s := rfl
    have hc : (s.setCounter (s.ppu.counter + b)).ppu.counter = s.ppu.counter + b := rfl
    rw [List.cons_append, ← he]
    refine LoopRun.turn (u := w.setCounter (w.ppu.counter + b)) (by rw [hm, hc]; omega) ?_ going (ih hu h')
    rw [exec_turnEvent] at run ⊢
    rw [hm, hc]
    obtain ⟨v, hv, cv⟩ := transition_next (s.setCounter (s.ppu.counter - threshold s.mode))
    rw [hv] at run
    cases run
    have e : (s.setCounter (s.ppu.counter + b)).setCounter (s.ppu.counter + b - threshold s.mode)
        = (s.setCounter (s.ppu.counter - threshold s.mode)).setCounter (w.ppu.counter + b) := by
      rw [cv]
      show s.setCounter _ = s.setCounter _
      congr 1
      show _ = s.ppu.counter - threshold s.mode + b
      omega
    rw [e, transition_setCounter, hv]
    rfl
  | stop _ _ marked => exact absurd hu marked

end Sys2Proof.Machine
end

