-- ==== Sys2Proof/Laws/Orch.lean ====
section
/-! SUPPORT. What the dispatcher, a step and a tick can do, and that they complete on a ready bus (R350 to
R365). -/

namespace Sys2Proof.Machine

/-! ## Footprints -/

/-- What every operation of the orchestrator leaves alone, and what it keeps in form. -/
structure CoreFrame (s t : State) : Prop where
  cfg : t.cfg = s.cfg
  inbox : t.port.inbox = s.port.inbox
  loader : t.port.loader = s.port.loader
  shown : t.port.shown = s.port.shown
  carry : t.orch.carry = s.orch.carry
  done : t.orch.cyclesDone = s.orch.cyclesDone
  surface : SurfaceOk s.surface → SurfaceOk t.surface
  none : s.cart = none → t.cart = none
  cart : ∀ c, s.cart = some c → ∃ m, t.cart = some { img := c.img, mbc := m } ∧ m.variant = c.mbc.variant
    ∧ (MbcOk c.img.ramSize c.mbc → MbcOk c.img.ramSize m)
  marks : MarksKept s t

/-- The footprint of the collaborators and of the dispatcher: the PPU's state is untouched as well (R364). -/
structure QuietFrame (s t : State) : Prop extends CoreFrame s t where
  untouched : PpuUntouched s t

theorem PpuUntouched.refl (s : State) : PpuUntouched s s := ⟨fun _ _ => rfl, rfl, rfl, rfl⟩

theorem PpuUntouched.trans {s t u : State} (h : PpuUntouched s t) (g : PpuUntouched t u) : PpuUntouched s u :=
  ⟨fun i hi => (g.stat i hi).trans (h.stat i hi), g.ly.trans h.ly, g.ppu.trans h.ppu, g.fb.trans h.fb⟩

theorem CoreFrame.refl (s : State) : CoreFrame s s where
  cfg := rfl
  inbox := rfl
  loader := rfl
  shown := rfl
  carry := rfl
  done := rfl
  surface := id
  none := id
  cart c h := ⟨c.mbc, h, rfl, id⟩
  marks := .refl s

theorem CoreFrame.trans {s t u : State} (h : CoreFrame s t) (g : CoreFrame t u) : CoreFrame s u where
  cfg := g.cfg.trans h.cfg
  inbox := g.inbox.trans h.inbox
  loader := g.loader.trans h.loader
  shown := g.shown.trans h.shown
  carry := g.carry.trans h.carry
  done := g.done.trans h.done
  surface := g.surface ∘ h.surface
  none := g.none ∘ h.none
  cart c hc := by
    obtain ⟨m, hm, vm, om⟩ := h.cart c hc
    obtain ⟨m', hm', vm', om'⟩ := g.cart _ hm
    exact ⟨m', hm', vm'.trans vm, om' ∘ om⟩
  marks := h.marks.trans g.marks

theorem QuietFrame.refl (s : State) : QuietFrame s s := ⟨.refl s, .refl s⟩

theorem QuietFrame.trans {s t u : State} (h : QuietFrame s t) (g : QuietFrame t u) : QuietFrame s u :=
  ⟨h.toCoreFrame.trans g.toCoreFrame, h.untouched.trans g.untouched⟩

theorem BusFrame.quiet {s t : State} (h : BusFrame s t) : QuietFrame s t where
  cfg := h.cfg
  inbox := h.inbox
  loader := h.loader
  shown := h.shown
  carry := by rw [h.orch]
  done := by rw [h.orch]
  surface := h.surface
  none := h.none
  cart := h.cart
  marks := h.marks
  untouched := ⟨h.stat, h.ly, h.ppu, h.fb⟩

theorem PpuFrame.core {s t : State} (h : PpuFrame s t) : CoreFrame s t where
  cfg := h.cfg
  inbox := by rw [h.port]
  loader := by rw [h.port]
  shown := by rw [h.port]
  carry := by rw [h.orch]
  done := by rw [h.orch]
  surface ok := by rw [SurfaceOk, h.mem]; exact ok
  none hn := h.cart.trans hn
  cart c hc := ⟨c.mbc, h.cart.trans hc, rfl, id⟩
  marks := ⟨h.fault, fun x => by rw [h.refusal]; exact x⟩

/-- A change of the collaborators' state only. -/
theorem QuietFrame.ext (s : State) (e : Ext) : QuietFrame s { s with ext := e } :=
  ⟨⟨rfl, rfl, rfl, rfl, rfl, rfl, id, id, fun c h => ⟨c.mbc, h, rfl, id⟩, .of_eq rfl⟩, ⟨fun _ _ => rfl, rfl, rfl, rfl⟩⟩

/-- A change of the phase only. -/
theorem QuietFrame.setPhase (s : State) (p : Phase) : QuietFrame s (s.setPhase p) :=
  ⟨⟨rfl, rfl, rfl, rfl, rfl, rfl, id, id, fun c h => ⟨c.mbc, h, rfl, id⟩, .of_eq rfl⟩, ⟨fun _ _ => rfl, rfl, rfl, rfl⟩⟩

/-- A register that is neither STAT nor LY. -/
theorem QuietFrame.setIo (s : State) {r : Reg} (v : Byte) (h1 : r ≠ .stat) (h2 : r ≠ .ly) :
    QuietFrame s (s.setIo r v) :=
  ⟨⟨rfl, rfl, rfl, rfl, rfl, rfl, id, id, fun c h => ⟨c.mbc, h, rfl, id⟩, .of_eq rfl⟩,
    ⟨fun i _ => by simp [h1.symm], by simp [h2.symm], rfl, rfl⟩⟩

theorem QuietFrame.requestIf (s : State) (c : Bool) (l : Nat) : QuietFrame s (s.requestIf c l) := by
  cases c
  · exact .refl s
  · exact .setIo s _ (by decide) (by decide)

theorem PpuUntouched.mode {s t : State} (h : PpuUntouched s t) : t.mode = s.mode := by
  have e : (t.io .stat).toNat % 4 = (s.io .stat).toNat % 4 := by
    have : (t.io .stat).setWidth 2 = (s.io .stat).setWidth 2 := by
      apply BitVec.eq_of_getLsbD_eq
      intro i hi
      have := h.stat i (by omega)
      simp only [testBit] at this
      simp [hi, this]
    simpa using congrArg BitVec.toNat this
  unfold State.mode modeOf
  rw [e]

theorem PpuUntouched.line {s t : State} (h : PpuUntouched s t) : t.line = s.line := by
  unfold State.line
  rw [h.ly]

theorem PpuUntouched.ok {s t : State} (h : PpuUntouched s t) (ok : PpuOk s) : PpuOk t := by
  obtain ⟨⟨h1, h2⟩, h3⟩ := ok
  refine ⟨⟨?_, ?_⟩, ?_⟩
  · rw [h.mode, h.line]; exact h1
  · rw [h.mode, h.line]; exact h2
  · rw [h.mode, h.ppu]; exact h3

/-- A ready bus stays ready. -/
theorem BusReady.of_core {s t : State} (h : BusReady s) (f : CoreFrame s t) : BusReady t := by
  obtain ⟨⟨c, hc, ok⟩, hb, hv⟩ := h
  obtain ⟨m, hm, vm, om⟩ := f.cart c hc
  refine ⟨⟨_, hm, ok.1, ok.2.1, om ok.2.2⟩, ?_, ?_⟩
  · intro img m' h'
    rw [hm] at h'
    cases h'
    obtain ⟨img, mbc⟩ := c
    cases mbc with
    | b m0 => exact hb _ _ hc
    | fixed => cases vm
    | a _ => cases vm
    | c _ => cases vm
    | d _ => cases vm
  · intro c' h' g
    rw [hm] at h'
    cases h'
    rw [f.cfg]
    exact hv c hc (vm ▸ g)

theorem marks_of_not_halted {s : State} (h : s.halted = false) : s.marks = { fault := none, refusal := none } := by
  obtain ⟨f, r⟩ := (running_iff s).mpr h
  cases hm : s.marks with
  | mk a b => rw [hm] at f r; cases f; cases r; rfl

theorem marks_eq_of_running {s t : State} (h : t.halted = false) (g : s.halted = false) : t.marks = s.marks :=
  (marks_of_not_halted h).trans (marks_of_not_halted g).symm

/-! ## Sequencing under a footprint -/

/-- Every answer of `o` is in relation `R` to `s`. -/
def InFrame (R : State → State → Prop) (s : State) (o : Result) : Prop := ∀ t, o = .next t → R s t

theorem in_next {R : State → State → Prop} {s t : State} (h : R s t) : InFrame R s (.next t) := by
  intro u e; cases e; exact h

theorem in_andThen {R : State → State → Prop} (tr : ∀ a b c, R a b → R b c → R a c) {s : State} {o : Result}
    {f : State → Result} (h : InFrame R s o) (hf : ∀ t, InFrame R t (f t)) : InFrame R s (andThen o f) := by
  intro u hu
  obtain ⟨t, ht, ⟨_, e⟩ | ⟨_, e⟩⟩ := andThen_eq_next hu
  · rw [e]; exact h t ht
  · exact tr _ _ _ (h t ht) (hf t u e)

theorem quiet_trans (a b c : State) (h : QuietFrame a b) (g : QuietFrame b c) : QuietFrame a c := h.trans g

/-! ## Dispatch (R354 to R357) -/

theorem enterInterrupt_quiet (s : State) (line : Nat) : QuietFrame s (s.enterInterrupt line) :=
  (QuietFrame.ext s _).trans (.setIo _ _ (by decide) (by decide))

theorem updateDeferredEnableFlag_quiet (s : State) : QuietFrame s s.updateDeferredEnableFlag := .ext s _

theorem vectorInterrupt_quiet (line : Nat) (s : State) : InFrame QuietFrame s (vectorInterrupt line s) := by
  unfold vectorInterrupt
  split
  · intro t ht
    exact ((enterInterrupt_quiet s line).trans (.ext _ _)).trans (busAccesses_frame _ _ t ht).quiet
  · exact in_next (.refl s)

theorem scanLines_quiet (request : State → Byte) (lines : List Nat) (s : State) :
    InFrame QuietFrame s (scanLines request lines s) := by
  induction lines generalizing s with
  | nil => exact in_next (.refl s)
  | cons line rest ih =>
    refine in_andThen quiet_trans ?_ ih
    split
    · exact vectorInterrupt_quiet line s
    · exact in_next (.refl s)

theorem dispatch_quiet (s : State) : InFrame QuietFrame s (execOrchDispatch s) :=
  in_andThen quiet_trans (scanLines_quiet _ _ s) (fun t => in_next (updateDeferredEnableFlag_quiet t))

/-- The orchestrator's own state is as it was. -/
def SameOrch (s t : State) : Prop := t.orch = s.orch

theorem sameOrch_trans (a b c : State) (h : SameOrch a b) (g : SameOrch b c) : SameOrch a c := Eq.trans g h

theorem vectorInterrupt_orch (line : Nat) (s : State) : InFrame SameOrch s (vectorInterrupt line s) := by
  unfold vectorInterrupt
  split
  · exact fun t ht => (busAccesses_frame _ _ t ht).orch
  · exact in_next rfl

theorem dispatch_orch (s : State) : InFrame SameOrch s (execOrchDispatch s) := by
  have scan : ∀ (request : State → Byte) (lines : List Nat) (s : State), InFrame SameOrch s (scanLines request lines s) := by
    intro request lines
    induction lines with
    | nil => exact fun s => in_next rfl
    | cons line rest ih =>
      intro s
      refine in_andThen sameOrch_trans ?_ ih
      split
      · exact vectorInterrupt_orch line s
      · exact in_next rfl
  exact in_andThen sameOrch_trans (scan _ _ s) (fun _ => in_next rfl)

/-! ## The collaborators (R358 to R364) -/

/-- What a CPU step returns changes only the CPU's state and `orch.stepCycles`. -/
theorem cpuReturns_quiet (s : State) (d : CpuDone) : QuietFrame s (s.cpuReturns d) :=
  ⟨⟨rfl, rfl, rfl, rfl, rfl, rfl, id, id, fun c h => ⟨c.mbc, h, rfl, id⟩, .of_eq rfl⟩, ⟨fun _ _ => rfl, rfl, rfl, rfl⟩⟩

/-- The footprint of a CPU step, whatever it reads. -/
theorem runPlan_quiet (p : CpuPlan) : ∀ s, InFrame QuietFrame s (runPlan p s) := by
  induction p with
  | done d => exact fun s => in_next (cpuReturns_quiet s d)
  | write a d rest ih => exact fun s => in_andThen quiet_trans (fun t ht => (busAccess_frame _ s t ht).quiet) ih
  | read a rest ih => exact fun s => in_andThen quiet_trans (fun t ht => (busAccess_frame _ s t ht).quiet) (ih _)

/-- A CPU step ends in what it returns: at least one cycle, or a mark (R358). -/
theorem runPlan_cycles (p : CpuPlan) : ∀ s t, runPlan p s = .next t → t.halted = false → 1 ≤ t.orch.stepCycles := by
  have one : ∀ {a : Access} {f : State → Result} (s t : State), (∀ u v, f u = .next v → v.halted = false → 1 ≤ v.orch.stepCycles) →
      andThen (busAccess a s) f = .next t → t.halted = false → 1 ≤ t.orch.stepCycles := by
    intro a f s t hf h hr
    obtain ⟨u, _, ⟨hu, rfl⟩ | ⟨_, h'⟩⟩ := andThen_eq_next h
    · rw [hu] at hr; cases hr
    · exact hf u t h' hr
  induction p with
  | done d => intro s t h _; cases h; exact Nat.le_add_left _ _
  | write a d rest ih => exact fun s t h hr => one s t ih h hr
  | read a rest ih => exact fun s t h hr => one s t (ih _) h hr

/-- A CPU step completes on a ready bus, whatever it reads. -/
theorem runPlan_completes (p : CpuPlan) : ∀ s : State, s.halted = false → BusReady s → Completes s (runPlan p s) := by
  have one : ∀ (a : Access) (f : State → Result) (s : State), s.halted = false → BusReady s →
      (∀ u, u.halted = false → BusReady u → Completes u (f u)) → Completes s (andThen (busAccess a s) f) := by
    intro a f s hr hb hf
    obtain ⟨u, hu, mu⟩ := busAccess_completes a s hb
    have hur := (halted_of_marks mu).trans hr
    obtain ⟨v, hv, mv⟩ := hf u hur (hb.of_frame (busAccess_frame a s u hu))
    rw [hu, andThen_of_running hur]
    exact ⟨v, hv, mv.trans mu⟩
  induction p with
  | done d => exact fun s _ _ => .next rfl
  | write a d rest ih => exact fun s hr hb => one _ _ s hr hb ih
  | read a rest ih => exact fun s hr hb => one _ _ s hr hb (ih _)

theorem cpuPhase_quiet (s : State) : InFrame QuietFrame s (cpuPhase s) :=
  fun t ht => (QuietFrame.ext s _).trans (runPlan_quiet _ _ t ht)

theorem plainIo_spec {a : Nat} (h : plainIo a = true) : inSurface a = true ∧ regAt a = none := by
  simp only [plainIo, Bool.and_eq_true, decide_eq_true_eq, Option.isNone_iff_eq_none] at h
  refine ⟨?_, h.2⟩
  simp only [inSurface, decide_eq_true_eq]
  omega

theorem timerWrites_quiet (l : List (Addr × Byte)) (s : State) : QuietFrame s (timerWrites l s) := by
  induction l generalizing s with
  | nil => exact .refl s
  | cons w l ih =>
    obtain ⟨a, v⟩ := w
    refine QuietFrame.trans ?_ (ih _)
    split
    · rename_i h
      obtain ⟨h1, h2⟩ := plainIo_spec h
      refine (BusFrame.memWrite s v h1 ?_ ?_).quiet
      · intro e; rw [e] at h2; cases h2
      · intro e; rw [e] at h2; cases h2
    · exact .refl s

/-- The timer's writes change plain memory alone (R360, R364). -/
theorem timerWrites_eq (l : List (Addr × Byte)) (s : State) :
    timerWrites l s = { s with surface := { s.surface with mem := (timerWrites l s).surface.mem } } := by
  induction l generalizing s with
  | nil => rfl
  | cons w l ih =>
    obtain ⟨b, v⟩ := w
    show timerWrites l _ = { s with surface := { s.surface with mem := (timerWrites l _).surface.mem } }
    rw [ih]
    split
    · rename_i hp
      unfold State.memWrite
      rw [(plainIo_spec hp).2]
    · rfl

/-- Each of the timer's registers holds the last byte written to it; no other byte changes (R360, R364). -/
theorem memRead_timerWrites (l : List (Addr × Byte)) (s : State) (a : Addr) :
    (timerWrites l s).memRead a.toNat =
      if plainIo a.toNat = true then
        (((l.filter (fun w => w.1 == a)).getLast?).map (fun w => w.2)).getD (s.memRead a.toNat)
      else s.memRead a.toNat := by
  induction l generalizing s with
  | nil => simp [timerWrites]
  | cons w l ih =>
    obtain ⟨b, v⟩ := w
    have hm : (if plainIo b.toNat then s.memWrite b.toNat v else s).memRead a.toNat
        = if plainIo b.toNat = true ∧ a = b then v else s.memRead a.toNat := by
      split <;> rename_i hp
      · simp [State.memRead_memWrite, hp, BitVec.toNat_eq]
      · simp [hp]
    show (timerWrites l _).memRead a.toNat = _
    rw [ih, hm]
    by_cases hp : plainIo a.toNat = true
    · rw [if_pos hp, if_pos hp]
      by_cases hab : b = a
      · subst hab
        rw [if_pos ⟨hp, rfl⟩, List.filter_cons_of_pos (by simp)]
        cases l.filter (fun w => w.1 == b) with
        | nil => rfl
        | cons x xs => simp [List.getLast?_cons]
      · rw [List.filter_cons_of_neg (by simpa using hab), if_neg (fun h => hab h.2.symm)]
    · rw [if_neg hp, if_neg hp, if_neg]
      rintro ⟨h, rfl⟩
      exact hp h

theorem timerPhase_quiet (c : Nat) (s : State) : QuietFrame s (timerPhase c s) :=
  ((QuietFrame.ext s _).trans (timerWrites_quiet _ _)).trans (.requestIf _ _ _)

theorem latchPhase_quiet (s : State) : QuietFrame s (latchPhase s) := by
  have hj : ∀ (u : State) (j : Option Byte), QuietFrame u (match j with | some v => u.setIo .joyp v | none => u) := by
    intro u j
    cases j with
    | some v => exact .setIo u v (by decide) (by decide)
    | none => exact .refl u
  exact ((QuietFrame.ext s _).trans (hj _ _)).trans (.requestIf _ _ _)

theorem marks_requestIf' (s : State) (c : Bool) (l : Nat) : (s.requestIf c l).marks = s.marks := by simp

theorem marks_timerWrites (l : List (Addr × Byte)) (s : State) : (timerWrites l s).marks = s.marks := by
  induction l generalizing s with
  | nil => rfl
  | cons w l ih =>
    obtain ⟨a, v⟩ := w
    show (timerWrites l _).marks = _
    rw [ih]
    split <;> simp

@[simp] theorem marks_timerPhase (c : Nat) (s : State) : (timerPhase c s).marks = s.marks := by
  unfold timerPhase
  rw [marks_requestIf', marks_timerWrites]

@[simp] theorem marks_latchPhase (s : State) : (latchPhase s).marks = s.marks := by
  unfold latchPhase
  rw [marks_requestIf']
  split <;> rfl

theorem orch_timerWrites (l : List (Addr × Byte)) (s : State) : (timerWrites l s).orch = s.orch := by
  induction l generalizing s with
  | nil => rfl
  | cons w l ih =>
    obtain ⟨a, v⟩ := w
    show (timerWrites l _).orch = _
    rw [ih]
    split <;> simp

/-- The timer and the latch do not touch the orchestrator, so that timer, PPU and R350 get the same count (R353). -/
@[simp] theorem orch_timerPhase (c : Nat) (s : State) : (timerPhase c s).orch = s.orch := by
  unfold timerPhase
  rw [State.orch_requestIf, orch_timerWrites]

@[simp] theorem orch_latchPhase (s : State) : (latchPhase s).orch = s.orch := by
  unfold latchPhase
  rw [State.orch_requestIf]
  split <;> rfl

@[simp] theorem halted_timerPhase (c : Nat) (s : State) : (timerPhase c s).halted = s.halted := halted_of_marks (by simp)

@[simp] theorem halted_latchPhase (s : State) : (latchPhase s).halted = s.halted := halted_of_marks (by simp)

/-! ## Step (R353) -/

theorem core_trans (a b c : State) (h : CoreFrame a b) (g : CoreFrame b c) : CoreFrame a c := h.trans g

theorem in_quiet_core {s : State} {o : Result} (h : InFrame QuietFrame s o) : InFrame CoreFrame s o :=
  fun t ht => (h t ht).toCoreFrame

theorem ppuAdvance_core (n : Nat) (s : State) : InFrame CoreFrame s (ppuAdvance n s) :=
  fun t ht => (ppuAdvance_frame n s t ht).core

/-- The footprint of a step. -/
theorem orchStep_core (s : State) : InFrame CoreFrame s (execOrchStep s) := by
  unfold execOrchStep
  refine in_andThen core_trans
    (fun t ht => ((QuietFrame.setPhase s .cpu).trans (cpuPhase_quiet _ t ht)).toCoreFrame) (fun s1 => ?_)
  refine in_andThen core_trans
    (in_next ((QuietFrame.setPhase s1 .timer).trans (timerPhase_quiet _ _)).toCoreFrame) (fun s2 => ?_)
  refine in_andThen core_trans
    (fun t ht => (QuietFrame.setPhase s2 .ppu).toCoreFrame.trans (ppuAdvance_core _ _ t ht)) (fun s3 => ?_)
  refine in_andThen core_trans
    (in_next ((QuietFrame.setPhase s3 .latch).trans (latchPhase_quiet _)).toCoreFrame) (fun s4 => ?_)
  refine in_andThen core_trans
    (fun t ht => ((QuietFrame.setPhase s4 .dispatch).trans (dispatch_quiet _ t ht)).toCoreFrame) (fun s5 => ?_)
  exact in_next (QuietFrame.setPhase s5 .idle).toCoreFrame

/-- A step keeps `PpuOk`, whatever the collaborators do (R162, R364). -/
theorem orchStep_ppuOk (s u : State) (hu : execOrchStep s = .next u) (ok : PpuOk s) :
    PpuOk u := by
  unfold execOrchStep at hu
  obtain ⟨s1, h1, h2⟩ := andThen_eq_next hu
  have ok1 : PpuOk s1 := ((QuietFrame.setPhase s .cpu).trans (cpuPhase_quiet _ _ h1)).untouched.ok ok
  rcases h2 with ⟨_, e⟩ | ⟨r1, h2⟩
  · rw [e]; exact ok1
  have ok2 : PpuOk (timerPhase s1.orch.stepCycles (s1.setPhase .timer)) :=
    ((QuietFrame.setPhase s1 .timer).trans (timerPhase_quiet _ _)).untouched.ok ok1
  rw [andThen_of_running (by simpa using r1)] at h2
  obtain ⟨s3, h3, hs3, ok3⟩ := ppuAdvance_ok (timerPhase s1.orch.stepCycles (s1.setPhase .timer)).orch.stepCycles
    ((timerPhase s1.orch.stepCycles (s1.setPhase .timer)).setPhase .ppu) (by simpa using r1)
    ((QuietFrame.setPhase _ .ppu).untouched.ok ok2).1
  rw [h3, andThen_of_running hs3, andThen_of_running (by simpa using hs3)] at h2
  have ok4 : PpuOk (latchPhase (s3.setPhase .latch)) :=
    ((QuietFrame.setPhase s3 .latch).trans (latchPhase_quiet _)).untouched.ok ok3
  obtain ⟨s5, h5, h6⟩ := andThen_eq_next h2
  have ok5 : PpuOk s5 :=
    ((QuietFrame.setPhase _ .dispatch).trans (dispatch_quiet _ _ h5)).untouched.ok ok4
  rcases h6 with ⟨_, e⟩ | ⟨_, e⟩
  · rw [e]; exact ok5
  · cases e; exact (QuietFrame.setPhase s5 .idle).untouched.ok ok5

/-! ## Completion -/

theorem vectorInterrupt_completes (line : Nat) (s : State) (hr : s.halted = false) (h : BusReady s) :
    Completes s (vectorInterrupt line s) := by
  unfold vectorInterrupt
  split
  · have q := (enterInterrupt_quiet s line).trans
      (.ext (s.enterInterrupt line) { (s.enterInterrupt line).ext with
        cpu := { (s.enterInterrupt line).ext.cpu with inner := (s.entryAnswer line).2.2 }
        entry := (s.entryAnswer line).2.1 })
    exact busAccesses_completes _ _ hr (h.of_core q.toCoreFrame)
  · exact .next rfl

theorem scanLines_completes (request : State → Byte) (lines : List Nat) (s : State) (hr : s.halted = false)
    (h : BusReady s) : Completes s (scanLines request lines s) := by
  induction lines generalizing s with
  | nil => exact .next rfl
  | cons line rest ih =>
    have key : Completes s (if testBit (request s) line then vectorInterrupt line s else .next s) := by
      split
      · exact vectorInterrupt_completes line s hr h
      · exact .next rfl
    obtain ⟨t, ht, mt⟩ := key
    have hq : QuietFrame s t := by
      split at ht
      · exact vectorInterrupt_quiet line s t ht
      · cases ht; exact .refl s
    have htr : t.halted = false := (halted_of_marks mt).trans hr
    obtain ⟨u, hu, mu⟩ := ih t htr (h.of_core hq.toCoreFrame)
    refine ⟨u, ?_, mu.trans mt⟩
    show andThen _ _ = _
    rw [ht, andThen_of_running htr, hu]

theorem dispatch_completes (s : State) (hr : s.halted = false) (h : BusReady s) :
    Completes s (execOrchDispatch s) := by
  obtain ⟨t, ht, mt⟩ := scanLines_completes _ scanOrder s hr h
  have htr : t.halted = false := (halted_of_marks mt).trans hr
  refine ⟨t.updateDeferredEnableFlag, ?_, mt⟩
  exact (congrArg (fun o => andThen o (fun u => .next u.updateDeferredEnableFlag)) ht).trans
    (andThen_of_running htr _)

/-- A step completes on a ready bus (R353, R358). -/
theorem orchStep_completes (s : State) (hr : s.halted = false) (hb : BusReady s) (hl : PpuLines s) :
    Completes s (execOrchStep s) := by
  unfold execOrchStep
  -- (a)
  obtain ⟨s1, e1, m1⟩ := runPlan_completes (s.setPhase .cpu).cpuPlan (s.setPhase .cpu).tookCpuStep hr
    (hb.of_core ((QuietFrame.setPhase s .cpu).trans (.ext _ _)).toCoreFrame)
  have e1' : cpuPhase (s.setPhase .cpu) = .next s1 := e1
  have q1 := (QuietFrame.setPhase s .cpu).trans (cpuPhase_quiet _ _ e1')
  have r1 : s1.halted = false := (halted_of_marks m1).trans hr
  rw [e1', andThen_of_running r1]
  -- (b)
  have q2 := q1.trans ((QuietFrame.setPhase s1 .timer).trans (timerPhase_quiet s1.orch.stepCycles _))
  have r2 : (timerPhase s1.orch.stepCycles (s1.setPhase .timer)).halted = false := by simpa using r1
  generalize timerPhase s1.orch.stepCycles (s1.setPhase .timer) = s2 at q2 r2
  rw [andThen_of_running r2]
  -- (c)
  have q2' := q2.trans (.setPhase s2 .ppu)
  have hl2 : PpuLines (s2.setPhase .ppu) := by
    obtain ⟨h1, h2⟩ := hl
    exact ⟨by rw [q2'.untouched.mode, q2'.untouched.line]; exact h1,
      by rw [q2'.untouched.mode, q2'.untouched.line]; exact h2⟩
  obtain ⟨s3, e3, r3, _⟩ := ppuAdvance_ok s2.orch.stepCycles (s2.setPhase .ppu) r2 hl2
  have c3 : CoreFrame s s3 := q2'.toCoreFrame.trans (ppuAdvance_core _ _ _ e3)
  have m3 : s3.marks = s.marks := marks_eq_of_running r3 hr
  rw [e3, andThen_of_running r3]
  -- (d)
  have c4 := c3.trans ((QuietFrame.setPhase s3 .latch).trans (latchPhase_quiet _)).toCoreFrame
  have m4 : (latchPhase (s3.setPhase .latch)).marks = s.marks := by rw [marks_latchPhase]; exact m3
  generalize latchPhase (s3.setPhase .latch) = s4 at c4 m4
  have r4 : s4.halted = false := (halted_of_marks m4).trans hr
  rw [andThen_of_running r4]
  -- (e)
  obtain ⟨s5, e5, m5⟩ := dispatch_completes (s4.setPhase .dispatch) r4
    (hb.of_core (c4.trans (QuietFrame.setPhase s4 .dispatch).toCoreFrame))
  have r5 : s5.halted = false := (halted_of_marks (m5.trans m4)).trans hr
  rw [e5, andThen_of_running r5]
  exact .next (m5.trans m4)

/-! ## Every operation inside a tick answers a next state (R400: what stops it is a mark) -/

/-- An operation that answers a next state, whatever the state. -/
def Answers1 (o : Result) : Prop := ∃ t, o = .next t

theorem answers_next (t : State) : Answers1 (.next t) := ⟨t, rfl⟩

theorem answers_andThen {o : Result} {f : State → Result} (h : Answers1 o) (hf : ∀ t, Answers1 (f t)) :
    Answers1 (andThen o f) := by
  obtain ⟨t, rfl⟩ := h
  rw [andThen_next]
  split
  · exact ⟨t, rfl⟩
  · exact hf t

theorem answers_readImage (s : State) (img : Image) (i : Nat) : Answers1 (readImage s img i) := by
  unfold readImage
  split
  · exact ⟨_, rfl⟩
  · exact ⟨_, rfl⟩

/-- An operation of the loaded cartridge's variant answers a next state. -/
theorem busExec_answers (i : Instr) (s : State) (v : Variant) (hi : i.variant = some v)
    (hc : (s.context false).variant = some v) : Answers1 (busExec i s) := by
  simp only [State.context] at hc
  cases hs : s.cart with
  | none => rw [hs] at hc; cases hc
  | some c =>
    obtain ⟨img, mbc⟩ := c
    rw [hs] at hc
    have hv : mbc.variant = v := by simpa using hc
    subst hv
    cases mbc <;> cases i <;>
      first
        | (exfalso; simp [Instr.variant, Mbc.variant] at hi; done)
        | (simp only [busExec, execCartFRdRom0, execCartFRdRomx, execCartFRdRam, execCartFWrRom, execCartFWrRam,
            onFixed, hs]
           first | exact answers_readImage _ _ _ | exact answers_next _)
        | (simp only [busExec, execCartBRdRom0, execCartBRdRomx, execCartBRdRam, execCartBWrRamen, execCartBWrRomb,
            execCartBWrHi, execCartBWrRam, onB, hs]
           first | exact answers_readImage _ _ _ | exact answers_next _)
        | (simp only [busExec, execCartARdRom0, execCartARdRomx, execCartARdRam, execCartAWrRamen, execCartAWrBank1,
            execCartAWrBank2, execCartAWrMode, execCartAWrRam, onA, hs]
           split
           · exact answers_next _
           · first | exact answers_readImage _ _ _ | exact answers_next _)
        | (simp only [busExec, execCartCRdRom0, execCartCRdRomx, execCartCRdRam, execCartCWrRamen, execCartCWrRomb,
            execCartCWrRamsel, execCartCWrLatch, execCartCWrRam, onC, hs]
           split
           · exact answers_next _
           · first | exact answers_readImage _ _ _ | exact answers_next _)
        | (simp only [busExec, execCartDRdRom0, execCartDRdRomx, execCartDRdRam, execCartDWrRamen, execCartDWrRombLo,
            execCartDWrRombHi, execCartDWrRamb, execCartDWr6000, execCartDWrRam, onD, hs]
           split
           · exact answers_next _
           · first | exact answers_readImage _ _ _ | exact answers_next _)

theorem decodeCart_answers {s : State} {w : Word} {i : Instr} (h : decodeCart (s.context false) w = .ok i) :
    Answers1 (busExec i s) := by
  obtain ⟨_, _, v, hv, _, hi⟩ := decodeCart_ok h
  refine busExec_answers i s v ?_ hv
  split_ifs at hi
  · exact (selectRead_wf hi).2.1
  · exact (selectWrite_wf hi).2.1

theorem decodeEnv_answers {s : State} {w : Word} {i : Instr} (h : decodeEnv w = .ok i) : Answers1 (busExec i s) := by
  obtain ⟨hr, h⟩ := decodeEnv_ok h
  rcases h with ⟨_, _, rfl⟩ | ⟨_, _, rfl⟩ | ⟨_, _, rfl⟩ | ⟨_, h1, h2, rfl⟩
  · exact ⟨_, if_pos hr⟩
  · exact ⟨_, rfl⟩
  · exact ⟨_, rfl⟩
  · exact ⟨_, if_pos hr⟩

theorem busAccess_answers (a : Access) (s : State) : Answers1 (busAccess a s) := by
  unfold busAccess
  cases ha : accessWord? a with
  | none => exact ⟨s, rfl⟩
  | some w =>
    dsimp only
    have key : Answers1 (busWord w s) := by
      unfold busWord
      cases hd : decode (s.context false) w with
      | error r => exact ⟨_, rfl⟩
      | ok i =>
        unfold accessWord? at ha
        split at ha <;> split at ha <;> cases ha
        · exact decodeEnv_answers (by simpa [decode, envReadWord] using hd)
        · exact decodeCart_answers (by simpa [decode, cartReadWord] using hd)
        · exact decodeEnv_answers (by simpa [decode, envWriteWord] using hd)
        · exact decodeCart_answers (by simpa [decode, cartWriteWord] using hd)
    obtain ⟨t, ht⟩ := key
    rw [ht]
    exact ⟨_, rfl⟩

theorem busAccesses_answers (l : List Access) (s : State) : Answers1 (busAccesses l s) := by
  induction l generalizing s with
  | nil => exact ⟨s, rfl⟩
  | cons a l ih => exact answers_andThen (busAccess_answers a s) ih

theorem runPlan_answers (p : CpuPlan) : ∀ s, Answers1 (runPlan p s) := by
  induction p with
  | done d => exact fun s => answers_next _
  | write a d rest ih => exact fun s => answers_andThen (busAccess_answers _ s) ih
  | read a rest ih => exact fun s => answers_andThen (busAccess_answers _ s) (ih _)

/-- A scripted step is its accesses in order, and then what it returns (R358). -/
theorem runPlan_after (d : CpuDone) (l : List Access) : ∀ s : State, s.halted = false →
    runPlan (CpuPlan.after (.done d) l) s = inOrder (l.map busAccess ++ [fun u => .next (u.cpuReturns d)]) s := by
  have one : ∀ (a : Access) (f : State → Result) (fs : List (State → Result)) (s : State), s.halted = false →
      (∀ u, u.halted = false → f u = inOrder fs u) → andThen (busAccess a s) f = inOrder (busAccess a :: fs) s := by
    intro a f fs s hr hf
    obtain ⟨t, ha⟩ := busAccess_answers a s
    rw [inOrder_cons hr ha, ha]
    cases ht : t.halted with
    | true => rw [andThen_next, if_pos ht, inOrder_of_halted ht]
    | false => rw [andThen_of_running ht, hf t ht]
  induction l with
  | nil => exact fun s hr => (andThen_of_running hr _).symm
  | cons a l ih =>
    intro s hr
    cases a with
    | read a => exact one (.read a) _ _ s hr ih
    | write a d => exact one (.write a d) _ _ s hr ih

theorem vectorInterrupt_answers (line : Nat) (s : State) : Answers1 (vectorInterrupt line s) := by
  unfold vectorInterrupt
  split
  · exact busAccesses_answers _ _
  · exact ⟨s, rfl⟩

theorem scanLines_answers (request : State → Byte) (lines : List Nat) (s : State) :
    Answers1 (scanLines request lines s) := by
  induction lines generalizing s with
  | nil => exact ⟨s, rfl⟩
  | cons line rest ih =>
    refine answers_andThen ?_ ih
    split
    · exact vectorInterrupt_answers line s
    · exact ⟨s, rfl⟩

theorem dispatch_answers (s : State) : Answers1 (execOrchDispatch s) :=
  answers_andThen (scanLines_answers _ _ s) (fun _ => answers_next _)

theorem ppuAdvance_answers (n : Nat) (s : State) : Answers1 (ppuAdvance n s) := by
  refine answers_andThen ?_ (fun t => ⟨_, rfl⟩)
  split
  · by_cases hr : s.halted = true
    · have loop : ∀ k (u : State), Answers1 (advanceLoop k u) := by
        intro k
        induction k with
        | zero => intro u; exact ⟨u, rfl⟩
        | succ k ih =>
          intro u
          unfold advanceLoop
          split
          · exact ⟨u, rfl⟩
          · obtain ⟨v, hv, _⟩ := transition_next (u.setCounter (u.ppu.counter - threshold u.mode))
            exact answers_andThen ⟨v, hv⟩ ih
      exact loop _ _
    · obtain ⟨_, t, _, h⟩ := loopRun_of_advanceLoop ((s.ppu.counter + n) / 80 + 1)
        (s.setCounter (s.ppu.counter + n)) (by simpa using hr) (by simp)
      exact ⟨t, h⟩
  · exact ⟨_, rfl⟩

theorem orchStep_answers (s : State) : Answers1 (execOrchStep s) :=
  answers_andThen (runPlan_answers _ _) (fun _ =>
    answers_andThen (answers_next _) (fun _ =>
      answers_andThen (ppuAdvance_answers _ _) (fun _ =>
        answers_andThen (answers_next _) (fun _ =>
          answers_andThen (dispatch_answers _) (fun _ => answers_next _)))))

/-! ## Tick (R350, R352) -/

/-- A step that set no mark went through all its phases, and returns what the CPU did (R353). -/
theorem orchStep_cycles (s t : State) (h : execOrchStep s = .next t) (hr : t.halted = false) :
    ∃ u, cpuPhase (s.setPhase .cpu) = .next u ∧ u.halted = false ∧ t.orch = { u.orch with phase := .idle } := by
  unfold execOrchStep at h
  obtain ⟨s1, h1, ⟨e1, e⟩ | ⟨r1, h⟩⟩ := andThen_eq_next h
  · rw [e, e1] at hr; cases hr
  obtain ⟨s2, h2, ⟨e1, e⟩ | ⟨r2, h⟩⟩ := andThen_eq_next h
  · rw [e, e1] at hr; cases hr
  obtain ⟨s3, h3, ⟨e1, e⟩ | ⟨r3, h⟩⟩ := andThen_eq_next h
  · rw [e, e1] at hr; cases hr
  obtain ⟨s4, h4, ⟨e1, e⟩ | ⟨r4, h⟩⟩ := andThen_eq_next h
  · rw [e, e1] at hr; cases hr
  obtain ⟨s5, h5, ⟨e1, e⟩ | ⟨r5, h⟩⟩ := andThen_eq_next h
  · rw [e, e1] at hr; cases hr
  cases h; cases h4; cases h2
  have o3 := (ppuAdvance_frame _ _ _ h3).orch
  have o5 : s5.orch = _ := dispatch_orch _ _ h5
  refine ⟨s1, h1, r1, ?_⟩
  show ({ s5.orch with phase := .idle } : Orch) = _
  rw [o5]
  show ({ (latchPhase (s3.setPhase .latch)).orch with phase := .idle } : Orch) = _
  rw [orch_latchPhase]
  show ({ s3.orch with phase := .idle } : Orch) = _
  rw [o3]
  show ({ (timerPhase s1.orch.stepCycles (s1.setPhase .timer)).orch with phase := .idle } : Orch) = _
  rw [orch_timerPhase]
  rfl

/-- A step that set no mark returns at least one cycle (R358). -/
theorem orchStep_pos (s t : State) (h : execOrchStep s = .next t) (hr : t.halted = false) : 1 ≤ t.orch.stepCycles := by
  obtain ⟨u, hu, hur, e⟩ := orchStep_cycles s t h hr
  rw [e]
  exact runPlan_cycles _ _ u hu hur

/-- With fuel for the cycles still owed, R350's loop is a run of steps, and it ends at or past the target. -/
theorem tickLoop_fuel (target : ℚ) (n : Nat) : ∀ s : State, s.halted = false →
    target ≤ (s.orch.cyclesDone : ℚ) + n →
    ∃ k t, TickRun target s k t ∧ tickLoop target n s = .next t ∧ k ≤ n := by
  induction n with
  | zero =>
    intro s hr hn
    exact ⟨0, s, .exit (by simpa using hn), rfl, le_refl _⟩
  | succ n ih =>
    intro s hr hn
    unfold tickLoop
    by_cases hd : (s.orch.cyclesDone : ℚ) < target
    · rw [if_pos hd]
      obtain ⟨u, hu⟩ := orchStep_answers s
      rw [hu, andThen_next]
      cases hur : u.halted with
      | true =>
        exact ⟨1, u, .stop hd hu (by rw [running_iff, hur]; simp), rfl, by omega⟩
      | false =>
        have hdone := (orchStep_core s u hu).done
        have h1 := orchStep_pos s u hu hur
        obtain ⟨k, t, hrun, ht, hk⟩ := ih u.countStep hur (by
          show target ≤ ((u.orch.cyclesDone + u.orch.stepCycles : Nat) : ℚ) + n
          rw [hdone]
          have : (1 : ℚ) ≤ (u.orch.stepCycles : ℚ) := by exact_mod_cast h1
          push_cast at hn ⊢
          linarith)
        exact ⟨k + 1, t, .turn hd hu ((running_iff u).mpr hur) hrun, ht, by omega⟩
    · rw [if_neg hd]
      exact ⟨0, s, .exit (not_lt.mp hd), rfl, by omega⟩

/-- The whole budget is fuel enough, since a step runs at least one cycle. -/
theorem budget_fuel (target : ℚ) : target ≤ ((0 : Nat) : ℚ) + (⌈target⌉.toNat : ℚ) := by
  have h1 : target ≤ (⌈target⌉ : ℚ) := Int.le_ceil target
  have h2 : (⌈target⌉ : ℚ) ≤ ((⌈target⌉.toNat : ℤ) : ℚ) := by
    exact_mod_cast Int.self_le_toNat _
  have h3 : ((⌈target⌉.toNat : ℤ) : ℚ) = ((⌈target⌉.toNat : Nat) : ℚ) := by norm_cast
  rw [h3] at h2
  push_cast
  linarith

/-- What every step of a tick keeps, the tick keeps. -/
theorem TickRun.induct {target : ℚ} (P : State → Prop) (count : ∀ s, P s → P s.countStep)
    (step : ∀ s t, P s → s.Running → execOrchStep s = .next t → P t) {s t : State} {n : Nat}
    (h : TickRun target s n t) : s.Running → P s → P t := by
  induction h with
  | exit _ => intro _ hs; exact hs
  | turn _ run going _ ih => intro hr hs; exact ih going (count _ (step _ _ hs hr run))
  | stop _ run _ => intro hr hs; exact step _ _ hs hr run

end Sys2Proof.Machine
end

