-- ==== Sys2Proof/Laws/Exec.lean ====
section
/-! SUPPORT. What `exec` can change, one lemma per family: the PPU's operations, the words of formats C and
E, the load, the commit, the step, the dispatch and the tick. -/

namespace Sys2Proof.Machine

/-- The operations of the PPU. -/
def PpuOp (i : Instr) : Prop :=
  (∃ n, i = .ppuAdvance n) ∨ i ∈ [Instr.ppuLcdOff, .ppuTOamVram, .ppuTVramHblank, .ppuTHblankOam,
    .ppuTHblankVblank, .ppuTVblankLine, .ppuTVblankOam, .ppuLycCheck, .rasterBgwin, .rasterObj]

theorem exec_ppu_frame {i : Instr} {s t : State} (hi : PpuOp i) (h : exec i s = .next t) : PpuFrame s t := by
  rcases hi with ⟨n, rfl⟩ | hi
  · exact ppuAdvance_frame _ s t h
  simp only [List.mem_cons, List.not_mem_nil, or_false] at hi
  rcases hi with rfl | rfl | rfl | rfl | rfl | rfl | rfl | rfl | rfl | rfl
  · exact lcdOff_frame s t h
  · cases h; exact .setMode s _
  · exact tVramHblank_frame s t h
  · cases h; exact (PpuFrame.setLy s _).trans (enterOam_frame _)
  · cases h
    exact (((PpuFrame.setLy s _).trans (.setMode _ _)).trans
      (.requestInterrupt _ vblankLine (by decide))).trans (.setFrameReady _ _)
  · cases h; exact .setLy s _
  · cases h; exact (PpuFrame.setLy s _).trans (enterOam_frame _)
  · exact lycCheck_frame s t h
  · exact rasterBgWin_frame _ s t h
  · exact rasterObj_frame _ s t h

/-- The words of formats C and E. -/
def BusOp (i : Instr) : Prop :=
  i.variant ≠ none ∨ (∃ a, i = .envRd a) ∨ (∃ a d, i = .envWr a d) ∨ (∃ d, i = .envWrStat d)
    ∨ (∃ d, i = .envWrLy d)

theorem exec_bus_frame {i : Instr} {s t : State} (hi : BusOp i) (hw : i.variant = none → i.wellFormed = true)
    (h : exec i s = .next t) : BusFrame s t :=
  busExec_frame i s hw t ((busExec_eq_exec i s hi).trans h)

theorem exec_load {s t : State} (h : exec .cartLoad s = .next t) :
    (t = { s with marks := t.marks } ∧ MarksKept s t)
      ∨ (s.cart = none ∧ ∃ c, loadCart s.cfg.cartRamInit s.port.loader = .ok c ∧ t = { s with cart := some c }) := by
  change execCartLoad s = .next t at h
  unfold execCartLoad at h
  split at h
  · cases h; exact .inl ⟨rfl, .refuse s _⟩
  · rename_i hc
    split at h
    · cases h; exact .inl ⟨rfl, .raise s _⟩
    · rename_i c hl
      cases h; exact .inr ⟨hc, c, hl, rfl⟩

/-- What a tick leaves alone, and what it keeps in form: a step's footprint but for the carry and the
cycles done. -/
structure TickFrame (s t : State) : Prop where
  cfg : t.cfg = s.cfg
  inbox : t.port.inbox = s.port.inbox
  loader : t.port.loader = s.port.loader
  shown : t.port.shown = s.port.shown
  surface : SurfaceOk s.surface → SurfaceOk t.surface
  none : s.cart = none → t.cart = none
  cart : ∀ c, s.cart = some c → ∃ m, t.cart = some { img := c.img, mbc := m } ∧ m.variant = c.mbc.variant
    ∧ (MbcOk c.img.ramSize c.mbc → MbcOk c.img.ramSize m)
  ok : PpuOk s → PpuOk t

theorem TickFrame.refl (s : State) : TickFrame s s where
  cfg := rfl
  inbox := rfl
  loader := rfl
  shown := rfl
  surface := id
  none := id
  cart c h := ⟨c.mbc, h, rfl, id⟩
  ok := id

theorem TickFrame.trans {s t u : State} (h : TickFrame s t) (g : TickFrame t u) : TickFrame s u where
  cfg := g.cfg.trans h.cfg
  inbox := g.inbox.trans h.inbox
  loader := g.loader.trans h.loader
  shown := g.shown.trans h.shown
  surface := g.surface ∘ h.surface
  none := g.none ∘ h.none
  cart c hc := by
    obtain ⟨m, hm, hv, ok⟩ := h.cart c hc
    obtain ⟨m', hm', hv', ok'⟩ := g.cart _ hm
    exact ⟨m', hm', hv'.trans hv, ok' ∘ ok⟩
  ok := g.ok ∘ h.ok

theorem TickFrame.of_step {s t : State} (h : execOrchStep s = .next t) : TickFrame s t :=
  let f := orchStep_core s t h
  { cfg := f.cfg, inbox := f.inbox, loader := f.loader, shown := f.shown, surface := f.surface,
    none := f.none, cart := f.cart, ok := orchStep_ppuOk s t h }

theorem TickFrame.orch (s : State) (o : Orch) : TickFrame s { s with orch := o } :=
  { TickFrame.refl s with cfg := rfl, ok := fun h => h }

theorem tickLoop_frame (target : ℚ) (n : Nat) : ∀ s t : State, tickLoop target n s = .next t →
    TickFrame s t := by
  induction n with
  | zero => intro s t h; cases h; exact .refl s
  | succ n ih =>
    intro s t h
    unfold tickLoop at h
    split at h
    · obtain ⟨u, hu, hh⟩ := andThen_eq_next h
      rcases hh with ⟨_, rfl⟩ | ⟨_, hr⟩
      · exact .of_step hu
      · exact ((TickFrame.of_step hu).trans (.orch u _)).trans (ih _ t hr)
    · cases h; exact .refl s

theorem exec_tick_frame {s t : State} (h : exec .orchTick s = .next t) : TickFrame s t := by
  change execOrchTick s = .next t at h
  unfold execOrchTick at h
  split at h
  · cases h
    exact { TickFrame.refl s with cfg := rfl, ok := fun h => h }
  · obtain ⟨u, hu, hh⟩ := andThen_eq_next h
    have f := (TickFrame.orch s _).trans (tickLoop_frame _ _ _ u hu)
    rcases hh with ⟨_, rfl⟩ | ⟨_, hr⟩
    · exact f
    · cases hr; exact f.trans (.orch u _)

/-- Every operation is of one of the families. -/
theorem op_cases (i : Instr) : PpuOp i ∨ BusOp i ∨ i = .cartLoad ∨ i = .hostCommit ∨ i = .orchStep
    ∨ i = .orchDispatch ∨ i = .orchTick := by
  cases i <;> simp [PpuOp, BusOp, Instr.variant]

/-- What every operation leaves alone, whatever its operands. -/
theorem exec_port {i : Instr} {s t : State} (h : exec i s = .next t) :
    t.cfg = s.cfg ∧ t.port.inbox = s.port.inbox ∧ t.port.loader = s.port.loader := by
  rcases op_cases i with hi | hi | rfl | rfl | rfl | rfl | rfl
  · have f := exec_ppu_frame hi h
    exact ⟨f.cfg, by rw [f.port], by rw [f.port]⟩
  · rcases hi with hv | ⟨a, rfl⟩ | ⟨a, d, rfl⟩ | ⟨d, rfl⟩ | ⟨d, rfl⟩
    · have f := exec_bus_frame (.inl hv) (fun e => absurd e hv) h
      exact ⟨f.cfg, f.inbox, f.loader⟩
    · change execEnvRd a s = .next t at h
      unfold execEnvRd at h
      split at h <;> cases h <;> exact ⟨rfl, rfl, rfl⟩
    · change execEnvWr a d s = .next t at h
      unfold execEnvWr at h
      split at h <;> cases h
      · exact ⟨by simp, by simp, by simp⟩
      · exact ⟨rfl, rfl, rfl⟩
    · cases h; exact ⟨rfl, rfl, rfl⟩
    · cases h; exact ⟨rfl, rfl, rfl⟩
  · rcases exec_load h with ⟨e, _⟩ | ⟨_, c, _, e⟩ <;> rw [e] <;> exact ⟨rfl, rfl, rfl⟩
  · change execHostCommit s = .next t at h
    unfold execHostCommit at h
    split at h <;> cases h <;> exact ⟨rfl, rfl, rfl⟩
  · have f := orchStep_core s t h
    exact ⟨f.cfg, f.inbox, f.loader⟩
  · have f := dispatch_quiet s t h
    exact ⟨f.cfg, f.inbox, f.loader⟩
  · have f := exec_tick_frame h
    exact ⟨f.cfg, f.inbox, f.loader⟩

end Sys2Proof.Machine
end

