-- ==== Sys2Proof/Laws/Frame.lean ====
section
/-! SUPPORT. What the passes of a scanline read (R190, R201): VRAM, OAM and registers the PPU does not write,
so a row is the same from any state the PPU's own events reach; and the frame's clock, turn by turn (R164). -/

namespace Sys2Proof.Machine

/-! ## The passes read nothing that the PPU writes -/

theorem regAt_of_lt {a : Nat} (h : a < 0xFF00) : regAt a = none := by
  unfold regAt
  iterate 14 rw [if_neg (by omega)]

theorem PpuFrame.memRead {s t : State} (f : PpuFrame s t) {a : Nat} (h : a < 0xFF00) :
    t.memRead a = s.memRead a := by
  unfold State.memRead
  rw [regAt_of_lt h, f.mem]

theorem tileDataAddr_le (idx : Byte) (sel : Bool) : tileDataAddr idx sel ≤ 0x97F0 := by
  have h1 := idx.isLt
  have h2 := BitVec.toInt_lt (x := idx)
  unfold tileDataAddr
  split <;> omega

theorem PpuFrame.bgWinPixel {s t : State} (f : PpuFrame s t) {x y : Nat} (hx : x < 160) (hy : y < 144) :
    bgWinPixel t x y = bgWinPixel s x y := by
  unfold Machine.bgWinPixel
  rw [f.io .lcdc (by decide) (by decide) (by decide), f.io .wy (by decide) (by decide) (by decide),
    f.io .wx (by decide) (by decide) (by decide), f.io .scx (by decide) (by decide) (by decide),
    f.io .scy (by decide) (by decide) (by decide), f.io .bgp (by decide) (by decide) (by decide)]
  dsimp only
  generalize hxy : (if windowActive (s.io .lcdc) (s.io .wy) (s.io .wx) x y = true
    then winCoord (s.io .wx) (s.io .wy) x y else bgCoord (s.io .scx) (s.io .scy) x y) = xy
  generalize hmap : mapBase (if windowActive (s.io .lcdc) (s.io .wy) (s.io .wx) x y = true
    then winMapSelect (s.io .lcdc) else bgMapSelect (s.io .lcdc)) = map
  have b1 : xy.1 < 256 ∧ xy.2 < 256 := by
    rw [← hxy]
    split
    · exact ⟨by show x + 7 - _ < 256; omega, by show y - _ < 256; omega⟩
    · exact ⟨Nat.mod_lt _ (by decide), Nat.mod_lt _ (by decide)⟩
  have b2 : map ≤ 0x9C00 := by
    rw [← hmap]
    unfold mapBase
    split_ifs <;> omega
  have e1 : t.memRead (mapEntryAddr map xy.1 xy.2) = s.memRead (mapEntryAddr map xy.1 xy.2) :=
    f.memRead (by unfold mapEntryAddr; omega)
  rw [e1]
  generalize s.memRead (mapEntryAddr map xy.1 xy.2) = idx
  have b3 := tileDataAddr_le idx (unsignedTiles (s.io .lcdc))
  have b4 : planeAddr (tileDataAddr idx (unsignedTiles (s.io .lcdc))) (xy.2 % 8) < 0xFE00 := by
    unfold planeAddr
    omega
  rw [f.memRead (by omega), f.memRead (by omega)]

theorem PpuFrame.bgWinRow {s t : State} (f : PpuFrame s t) {y : Nat} (hy : y < 144) :
    bgWinRow t y = bgWinRow s y := by
  apply Vector.ext
  intro x hx
  rw [bgWinRow_get _ _ _ hx, bgWinRow_get _ _ _ hx, f.bgWinPixel hx hy]

theorem PpuFrame.spritePixels {s t : State} (f : PpuFrame s t) (line : Nat) {i : Nat} (hi : i < 40) :
    spritePixels t line i = spritePixels s line i := by
  unfold Machine.spritePixels
  rw [f.io .lcdc (by decide) (by decide) (by decide), f.io .obp0 (by decide) (by decide) (by decide),
    f.io .obp1 (by decide) (by decide) (by decide), f.cfg]
  have he : oamEntry i + 3 < 0xFF00 := by unfold oamEntry; omega
  dsimp only
  rw [f.memRead (a := oamEntry i) (by omega), f.memRead (a := oamEntry i + 1) (by omega),
    f.memRead (a := oamEntry i + 2) (by omega), f.memRead (a := oamEntry i + 3) he]
  split
  · rename_i hc
    rw [spriteCovers_iff] at hc
    have hh : spriteHeight (s.io .lcdc) ≤ 16 := by unfold spriteHeight; split <;> omega
    generalize hr : spriteRow (s.memRead (oamEntry i)) line (spriteHeight (s.io .lcdc))
      (testBit (s.memRead (oamEntry i + 3)) 6) = r
    have b1 : r < 16 := by
      rw [← hr]
      unfold spriteRow
      split <;> omega
    generalize s.memRead (oamEntry i + 2) = tile
    have b2 : spriteRowAddr s.cfg.tallSpriteMaskLsb tile r (spriteHeight (s.io .lcdc)) < 0xFE00 := by
      have h1 := tile.isLt
      have h2 := (tile &&& 0xFE#8).isLt
      unfold spriteRowAddr
      split <;> omega
    rw [f.memRead (by omega), f.memRead (by omega)]
  · rfl

theorem PpuFrame.objPixels {s t : State} (f : PpuFrame s t) (line : Nat) : objPixels t line = objPixels s line := by
  unfold Machine.objPixels
  have key : ∀ l : List Nat, (∀ i ∈ l, i < 40) →
      l.flatMap (Machine.spritePixels t line) = l.flatMap (Machine.spritePixels s line) := by
    intro l
    induction l with
    | nil => intro _; rfl
    | cons i l ih =>
      intro h
      rw [List.flatMap_cons, List.flatMap_cons, f.spritePixels line (h i (by simp)),
        ih (fun j hj => h j (by simp [hj]))]
  exact key _ (fun i hi => by simpa using hi)

/-! ## The row of a scanline -/

/-- What the two passes leave in row `y` (R154). -/
def passRow (s : State) (y : Nat) : Row := (objPixels s y).foldl (drawPixel (behindShade s)) (bgWinRow s y)

theorem PpuFrame.passRow {s t : State} (f : PpuFrame s t) {y : Nat} (hy : y < 144) : passRow t y = passRow s y := by
  unfold Machine.passRow behindShade
  rw [f.objPixels, f.bgWinRow hy, f.cfg, f.io .bgp (by decide) (by decide) (by decide)]

theorem tVramHblank_exact (s : State) (hr : s.halted = false) (h : s.line < 144) :
    execPpuTVramHblank s = .next (enterHblank (s.setRow s.line (passRow s s.line))) := by
  unfold execPpuTVramHblank
  rw [rasterBgWin_of_lt h, andThen_of_running (by simpa using hr), line_setRow, rasterObj_of_lt h,
    andThen_of_running (by simpa using hr)]
  congr 2
  rw [setRow_setRow]
  have e1 : (s.setRow s.line (bgWinRow s s.line)).fb[s.line] = bgWinRow s s.line := by
    have := fb_setRow s s.line (bgWinRow s s.line) h
    rw [Vector.getElem?_eq_getElem h] at this
    exact Option.some.inj this
  rw [e1]
  rfl

/-! ## The frame's clock (R164) -/

/-- `t` is what `s` becomes when the frame has reached cycle `n`, having been at cycle `n0` in `s`: nothing
the passes read has changed, and the rows reached since hold what the passes draw. -/
structure AtCycle (s : State) (n0 n : Nat) (t : State) : Prop where
  frame : PpuFrame s t
  run : t.Running
  clock : (t.mode, t.line, t.ppu.counter) = frameClock n
  before : n < 65664 → t.ppu.frameReady = s.ppu.frameReady ∧ testBit (t.io .iflag) 0 = testBit (s.io .iflag) 0
  after : n0 < 65664 → 65664 ≤ n → t.ppu.frameReady = true ∧ testBit (t.io .iflag) 0 = true
  rows : ∀ y, y < 144 → t.fb[y]? = if n0 < 456 * y + 252 ∧ 456 * y + 252 ≤ n then some (passRow s y) else s.fb[y]?

/-- Where the clock stands, by the mode. -/
theorem AtCycle.place {s t : State} {n0 n : Nat} (h : AtCycle s n0 n t) (hn : n < 70224) :
    match t.mode with
    | .oam => n < 65664 ∧ n % 456 < 80 ∧ t.line = n / 456 ∧ t.ppu.counter = n % 456
    | .vram => n < 65664 ∧ 80 ≤ n % 456 ∧ n % 456 < 252 ∧ t.line = n / 456 ∧ t.ppu.counter = n % 456 - 80
    | .hblank => n < 65664 ∧ 252 ≤ n % 456 ∧ t.line = n / 456 ∧ t.ppu.counter = n % 456 - 252
    | .vblank => 65664 ≤ n ∧ t.line = 144 + (n - 65664) / 456 ∧ t.ppu.counter = (n - 65664) % 456 := by
  have hc := h.clock
  unfold frameClock at hc
  split_ifs at hc <;> simp only [Prod.mk.injEq] at hc <;> obtain ⟨hm, hl, hk⟩ := hc <;> rw [hm] <;>
    dsimp only <;> omega

theorem AtCycle.wait {s t : State} {n0 n : Nat} (h : AtCycle s n0 n t) (hn : n < 70224) {d : Nat}
    (hd : t.ppu.counter + d < threshold t.mode) : AtCycle s n0 (n + d) (t.setCounter (t.ppu.counter + d)) := by
  have hp := h.place hn
  have key : frameClock (n + d) = (t.mode, t.line, t.ppu.counter + d)
      ∧ (n < 65664 ↔ n + d < 65664) ∧ ∀ y, y < 144 → (456 * y + 252 ≤ n ↔ 456 * y + 252 ≤ n + d) := by
    unfold frameClock
    cases hm : t.mode <;> rw [hm] at hp hd <;> dsimp only [threshold] at hp hd <;>
      refine ⟨?_, by omega, fun y hy => by omega⟩ <;>
      split_ifs <;> first | omega | (simp only [Prod.mk.injEq, true_and]; omega)
  obtain ⟨k1, k2, k3⟩ := key
  exact
    { frame := h.frame.trans (PpuFrame.setCounter _ _)
      run := h.run
      clock := k1.symm
      before := fun hb => h.before (k2.mpr hb)
      after := fun h0 ha => h.after h0 (by omega)
      rows := fun y hy => by simp only [← k3 y hy]; exact h.rows y hy }

/-- What a turn must show beside its footprint to move the clock from cycle `n` to cycle `n'`. -/
theorem AtCycle.of_turn {s t u : State} {n0 n n' : Nat} (h : AtCycle s n0 n t) (f : PpuFrame t u) (hr : u.Running)
    (clock : (u.mode, u.line, u.ppu.counter) = frameClock n')
    (ready : (n < 65664 ↔ n' < 65664) → u.ppu.frameReady = t.ppu.frameReady
      ∧ testBit (u.io .iflag) 0 = testBit (t.io .iflag) 0)
    (set : n < 65664 → 65664 ≤ n' → u.ppu.frameReady = true ∧ testBit (u.io .iflag) 0 = true) (le : n ≤ n')
    (rows : ∀ y, y < 144 → u.fb[y]? = if n < 456 * y + 252 ∧ 456 * y + 252 ≤ n' then some (passRow t y) else t.fb[y]?)
    (h0 : n0 ≤ n) : AtCycle s n0 n' u where
  frame := h.frame.trans f
  run := hr
  clock := clock
  before := fun hb => by
    obtain ⟨r1, r2⟩ := ready (by omega)
    obtain ⟨b1, b2⟩ := h.before (by omega)
    exact ⟨r1.trans b1, r2.trans b2⟩
  after := fun h0 ha => by
    by_cases hn : n < 65664
    · exact set hn ha
    · obtain ⟨r1, r2⟩ := ready (by omega)
      obtain ⟨b1, b2⟩ := h.after h0 (by omega)
      exact ⟨r1.trans b1, r2.trans b2⟩
  rows := fun y hy => by
    rw [rows y hy, h.rows y hy, h.frame.passRow hy]
    by_cases c1 : n < 456 * y + 252 ∧ 456 * y + 252 ≤ n'
    · rw [if_pos c1, if_pos (by omega)]
    · rw [if_neg c1]
      by_cases c2 : n0 < 456 * y + 252 ∧ 456 * y + 252 ≤ n
      · rw [if_pos c2, if_pos (by omega)]
      · rw [if_neg c2, if_neg (by omega)]

theorem testBit_requestIf_lcd (s : State) (c : Bool) (k : Nat) (hk : k ≠ 1) :
    testBit ((s.requestIf c lcdStatusLine).io .iflag) k = testBit (s.io .iflag) k := by
  cases c
  · rfl
  · show testBit (setBit (s.io .iflag) 1) k = _
    rw [setBit_testBit _ _ _ (by decide)]
    simp [hk]

/-- A turn of R150's loop moves the frame to its next boundary. -/
theorem AtCycle.turn {s t : State} {n0 n : Nat} (h : AtCycle s n0 n t) (hn : n < 70224) (h0 : n0 ≤ n) :
    ∃ u, transition (t.setCounter 0) = .next u
      ∧ AtCycle s n0 (n + (threshold t.mode - t.ppu.counter)) u := by
  have hr := (running_iff t).mp h.run
  have hp := h.place hn
  unfold transition
  rw [mode_setCounter, line_setCounter]
  cases hm : t.mode <;> rw [hm] at hp <;> dsimp only [threshold] at hp ⊢
  · by_cases h144 : t.line + 1 = 144
    · simp only [h144, if_true]
      refine ⟨_, rfl, h.of_turn ?_ h.run ?_ ?_ ?_ ?_ ?_ h0⟩
      · exact (((PpuFrame.setCounter t 0).trans (PpuFrame.setLy _ _)).trans ((PpuFrame.setMode _ .vblank).trans
          (PpuFrame.requestInterrupt _ _ (by decide)))).trans (PpuFrame.setFrameReady _ _)
      · unfold frameClock
        rw [if_neg (by omega), if_pos (by omega)]
        have e1 : ∀ u : State, ((u.requestInterrupt vblankLine).setFrameReady true).mode = u.mode := fun _ => rfl
        have e2 : ∀ u : State, ((u.requestInterrupt vblankLine).setFrameReady true).line = u.line := fun _ => rfl
        rw [e1, e2, mode_setMode, line_setMode, line_setLy]
        simp only [Prod.mk.injEq, true_and]
        exact ⟨by show 144 = _; omega, by show 0 = _; omega⟩
      · intro _; omega
      · intro _ _
        refine ⟨rfl, ?_⟩
        show testBit (setBit _ 0) 0 = true
        rw [setBit_testBit _ _ _ (by decide)]
        simp
      · omega
      · intro y hy
        rw [if_neg (by omega)]
        rfl
    · simp only [h144, if_false]
      refine ⟨_, rfl, h.of_turn (((PpuFrame.setCounter t 0).trans (PpuFrame.setLy _ _)).trans (enterOam_frame _))
        ?_ ?_ ?_ ?_ ?_ ?_ h0⟩
      · rw [running_iff, halted_enterOam]; exact hr
      · have hl : ((t.setCounter 0).io .ly + 1).toNat = t.line + 1 := by
          have e : (t.io .ly).toNat = t.line := rfl
          show (t.io .ly + 1).toNat = _
          rw [BitVec.toNat_add, e]
          show (t.line + 1) % 256 = _
          omega
        unfold frameClock
        rw [if_pos (by omega), if_pos (by omega), mode_enterOam, line_enterOam, ppu_enterOam, line_setLy, hl]
        simp only [Prod.mk.injEq, true_and]
        exact ⟨by omega, by show 0 = _; omega⟩
      · intro _
        refine ⟨by rw [ppu_enterOam]; rfl, ?_⟩
        unfold enterOam
        rw [testBit_requestIf_lcd _ _ _ (by decide)]
        rfl
      · intro _ _; omega
      · omega
      · intro y hy
        rw [if_neg (by omega)]
        have e : (enterOam ((t.setCounter 0).setIo .ly ((t.setCounter 0).io .ly + 1))).fb = t.fb := by
          unfold enterOam State.requestIf
          split <;> rfl
        rw [e]
  · by_cases h153 : t.line = 153
    · simp only [h153, if_true]
      refine ⟨_, rfl, h.of_turn (((PpuFrame.setCounter t 0).trans (PpuFrame.setLy _ _)).trans (enterOam_frame _))
        ?_ ?_ ?_ ?_ ?_ ?_ h0⟩
      · rw [running_iff, halted_enterOam]; exact hr
      · unfold frameClock
        rw [if_neg (by omega), if_neg (by omega), mode_enterOam, line_enterOam, ppu_enterOam, line_setLy]
        simp only [Prod.mk.injEq, true_and]
        exact ⟨rfl, by show 0 = _; omega⟩
      · intro _
        refine ⟨by rw [ppu_enterOam]; rfl, ?_⟩
        unfold enterOam
        rw [testBit_requestIf_lcd _ _ _ (by decide)]
        rfl
      · intro _ _; omega
      · omega
      · intro y hy
        rw [if_neg (by omega)]
        have e : (enterOam ((t.setCounter 0).setIo .ly 0)).fb = t.fb := by
          unfold enterOam State.requestIf
          split <;> rfl
        rw [e]
    · simp only [h153, if_false]
      refine ⟨_, rfl, h.of_turn ((PpuFrame.setCounter t 0).trans (PpuFrame.setLy _ _)) h.run ?_ ?_ ?_ ?_ ?_ h0⟩
      · have hl : ((t.setCounter 0).io .ly + 1).toNat = t.line + 1 := by
          have e : (t.io .ly).toNat = t.line := rfl
          show (t.io .ly + 1).toNat = _
          rw [BitVec.toNat_add, e]
          show (t.line + 1) % 256 = _
          omega
        unfold frameClock
        rw [if_neg (by omega), if_pos (by omega), mode_setLy, mode_setCounter, hm, line_setLy, hl]
        simp only [Prod.mk.injEq, true_and]
        exact ⟨by omega, by show 0 = _; omega⟩
      · exact fun _ => ⟨rfl, rfl⟩
      · intro _ _; omega
      · omega
      · intro y hy
        rw [if_neg (by omega)]
        rfl
  · refine ⟨_, rfl, h.of_turn ((PpuFrame.setCounter t 0).trans (PpuFrame.setMode _ .vram)) h.run ?_ ?_ ?_ ?_ ?_ h0⟩
    · rw [mode_setMode, line_setMode]
      unfold frameClock
      rw [if_pos (by omega), if_neg (by omega), if_pos (by omega)]
      simp only [Prod.mk.injEq, true_and]
      exact ⟨by rw [line_setCounter]; omega, by show 0 = _; omega⟩
    · exact fun _ => ⟨rfl, by simp⟩
    · intro _ _; omega
    · omega
    · intro y hy
      rw [if_neg (by omega)]
      rfl
  · have hl : (t.setCounter 0).line < 144 := by rw [line_setCounter]; omega
    have hrow : t.line = n / 456 := hp.2.2.2.1
    refine ⟨_, tVramHblank_exact _ hr hl, h.of_turn (((PpuFrame.setCounter t 0).trans (PpuFrame.setRow _ _ _)).trans
      (enterHblank_frame _)) ?_ ?_ ?_ ?_ ?_ ?_ h0⟩
    · rw [running_iff, halted_enterHblank]; exact hr
    · rw [mode_enterHblank, line_enterHblank, ppu_enterHblank, line_setRow, line_setCounter]
      unfold frameClock
      rw [if_pos (by omega), if_neg (by omega), if_neg (by omega)]
      simp only [Prod.mk.injEq, true_and]
      exact ⟨by omega, by show 0 = _; omega⟩
    · intro _
      refine ⟨by rw [ppu_enterHblank]; rfl, ?_⟩
      unfold enterHblank
      rw [testBit_requestIf_lcd _ _ _ (by decide)]
      rfl
    · intro _ _; omega
    · omega
    · intro y hy
      have e : (enterHblank ((t.setCounter 0).setRow (t.setCounter 0).line
          (passRow (t.setCounter 0) (t.setCounter 0).line))).fb = (t.setRow t.line (passRow t t.line)).fb := by
        unfold enterHblank State.requestIf
        split <;> rfl
      rw [e]
      by_cases hy' : y = t.line
      · rw [if_pos (by omega), hy', fb_setRow _ _ _ (by omega)]
      · rw [if_neg (by omega)]
        show (t.fb.setIfInBounds t.line _)[y]? = _
        rw [Vector.getElem?_setIfInBounds_ne (fun e => hy' e.symm)]

theorem AtCycle.start {s : State} {n : Nat} (hr : s.Running)
    (clock : (s.mode, s.line, s.ppu.counter) = frameClock n) : AtCycle s n n s where
  frame := PpuFrame.refl s
  run := hr
  clock := clock
  before := fun _ => ⟨rfl, rfl⟩
  after := fun _ _ => by omega
  rows := fun y _ => by rw [if_neg (by omega)]

/-- From its start the loop takes the frame to every cycle up to the next frame's start (R164). -/
theorem AtCycle.reach {s : State} {n : Nat} (h : AtCycle s n n s) (k : Nat) (hk : n + k ≤ 70224) :
    ∃ ev u, LoopRun (s.setCounter (s.ppu.counter + k)) ev u ∧ AtCycle s n (n + k) u := by
  have exits : ∀ m u, m ≤ 70224 → AtCycle s n m u → u.ppu.counter < threshold u.mode := by
    intro m u hm hu
    by_cases hlt : m < 70224
    · have hp := hu.place hlt
      cases e : u.mode <;> rw [e] at hp <;> dsimp only [threshold] at hp ⊢ <;> omega
    · have hc := hu.clock
      unfold frameClock at hc
      rw [if_neg (by omega), if_neg (by omega)] at hc
      simp only [Prod.mk.injEq] at hc
      rw [hc.1, hc.2.2]
      dsimp only [threshold]
      omega
  induction k with
  | zero => exact ⟨[], s, .exit (exits n s (by omega) h), h⟩
  | succ k ih =>
    obtain ⟨ev, u, hrun, hu⟩ := ih (by omega)
    have hc := exits _ _ (by omega) hu
    have join : ∀ ev' v, LoopRun (u.setCounter (u.ppu.counter + 1)) ev' v → AtCycle s n (n + k + 1) v →
        ∃ ev v, LoopRun (s.setCounter (s.ppu.counter + (k + 1))) ev v ∧ AtCycle s n (n + (k + 1)) v :=
      fun ev' v hv ha => ⟨ev ++ ev', v, LoopRun.add 1 hrun hu.run hv, ha⟩
    by_cases hw : u.ppu.counter + 1 < threshold u.mode
    · exact join [] _ (.exit hw) (hu.wait (by omega) hw)
    · obtain ⟨v, hv, ha⟩ := hu.turn (by omega) (by omega)
      have hd : threshold u.mode - u.ppu.counter = 1 := by omega
      rw [hd] at ha
      refine join _ v (.turn (by show threshold u.mode ≤ u.ppu.counter + 1; omega) ?_ ha.run
        (.exit (exits _ _ (by omega) ha))) ha
      rw [exec_turnEvent]
      have e : (u.setCounter (u.ppu.counter + 1)).setCounter
          ((u.setCounter (u.ppu.counter + 1)).ppu.counter - threshold (u.setCounter (u.ppu.counter + 1)).mode)
          = u.setCounter 0 := by
        show u.setCounter (u.ppu.counter + 1 - threshold u.mode) = u.setCounter 0
        congr 1
        omega
      rw [e]
      exact hv

end Sys2Proof.Machine
end

