-- ==== Sys2Proof/Laws/PerInstr.lean ====
section
/-! SUPPORT. Per instruction: the word of an operation is a word of its row of spec/opcode_table.json. -/

namespace Sys2Proof.Laws.TableRow

/-- A row of spec/opcode_table.json, as that file writes it. -/
structure Row where
  mnemonic : String
  mask : Word
  pattern : Word
  deriving DecidableEq, Repr

/-- The row of an operation. -/
def rowOf : Instr → Row
  | .ppuAdvance _ => { mnemonic := "PPU.ADVANCE", mask := 0xFF000000#32, pattern := 0x10000000#32 }
  | .cartFRdRom0 _ => { mnemonic := "CART.F.RD_ROM0", mask := 0xFFC000FF#32, pattern := 0x20000000#32 }
  | .cartFRdRomx _ => { mnemonic := "CART.F.RD_ROMX", mask := 0xFFC000FF#32, pattern := 0x20400000#32 }
  | .cartFRdRam _ => { mnemonic := "CART.F.RD_RAM", mask := 0xFFE000FF#32, pattern := 0x20A00000#32 }
  | .cartFWrRom _ _ => { mnemonic := "CART.F.WR_ROM", mask := 0xFF800000#32, pattern := 0x21000000#32 }
  | .cartFWrRam _ _ => { mnemonic := "CART.F.WR_RAM", mask := 0xFFE00000#32, pattern := 0x21A00000#32 }
  | .cartARdRom0 _ => { mnemonic := "CART.A.RD_ROM0", mask := 0xFFC000FF#32, pattern := 0x20000000#32 }
  | .cartARdRomx _ => { mnemonic := "CART.A.RD_ROMX", mask := 0xFFC000FF#32, pattern := 0x20400000#32 }
  | .cartARdRam _ => { mnemonic := "CART.A.RD_RAM", mask := 0xFFE000FF#32, pattern := 0x20A00000#32 }
  | .cartAWrRamen _ _ => { mnemonic := "CART.A.WR_RAMEN", mask := 0xFFE00000#32, pattern := 0x21000000#32 }
  | .cartAWrBank1 _ _ => { mnemonic := "CART.A.WR_BANK1", mask := 0xFFE00000#32, pattern := 0x21200000#32 }
  | .cartAWrBank2 _ _ => { mnemonic := "CART.A.WR_BANK2", mask := 0xFFE00000#32, pattern := 0x21400000#32 }
  | .cartAWrMode _ _ => { mnemonic := "CART.A.WR_MODE", mask := 0xFFE00000#32, pattern := 0x21600000#32 }
  | .cartAWrRam _ _ => { mnemonic := "CART.A.WR_RAM", mask := 0xFFE00000#32, pattern := 0x21A00000#32 }
  | .cartBRdRom0 _ => { mnemonic := "CART.B.RD_ROM0", mask := 0xFFC000FF#32, pattern := 0x20000000#32 }
  | .cartBRdRomx _ => { mnemonic := "CART.B.RD_ROMX", mask := 0xFFC000FF#32, pattern := 0x20400000#32 }
  | .cartBRdRam _ => { mnemonic := "CART.B.RD_RAM", mask := 0xFFE000FF#32, pattern := 0x20A00000#32 }
  | .cartBWrRamen _ _ => { mnemonic := "CART.B.WR_RAMEN", mask := 0xFFE00000#32, pattern := 0x21000000#32 }
  | .cartBWrRomb _ _ => { mnemonic := "CART.B.WR_ROMB", mask := 0xFFE00000#32, pattern := 0x21200000#32 }
  | .cartBWrHi _ _ => { mnemonic := "CART.B.WR_HI", mask := 0xFFC00000#32, pattern := 0x21400000#32 }
  | .cartBWrRam _ _ => { mnemonic := "CART.B.WR_RAM", mask := 0xFFE00000#32, pattern := 0x21A00000#32 }
  | .cartCRdRom0 _ => { mnemonic := "CART.C.RD_ROM0", mask := 0xFFC000FF#32, pattern := 0x20000000#32 }
  | .cartCRdRomx _ => { mnemonic := "CART.C.RD_ROMX", mask := 0xFFC000FF#32, pattern := 0x20400000#32 }
  | .cartCRdRam _ => { mnemonic := "CART.C.RD_RAM", mask := 0xFFE000FF#32, pattern := 0x20A00000#32 }
  | .cartCWrRamen _ _ => { mnemonic := "CART.C.WR_RAMEN", mask := 0xFFE00000#32, pattern := 0x21000000#32 }
  | .cartCWrRomb _ _ => { mnemonic := "CART.C.WR_ROMB", mask := 0xFFE00000#32, pattern := 0x21200000#32 }
  | .cartCWrRamsel _ _ => { mnemonic := "CART.C.WR_RAMSEL", mask := 0xFFE00000#32, pattern := 0x21400000#32 }
  | .cartCWrLatch _ _ => { mnemonic := "CART.C.WR_LATCH", mask := 0xFFE00000#32, pattern := 0x21600000#32 }
  | .cartCWrRam _ _ => { mnemonic := "CART.C.WR_RAM", mask := 0xFFE00000#32, pattern := 0x21A00000#32 }
  | .cartDRdRom0 _ => { mnemonic := "CART.D.RD_ROM0", mask := 0xFFC000FF#32, pattern := 0x20000000#32 }
  | .cartDRdRomx _ => { mnemonic := "CART.D.RD_ROMX", mask := 0xFFC000FF#32, pattern := 0x20400000#32 }
  | .cartDRdRam _ => { mnemonic := "CART.D.RD_RAM", mask := 0xFFE000FF#32, pattern := 0x20A00000#32 }
  | .cartDWrRamen _ _ => { mnemonic := "CART.D.WR_RAMEN", mask := 0xFFE00000#32, pattern := 0x21000000#32 }
  | .cartDWrRombLo _ _ => { mnemonic := "CART.D.WR_ROMB_LO", mask := 0xFFF00000#32, pattern := 0x21200000#32 }
  | .cartDWrRombHi _ _ => { mnemonic := "CART.D.WR_ROMB_HI", mask := 0xFFF00000#32, pattern := 0x21300000#32 }
  | .cartDWrRamb _ _ => { mnemonic := "CART.D.WR_RAMB", mask := 0xFFE00000#32, pattern := 0x21400000#32 }
  | .cartDWr6000 _ _ => { mnemonic := "CART.D.WR_6000", mask := 0xFFE00000#32, pattern := 0x21600000#32 }
  | .cartDWrRam _ _ => { mnemonic := "CART.D.WR_RAM", mask := 0xFFE00000#32, pattern := 0x21A00000#32 }
  | .orchTick => { mnemonic := "ORCH.TICK", mask := 0xFFFFFFFF#32, pattern := 0x30000000#32 }
  | .hostCommit => { mnemonic := "HOST.COMMIT", mask := 0xFFFFFFFF#32, pattern := 0x31000000#32 }
  | .cartLoad => { mnemonic := "CART.LOAD", mask := 0xFFFFFFFF#32, pattern := 0x40000000#32 }
  | .envRd _ => { mnemonic := "ENV.RD", mask := 0xFF0000FF#32, pattern := 0x50000000#32 }
  | .envWrStat _ => { mnemonic := "ENV.WR_STAT", mask := 0xFFFFFF00#32, pattern := 0x51FF4100#32 }
  | .envWrLy _ => { mnemonic := "ENV.WR_LY", mask := 0xFFFFFF00#32, pattern := 0x51FF4400#32 }
  | .envWr _ _ => { mnemonic := "ENV.WR", mask := 0xFF000000#32, pattern := 0x51000000#32 }
  | .ppuLcdOff => { mnemonic := "PPU.LCD_OFF", mask := 0xFFFFFFFF#32, pattern := 0x80000000#32 }
  | .ppuTOamVram => { mnemonic := "PPU.T_OAM_VRAM", mask := 0xFFFFFFFF#32, pattern := 0x81000000#32 }
  | .ppuTVramHblank => { mnemonic := "PPU.T_VRAM_HBLANK", mask := 0xFFFFFFFF#32, pattern := 0x82000000#32 }
  | .ppuTHblankOam => { mnemonic := "PPU.T_HBLANK_OAM", mask := 0xFFFFFFFF#32, pattern := 0x83000000#32 }
  | .ppuTHblankVblank => { mnemonic := "PPU.T_HBLANK_VBLANK", mask := 0xFFFFFFFF#32, pattern := 0x84000000#32 }
  | .ppuTVblankLine => { mnemonic := "PPU.T_VBLANK_LINE", mask := 0xFFFFFFFF#32, pattern := 0x85000000#32 }
  | .ppuTVblankOam => { mnemonic := "PPU.T_VBLANK_OAM", mask := 0xFFFFFFFF#32, pattern := 0x86000000#32 }
  | .ppuLycCheck => { mnemonic := "PPU.LYC_CHECK", mask := 0xFFFFFFFF#32, pattern := 0x87000000#32 }
  | .rasterBgwin => { mnemonic := "RASTER.BGWIN", mask := 0xFFFFFFFF#32, pattern := 0x88000000#32 }
  | .rasterObj => { mnemonic := "RASTER.OBJ", mask := 0xFFFFFFFF#32, pattern := 0x89000000#32 }
  | .orchStep => { mnemonic := "ORCH.STEP", mask := 0xFFFFFFFF#32, pattern := 0x90000000#32 }
  | .orchDispatch => { mnemonic := "ORCH.DISPATCH", mask := 0xFFFFFFFF#32, pattern := 0x91000000#32 }

/-- The word of a well-formed operation has its row's pattern under the row's mask. -/
def Statement (i : Instr) : Prop :=
  i.wellFormed = true → encode i &&& (rowOf i).mask = (rowOf i).pattern

/-! ## The bits of an address in a block of `2 ^ k` addresses -/

theorem bit_of_block {a : Addr} {k c j : Nat} (h : a.toNat / 2 ^ k = c) (hj : k ≤ j) :
    a.getLsbD j = c.testBit (j - k) := by
  rw [← h, Nat.testBit_div_two_pow, Nat.sub_add_cancel hj, BitVec.testBit_toNat]

/-- What a row must fix for the words of a block of addresses to match it. -/
abbrev Fixes (u o : BitVec 4) (mask pattern : Word) (k c : Nat) : Prop :=
  (∀ j < 16, if mask.getLsbD (8 + j) then k ≤ j ∧ c.testBit (j - k) = pattern.getLsbD (8 + j)
    else pattern.getLsbD (8 + j) = false)
  ∧ (∀ j < 4, mask.getLsbD (24 + j) = true ∧ o.getLsbD j = pattern.getLsbD (24 + j))
  ∧ (∀ j < 4, mask.getLsbD (28 + j) = true ∧ u.getLsbD j = pattern.getLsbD (28 + j))
  ∧ (∀ j < 8, pattern.getLsbD j = false)

theorem masked {u o : BitVec 4} {a : Addr} {d : Byte} {mask pattern : Word} {k c : Nat}
    (h : a.toNat / 2 ^ k = c) (hf : Fixes u o mask pattern k c)
    (hd : ∀ j < 8, (d.getLsbD j && mask.getLsbD j) = false) :
    wordAD u o a d &&& mask = pattern := by
  obtain ⟨h1, h2, h3, h4⟩ := hf
  apply BitVec.eq_of_getLsbD_eq
  intro i hi
  rw [BitVec.getLsbD_and, wordAD, getLsbD_wordP]
  by_cases c1 : i < 8
  · have e : i < 24 := by omega
    rw [if_pos e, getLsbD_addrData, if_pos c1, hd i c1, h4 i c1]
  · by_cases c2 : i < 24
    · have e := h1 (i - 8) (by omega)
      rw [show 8 + (i - 8) = i by omega] at e
      rw [if_pos c2, getLsbD_addrData, if_neg c1]
      by_cases m : mask.getLsbD i = true
      · rw [if_pos m] at e
        rw [m, Bool.and_true, bit_of_block h e.1, e.2]
      · rw [if_neg m] at e
        rw [e, Bool.eq_false_iff.mpr m, Bool.and_false]
    · rw [if_neg c2]
      by_cases c3 : i < 28
      · have e := h2 (i - 24) (by omega)
        rw [show 24 + (i - 24) = i by omega] at e
        rw [if_pos c3, e.1, e.2, Bool.and_true]
      · have e := h3 (i - 28) (by omega)
        rw [show 28 + (i - 28) = i by omega] at e
        rw [if_neg c3, e.1, e.2, Bool.and_true]

/-- A window whose ends are `2 ^ k` block ends. -/
theorem block {a : Addr} {lo hi k c : Nat} (h : a.within lo hi = true) (h1 : c * 2 ^ k ≤ lo)
    (h2 : hi < (c + 1) * 2 ^ k) : a.toNat / 2 ^ k = c := by
  simp only [Addr.within, Bool.and_eq_true, decide_eq_true_eq] at h
  exact Nat.div_eq_of_lt_le (by omega) (by omega)

theorem free {mask : Word} {d : Byte} (h : ∀ j < 8, mask.getLsbD j = false) :
    ∀ j < 8, (d.getLsbD j && mask.getLsbD j) = false := by
  intro j hj
  rw [h j hj, Bool.and_false]

theorem payload_masked (u o : BitVec 4) (p : Payload) (mask pattern : Word)
    (h : ∀ i < 32, if i < 24 then (mask.getLsbD i || pattern.getLsbD i) = false
      else mask.getLsbD i = true ∧ pattern.getLsbD i = if i < 28 then o.getLsbD (i - 24) else u.getLsbD (i - 28)) :
    wordP u o p &&& mask = pattern := by
  apply BitVec.eq_of_getLsbD_eq
  intro i hi
  have e := h i hi
  rw [BitVec.getLsbD_and, getLsbD_wordP]
  by_cases c : i < 24
  · rw [if_pos c] at e ⊢
    rw [Bool.or_eq_false_iff] at e
    rw [e.1, e.2, Bool.and_false]
  · rw [if_neg c] at e ⊢
    rw [e.1, e.2, Bool.and_true]

/-! ## The words of a register write -/

theorem regWord_masked (a : Addr) (d : Byte) (mask pattern : Word) (h : ∀ j < 8, mask.getLsbD j = false)
    (hf : Fixes 5 1 mask pattern 0 a.toNat) : envWriteWord a d &&& mask = pattern :=
  masked (k := 0) (c := a.toNat) (by simp) hf (free h)

/-! ## One lemma per operation -/

theorem ppuAdvance (cycles : Payload) : Statement (.ppuAdvance cycles) := by
  intro _
  exact payload_masked 1 0 cycles 0xFF000000#32 0x10000000#32 (by decide)

theorem cartFRdRom0 (addr : Addr) : Statement (.cartFRdRom0 addr) := by
  intro h
  exact masked (mask := 0xFFC000FF#32) (pattern := 0x20000000#32)
    (block (k := 14) (c := 0) h (by decide) (by decide)) (by decide) (by decide)

theorem cartFRdRomx (addr : Addr) : Statement (.cartFRdRomx addr) := by
  intro h
  exact masked (mask := 0xFFC000FF#32) (pattern := 0x20400000#32)
    (block (k := 14) (c := 1) h (by decide) (by decide)) (by decide) (by decide)

theorem cartFRdRam (addr : Addr) : Statement (.cartFRdRam addr) := by
  intro h
  exact masked (mask := 0xFFE000FF#32) (pattern := 0x20A00000#32)
    (block (k := 13) (c := 5) h (by decide) (by decide)) (by decide) (by decide)

theorem cartFWrRom (addr : Addr) (data : Byte) : Statement (.cartFWrRom addr data) := by
  intro h
  exact masked (mask := 0xFF800000#32) (pattern := 0x21000000#32)
    (block (k := 15) (c := 0) h (by decide) (by decide)) (by decide) (free (by decide))

theorem cartFWrRam (addr : Addr) (data : Byte) : Statement (.cartFWrRam addr data) := by
  intro h
  exact masked (mask := 0xFFE00000#32) (pattern := 0x21A00000#32)
    (block (k := 13) (c := 5) h (by decide) (by decide)) (by decide) (free (by decide))

theorem cartARdRom0 (addr : Addr) : Statement (.cartARdRom0 addr) := by
  intro h
  exact masked (mask := 0xFFC000FF#32) (pattern := 0x20000000#32)
    (block (k := 14) (c := 0) h (by decide) (by decide)) (by decide) (by decide)

theorem cartARdRomx (addr : Addr) : Statement (.cartARdRomx addr) := by
  intro h
  exact masked (mask := 0xFFC000FF#32) (pattern := 0x20400000#32)
    (block (k := 14) (c := 1) h (by decide) (by decide)) (by decide) (by decide)

theorem cartARdRam (addr : Addr) : Statement (.cartARdRam addr) := by
  intro h
  exact masked (mask := 0xFFE000FF#32) (pattern := 0x20A00000#32)
    (block (k := 13) (c := 5) h (by decide) (by decide)) (by decide) (by decide)

theorem cartAWrRamen (addr : Addr) (data : Byte) : Statement (.cartAWrRamen addr data) := by
  intro h
  exact masked (mask := 0xFFE00000#32) (pattern := 0x21000000#32)
    (block (k := 13) (c := 0) h (by decide) (by decide)) (by decide) (free (by decide))

theorem cartAWrBank1 (addr : Addr) (data : Byte) : Statement (.cartAWrBank1 addr data) := by
  intro h
  exact masked (mask := 0xFFE00000#32) (pattern := 0x21200000#32)
    (block (k := 13) (c := 1) h (by decide) (by decide)) (by decide) (free (by decide))

theorem cartAWrBank2 (addr : Addr) (data : Byte) : Statement (.cartAWrBank2 addr data) := by
  intro h
  exact masked (mask := 0xFFE00000#32) (pattern := 0x21400000#32)
    (block (k := 13) (c := 2) h (by decide) (by decide)) (by decide) (free (by decide))

theorem cartAWrMode (addr : Addr) (data : Byte) : Statement (.cartAWrMode addr data) := by
  intro h
  exact masked (mask := 0xFFE00000#32) (pattern := 0x21600000#32)
    (block (k := 13) (c := 3) h (by decide) (by decide)) (by decide) (free (by decide))

theorem cartAWrRam (addr : Addr) (data : Byte) : Statement (.cartAWrRam addr data) := by
  intro h
  exact masked (mask := 0xFFE00000#32) (pattern := 0x21A00000#32)
    (block (k := 13) (c := 5) h (by decide) (by decide)) (by decide) (free (by decide))

theorem cartBRdRom0 (addr : Addr) : Statement (.cartBRdRom0 addr) := by
  intro h
  exact masked (mask := 0xFFC000FF#32) (pattern := 0x20000000#32)
    (block (k := 14) (c := 0) h (by decide) (by decide)) (by decide) (by decide)

theorem cartBRdRomx (addr : Addr) : Statement (.cartBRdRomx addr) := by
  intro h
  exact masked (mask := 0xFFC000FF#32) (pattern := 0x20400000#32)
    (block (k := 14) (c := 1) h (by decide) (by decide)) (by decide) (by decide)

theorem cartBRdRam (addr : Addr) : Statement (.cartBRdRam addr) := by
  intro h
  exact masked (mask := 0xFFE000FF#32) (pattern := 0x20A00000#32)
    (block (k := 13) (c := 5) h (by decide) (by decide)) (by decide) (by decide)

theorem cartBWrRamen (addr : Addr) (data : Byte) : Statement (.cartBWrRamen addr data) := by
  intro h
  exact masked (mask := 0xFFE00000#32) (pattern := 0x21000000#32)
    (block (k := 13) (c := 0) h (by decide) (by decide)) (by decide) (free (by decide))

theorem cartBWrRomb (addr : Addr) (data : Byte) : Statement (.cartBWrRomb addr data) := by
  intro h
  exact masked (mask := 0xFFE00000#32) (pattern := 0x21200000#32)
    (block (k := 13) (c := 1) h (by decide) (by decide)) (by decide) (free (by decide))

theorem cartBWrHi (addr : Addr) (data : Byte) : Statement (.cartBWrHi addr data) := by
  intro h
  exact masked (mask := 0xFFC00000#32) (pattern := 0x21400000#32)
    (block (k := 14) (c := 1) h (by decide) (by decide)) (by decide) (free (by decide))

theorem cartBWrRam (addr : Addr) (data : Byte) : Statement (.cartBWrRam addr data) := by
  intro h
  exact masked (mask := 0xFFE00000#32) (pattern := 0x21A00000#32)
    (block (k := 13) (c := 5) h (by decide) (by decide)) (by decide) (free (by decide))

theorem cartCRdRom0 (addr : Addr) : Statement (.cartCRdRom0 addr) := by
  intro h
  exact masked (mask := 0xFFC000FF#32) (pattern := 0x20000000#32)
    (block (k := 14) (c := 0) h (by decide) (by decide)) (by decide) (by decide)

theorem cartCRdRomx (addr : Addr) : Statement (.cartCRdRomx addr) := by
  intro h
  exact masked (mask := 0xFFC000FF#32) (pattern := 0x20400000#32)
    (block (k := 14) (c := 1) h (by decide) (by decide)) (by decide) (by decide)

theorem cartCRdRam (addr : Addr) : Statement (.cartCRdRam addr) := by
  intro h
  exact masked (mask := 0xFFE000FF#32) (pattern := 0x20A00000#32)
    (block (k := 13) (c := 5) h (by decide) (by decide)) (by decide) (by decide)

theorem cartCWrRamen (addr : Addr) (data : Byte) : Statement (.cartCWrRamen addr data) := by
  intro h
  exact masked (mask := 0xFFE00000#32) (pattern := 0x21000000#32)
    (block (k := 13) (c := 0) h (by decide) (by decide)) (by decide) (free (by decide))

theorem cartCWrRomb (addr : Addr) (data : Byte) : Statement (.cartCWrRomb addr data) := by
  intro h
  exact masked (mask := 0xFFE00000#32) (pattern := 0x21200000#32)
    (block (k := 13) (c := 1) h (by decide) (by decide)) (by decide) (free (by decide))

theorem cartCWrRamsel (addr : Addr) (data : Byte) : Statement (.cartCWrRamsel addr data) := by
  intro h
  exact masked (mask := 0xFFE00000#32) (pattern := 0x21400000#32)
    (block (k := 13) (c := 2) h (by decide) (by decide)) (by decide) (free (by decide))

theorem cartCWrLatch (addr : Addr) (data : Byte) : Statement (.cartCWrLatch addr data) := by
  intro h
  exact masked (mask := 0xFFE00000#32) (pattern := 0x21600000#32)
    (block (k := 13) (c := 3) h (by decide) (by decide)) (by decide) (free (by decide))

theorem cartCWrRam (addr : Addr) (data : Byte) : Statement (.cartCWrRam addr data) := by
  intro h
  exact masked (mask := 0xFFE00000#32) (pattern := 0x21A00000#32)
    (block (k := 13) (c := 5) h (by decide) (by decide)) (by decide) (free (by decide))

theorem cartDRdRom0 (addr : Addr) : Statement (.cartDRdRom0 addr) := by
  intro h
  exact masked (mask := 0xFFC000FF#32) (pattern := 0x20000000#32)
    (block (k := 14) (c := 0) h (by decide) (by decide)) (by decide) (by decide)

theorem cartDRdRomx (addr : Addr) : Statement (.cartDRdRomx addr) := by
  intro h
  exact masked (mask := 0xFFC000FF#32) (pattern := 0x20400000#32)
    (block (k := 14) (c := 1) h (by decide) (by decide)) (by decide) (by decide)

theorem cartDRdRam (addr : Addr) : Statement (.cartDRdRam addr) := by
  intro h
  exact masked (mask := 0xFFE000FF#32) (pattern := 0x20A00000#32)
    (block (k := 13) (c := 5) h (by decide) (by decide)) (by decide) (by decide)

theorem cartDWrRamen (addr : Addr) (data : Byte) : Statement (.cartDWrRamen addr data) := by
  intro h
  exact masked (mask := 0xFFE00000#32) (pattern := 0x21000000#32)
    (block (k := 13) (c := 0) h (by decide) (by decide)) (by decide) (free (by decide))

theorem cartDWrRombLo (addr : Addr) (data : Byte) : Statement (.cartDWrRombLo addr data) := by
  intro h
  exact masked (mask := 0xFFF00000#32) (pattern := 0x21200000#32)
    (block (k := 12) (c := 2) h (by decide) (by decide)) (by decide) (free (by decide))

theorem cartDWrRombHi (addr : Addr) (data : Byte) : Statement (.cartDWrRombHi addr data) := by
  intro h
  exact masked (mask := 0xFFF00000#32) (pattern := 0x21300000#32)
    (block (k := 12) (c := 3) h (by decide) (by decide)) (by decide) (free (by decide))

theorem cartDWrRamb (addr : Addr) (data : Byte) : Statement (.cartDWrRamb addr data) := by
  intro h
  exact masked (mask := 0xFFE00000#32) (pattern := 0x21400000#32)
    (block (k := 13) (c := 2) h (by decide) (by decide)) (by decide) (free (by decide))

theorem cartDWr6000 (addr : Addr) (data : Byte) : Statement (.cartDWr6000 addr data) := by
  intro h
  exact masked (mask := 0xFFE00000#32) (pattern := 0x21600000#32)
    (block (k := 13) (c := 3) h (by decide) (by decide)) (by decide) (free (by decide))

theorem cartDWrRam (addr : Addr) (data : Byte) : Statement (.cartDWrRam addr data) := by
  intro h
  exact masked (mask := 0xFFE00000#32) (pattern := 0x21A00000#32)
    (block (k := 13) (c := 5) h (by decide) (by decide)) (by decide) (free (by decide))

theorem orchTick : Statement (.orchTick) := by
  intro _
  decide

theorem hostCommit : Statement (.hostCommit) := by
  intro _
  decide

theorem cartLoad : Statement (.cartLoad) := by
  intro _
  decide

theorem envRd (addr : Addr) : Statement (.envRd addr) := by
  intro _
  exact masked (mask := 0xFF0000FF#32) (pattern := 0x50000000#32) (k := 16) (c := 0) (Nat.div_eq_of_lt addr.isLt) (by decide) (by decide)

theorem envWrStat (data : Byte) : Statement (.envWrStat data) := by
  intro _
  exact regWord_masked 0xFF41#16 data 0xFFFFFF00#32 0x51FF4100#32 (by decide) (by decide)

theorem envWrLy (data : Byte) : Statement (.envWrLy data) := by
  intro _
  exact regWord_masked 0xFF44#16 data 0xFFFFFF00#32 0x51FF4400#32 (by decide) (by decide)

theorem envWr (addr : Addr) (data : Byte) : Statement (.envWr addr data) := by
  intro _
  exact masked (mask := 0xFF000000#32) (pattern := 0x51000000#32) (k := 16) (c := 0) (Nat.div_eq_of_lt addr.isLt) (by decide) (free (by decide))

theorem ppuLcdOff : Statement (.ppuLcdOff) := by
  intro _
  decide

theorem ppuTOamVram : Statement (.ppuTOamVram) := by
  intro _
  decide

theorem ppuTVramHblank : Statement (.ppuTVramHblank) := by
  intro _
  decide

theorem ppuTHblankOam : Statement (.ppuTHblankOam) := by
  intro _
  decide

theorem ppuTHblankVblank : Statement (.ppuTHblankVblank) := by
  intro _
  decide

theorem ppuTVblankLine : Statement (.ppuTVblankLine) := by
  intro _
  decide

theorem ppuTVblankOam : Statement (.ppuTVblankOam) := by
  intro _
  decide

theorem ppuLycCheck : Statement (.ppuLycCheck) := by
  intro _
  decide

theorem rasterBgwin : Statement (.rasterBgwin) := by
  intro _
  decide

theorem rasterObj : Statement (.rasterObj) := by
  intro _
  decide

theorem orchStep : Statement (.orchStep) := by
  intro _
  decide

theorem orchDispatch : Statement (.orchDispatch) := by
  intro _
  decide

end Sys2Proof.Laws.TableRow
end

