-- ==== Sys2Proof/Tests/Slice0.lean ====
section
/-! SUPPORT. Tests.  Expected results come from spec/95_test_vectors.md (the vector's name stands beside
each), from the encodings of 30_encoding.md, or by hand from the rule named. -/

namespace Sys2Proof.Tests

open Sys2Proof Sys2Proof.Machine

/-! ## Helpers -/

/-- The operation answers a next state that passes `p`. -/
def gives (o : Result) (p : State → Bool) : Bool :=
  match o with
  | .next t => p t
  | .fault _ => false
  | .refused _ => false

/-- The fault a stopped machine answers. -/
def faultOf (o : Result) : Option Fault :=
  match o with
  | .fault f => some f
  | .next _ => none
  | .refused _ => none

theorem gives_next {o : Result} {p : State → Bool} (h : gives o p = true) : ∃ t, o = .next t ∧ p t = true := by
  cases o with
  | next t => exact ⟨t, rfl, h⟩
  | fault _ => cases h
  | refused _ => cases h

/-- The reset state with some registers and surface bytes. -/
def surf (g : Regs) (m : Memory) : State := { State.reset with surface := { regs := g, mem := m } }

/-- The reset state with some registers and a PPU counter. -/
def at_ (g : Regs) (c : Nat) : State := (surf g []).setCounter c

/-- The reset registers with mode and scanline. -/
def regs (stat ly : Byte) : Regs := { Regs.reset with stat := stat, ly := ly }

/-- The reset state with an image and a controller. -/
def cart (size : Nat) (bytes : Memory) (m : Mbc) : State :=
  { State.reset with cart := some { img := { size := size, bytes := bytes }, mbc := m } }

/-- The reset state with an image held out to the loader. -/
def holding (size : Nat) (bytes : Memory) : State :=
  { State.reset with port := { Port.empty with loader := { size := size, bytes := bytes } } }

/-- The reset state with these inputs. -/
def input (l : List Input) : State := { State.reset with port := { Port.empty with inbox := l } }

/-- The controller of the loaded cartridge passes `p`. -/
def mbc? (p : Mbc → Bool) (s : State) : Bool :=
  match s.cart with
  | some c => p c.mbc
  | none => false

/-- Cells of row `y`: `(x, shade)`. -/
def cells (y : Nat) (l : List (Nat × Nat)) (s : State) : Bool :=
  l.all (fun c => s.pixel? c.1 y == some (BitVec.ofNat 2 c.2))

/-- A context before any load, or with a variant loaded. -/
def ctx (v : Option Variant) : Context := { variant := v, acd := .physical, inside := false }

def mA : MbcA := { ramEnable := false, bank1 := 1, bank2 := 0, mode := 0, ram := [] }
def mB : MbcB := { ramEnable := false, romBank := 1, ram := [] }
def mC : MbcC := { ramEnable := false, romBank := 1, ramSel := 0, ram := [] }
def mD : MbcD := { ramEnable := false, romBankLo := 1, romBankHi := 0, ramBank := 0, ram := [] }

/-! ## WellFormed: one ill-formed term per check -/

theorem test_wf_rom0 : [Instr.cartFRdRom0 0x4000, .cartARdRom0 0x4000, .cartBRdRom0 0x4000, .cartCRdRom0 0x4000,
    .cartDRdRom0 0x4000].map Instr.wellFormed = [false, false, false, false, false] := by decide

theorem test_wf_romx : [Instr.cartFRdRomx 0x3FFF, .cartARdRomx 0x8000, .cartBRdRomx 0x3FFF, .cartCRdRomx 0x8000,
    .cartDRdRomx 0x3FFF].map Instr.wellFormed = [false, false, false, false, false] := by decide

theorem test_wf_rdram : [Instr.cartFRdRam 0x9FFF, .cartARdRam 0xC000, .cartBRdRam 0x9FFF, .cartCRdRam 0xC000,
    .cartDRdRam 0x9FFF].map Instr.wellFormed = [false, false, false, false, false] := by decide

theorem test_wf_wrram : [Instr.cartFWrRam 0xC000 0, .cartAWrRam 0x9FFF 0, .cartBWrRam 0xC000 0, .cartCWrRam 0x9FFF 0,
    .cartDWrRam 0xC000 0].map Instr.wellFormed = [false, false, false, false, false] := by decide

theorem test_wf_wrlow : [Instr.cartFWrRom 0x8000 0, .cartAWrRamen 0x2000 0, .cartBWrRamen 0x2000 0,
    .cartCWrRamen 0x2000 0, .cartDWrRamen 0x2000 0].map Instr.wellFormed = [false, false, false, false, false] := by
  decide

theorem test_wf_wrbank : [Instr.cartAWrBank1 0x4000 0, .cartBWrRomb 0x1FFF 0, .cartCWrRomb 0x4000 0,
    .cartDWrRombLo 0x3000 0, .cartDWrRombHi 0x2FFF 0].map Instr.wellFormed
    = [false, false, false, false, false] := by decide

theorem test_wf_wrhigh : [Instr.cartAWrBank2 0x6000 0, .cartAWrMode 0x5FFF 0, .cartBWrHi 0x8000 0,
    .cartCWrRamsel 0x3FFF 0, .cartCWrLatch 0x8000 0, .cartDWrRamb 0x6000 0, .cartDWr6000 0x5FFF 0].map
    Instr.wellFormed = [false, false, false, false, false, false, false] := by decide

/-- The surface ends at 0x9FFF, 0xFE9F, 0xFF7F; STAT and LY are no `ENV.WR` (R121). -/
theorem test_wf_env : [Instr.envRd 0xA000, .envRd 0xFEA0, .envWr 0xFF80 0, .envWr 0xFF41 0, .envWr 0xFF44 0].map
    Instr.wellFormed = [false, false, false, false, false] := by decide

/-- The checks are no empty: operations at the ends of their windows pass. -/
theorem test_wf_ok : [Instr.cartFRdRom0 0x3FFF, .cartBRdRomx 0x7FFF, .cartARdRam 0xBFFF, .cartDWrRombHi 0x3000 0xFF,
    .envRd 0xFFFF, .envWr 0xFE9F 1, .ppuAdvance 0xFFFFFF].all Instr.wellFormed = true := by decide

/-! ## Decode: words written from the encodings of R112 to R117 -/

/-- `0001 0000` and 24 bits of cycles (R112, W13). -/
theorem test_decode_p : decode (ctx none) (0b00010000#8 ++ 0xFFFFFF#24) = .ok (.ppuAdvance 0xFFFFFF) := by decide

/-- `0010`, `RW`, address, data (R113), under FIXED (F2, F3, F4, F5). -/
theorem test_decode_f : [0x20014700#32, 0x20400000, 0x20A12300, 0x21200005, 0x21A00012].map (decode (ctx (some .fixed)))
    = [.ok (.cartFRdRom0 0x0147), .ok (.cartFRdRomx 0x4000), .ok (.cartFRdRam 0xA123), .ok (.cartFWrRom 0x2000 0x05),
      .ok (.cartFWrRam 0xA000 0x12)] := by decide

/-- Variant A (A1, A3, A9, A4, A5, A6, A7). -/
theorem test_decode_a : [0x20000000#32, 0x20400100, 0x20A80000, 0x2100001A, 0x213FFF45, 0x21400007, 0x21600001,
    0x21A0005A].map (decode (ctx (some .a)))
    = [.ok (.cartARdRom0 0x0000), .ok (.cartARdRomx 0x4001), .ok (.cartARdRam 0xA800), .ok (.cartAWrRamen 0x0000 0x1A),
      .ok (.cartAWrBank1 0x3FFF 0x45), .ok (.cartAWrBank2 0x4000 0x07), .ok (.cartAWrMode 0x6000 0x01),
      .ok (.cartAWrRam 0xA000 0x5A)] := by decide

/-- Variant B (MB6, P1). -/
theorem test_decode_b : [0x20010000#32, 0x20600000, 0x20BE0000, 0x211E0000, 0x21300004, 0x21400001, 0x21A201FA].map
    (decode (ctx (some .b)))
    = [.ok (.cartBRdRom0 0x0100), .ok (.cartBRdRomx 0x6000), .ok (.cartBRdRam 0xBE00), .ok (.cartBWrRamen 0x1E00 0x00),
      .ok (.cartBWrRomb 0x3000 0x04), .ok (.cartBWrHi 0x4000 0x01), .ok (.cartBWrRam 0xA201 0xFA)] := by decide

/-- Variant C (C1 to C7). -/
theorem test_decode_c : [0x20014700#32, 0x20400000, 0x20A00000, 0x2100000A, 0x21200080, 0x21400002, 0x21600001,
    0x21A00177].map (decode (ctx (some .c)))
    = [.ok (.cartCRdRom0 0x0147), .ok (.cartCRdRomx 0x4000), .ok (.cartCRdRam 0xA000), .ok (.cartCWrRamen 0x0000 0x0A),
      .ok (.cartCWrRomb 0x2000 0x80), .ok (.cartCWrRamsel 0x4000 0x02), .ok (.cartCWrLatch 0x6000 0x01),
      .ok (.cartCWrRam 0xA001 0x77)] := by decide

/-- Variant D (D1 to D9). -/
theorem test_decode_d : [0x20000000#32, 0x20400000, 0x20A00000, 0x2110000A, 0x21200000, 0x213000FF, 0x21400013,
    0x21600001, 0x21BFFF01].map (decode (ctx (some .d)))
    = [.ok (.cartDRdRom0 0x0000), .ok (.cartDRdRomx 0x4000), .ok (.cartDRdRam 0xA000), .ok (.cartDWrRamen 0x1000 0x0A),
      .ok (.cartDWrRombLo 0x2000 0x00), .ok (.cartDWrRombHi 0x3000 0xFF), .ok (.cartDWrRamb 0x4000 0x13),
      .ok (.cartDWr6000 0x6000 0x01), .ok (.cartDWrRam 0xBFFF 0x01)] := by decide

/-- Formats O and L (R114, R115). -/
theorem test_decode_ol : decode (ctx (some .b)) 0x30000000#32 = .ok .orchTick
    ∧ decode (ctx (some .b)) 0x31000000#32 = .ok .hostCommit ∧ decode (ctx none) 0x40000000#32 = .ok .cartLoad := by
  decide

/-- Format E and its precedence (R116, R121; E1, E4, E6, E7, W15). -/
theorem test_decode_e : [0x50FF4400#32, 0x51FF41FF, 0x51FF4400, 0x51FF0F00, 0x51FFFF01].map (decode (ctx none))
    = [.ok (.envRd 0xFF44), .ok (.envWrStat 0xFF), .ok (.envWrLy 0x00), .ok (.envWr 0xFF0F 0x00),
      .ok (.envWr 0xFFFF 0x01)] := by decide

/-- Format I (R117): the twelve events, inside the block. -/
theorem test_decode_i : [0x80000000#32, 0x81000000, 0x82000000, 0x83000000, 0x84000000, 0x85000000, 0x86000000,
    0x87000000, 0x88000000, 0x89000000, 0x90000000, 0x91000000].map (decode { ctx none with inside := true })
    = [.ok .ppuLcdOff, .ok .ppuTOamVram, .ok .ppuTVramHblank, .ok .ppuTHblankOam, .ok .ppuTHblankVblank,
      .ok .ppuTVblankLine, .ok .ppuTVblankOam, .ok .ppuLycCheck, .ok .rasterBgwin, .ok .rasterObj, .ok .orchStep,
      .ok .orchDispatch] := by decide

/-- W1 to W9, F6, E8 to E10. -/
theorem test_refusals : [0x00000000#32, 0x60000000, 0x70000000, 0xA0000000, 0xF0000000, 0x11000000, 0x22000000,
    0x32000000, 0x30000001, 0x40000001, 0x20A00001, 0x20C00000, 0x20800000, 0x50C00000, 0x50FEA000, 0x50FF4401].map
      (decode (ctx (some .fixed)))
    = [.error .reservedUnit, .error .reservedUnit, .error .reservedUnit, .error .reservedUnit, .error .reservedUnit,
      .error .reservedOp, .error .reservedOp, .error .reservedOp, .error .reservedBits, .error .reservedBits,
      .error .reservedBits, .error .unroutedCartAddress, .error .unroutedCartAddress, .error .unroutedSurfaceAddress,
      .error .unroutedSurfaceAddress, .error .reservedBits] := by decide

/-- W10 to W12, K11, K12, OR9, and R120's `UnspecifiedVariant`. -/
theorem test_refusals_context : decode (ctx none) 0x81000000#32 = .error .internalEventAtInterface
    ∧ decode (ctx none) 0x8A000000#32 = .error .reservedOp ∧ decode (ctx none) 0x81000001#32 = .error .reservedBits
    ∧ decode (ctx none) 0x92000000#32 = .error .reservedOp ∧ decode (ctx (some .fixed)) 0x40000000#32 = .error .reload
    ∧ decode (ctx none) 0x20000000#32 = .error .noCartridge ∧ decode (ctx none) 0x30000000#32 = .error .noCartridge
    ∧ decode { ctx (some .a) with acd := .unspecified } 0x20700000#32 = .error .unspecifiedVariant := by decide

/-- The opcode table's words: `CART.D.WR_6000` with address bits, `ENV.WR_STAT`, `CART.LOAD`, an event. -/
theorem test_decodeTableWord : decodeTableWord 32 0x21600000 = some (.cartDWr6000 0x6000 0)
    ∧ decodeTableWord 32 0x51FF4100 = some (.envWrStat 0) ∧ decodeTableWord 32 0x40000000 = some .cartLoad
    ∧ decodeTableWord 32 0x90000000 = some .orchStep ∧ decodeTableWord 32 0x50000000 = none := by decide

/-- A word placed where `step` takes it runs as the first after reset: `PPU.ADVANCE 80` (T3), a variant-D
write (D5), a load of a blank image (K9's FIXED). -/
theorem test_withFetchWord_advance :
    gives (step (State.reset.withFetchWord 32 0x10000050)) (fun t => t.io .stat == 0x07#8 && t.port.inbox == []) = true := by
  decide

theorem test_withFetchWord_cart :
    gives (step (State.reset.withFetchWord 32 0x213000FF)) (mbc? (· == .d { mD with romBankHi := 1 })) = true := by
  decide

theorem test_withFetchWord_load :
    gives (step (State.reset.withFetchWord 32 0x40000000)) (mbc? (· == .fixed)) = true := by decide

/-! ## Step -/

/-- E8 as a step: the mark is set, the word is gone. -/
theorem test_step_refuses : gives (step (input [.word 0x50C00000#32]))
    (fun t => t.marks.refusal == some .unroutedSurfaceAddress && t.port.inbox == []) = true := by decide

/-- W14: after a mark no word has effect. -/
theorem test_step_stuck : faultOf (step { input [.word 0x10000004#32] with
      marks := { fault := some (.unsupportedCartridge 0xFF), refusal := none } })
    = some (.stopped (.unsupportedCartridge 0xFF)) := by decide

/-! ## ENV -/

/-- E1. -/
theorem test_envRd : gives (exec (.envRd 0xFF44) (at_ (regs 0x02 0x90) 0)) (fun t => t.port.reply == some 0x90#8) = true := by
  decide

/-- R88: a VRAM byte reads back, its neighbour does not change. -/
theorem test_envRd_vram : gives (exec (.envRd 0x9FFF) (surf Regs.reset [(0x9FFF, 0x5A)]))
    (fun t => t.port.reply == some 0x5A#8) = true := by decide

/-- E3. -/
theorem test_envWr : gives (exec (.envWr 0xFF47 0xE4) State.reset) (fun t => t.io .bgp == 0xE4#8 && t.io .obp0 == 0xFF#8) = true := by
  decide

/-- E7. -/
theorem test_envWr_if : gives (exec (.envWr 0xFF0F 0x00) (surf { Regs.reset with iflag := 0x1F } []))
    (fun t => t.io .iflag == 0x00#8) = true := by decide

/-- E4 and E5. -/
theorem test_envWrStat : gives (exec (.envWrStat 0xFF) State.reset) (fun t => t.io .stat == 0xFA#8) = true
    ∧ gives (exec (.envWrStat 0x00) (at_ (regs 0x06 0) 0)) (fun t => t.io .stat == 0x06#8) = true := by decide

/-- E6. -/
theorem test_envWrLy : gives (exec (.envWrLy 0x00) (at_ (regs 0x02 5) 0)) (fun t => t.io .ly == 5#8) = true := by decide

/-! ## PPU -/

/-- T4: one scanline up to HBLANK. -/
theorem test_ppuAdvance : gives (exec (.ppuAdvance 252) State.reset)
    (fun t => t.io .stat == 0x04#8 && t.line == 0 && t.ppu.counter == 0) = true := by decide +kernel

/-- T21: display off, and the coincidence its `LY = 0` makes. -/
theorem test_ppuAdvance_off : gives (exec (.ppuAdvance 4) (at_ { regs 0x40 1 with lcdc := 0x11 } 0))
    (fun t => t.io .stat == 0x44#8 && t.io .iflag == 0x02#8 && t.line == 0) = true := by decide

/-- T25. -/
theorem test_ppuLcdOff : gives (exec .ppuLcdOff (at_ { regs 0x03 77 with lcdc := 0x11 } 100))
    (fun t => t.io .ly == 0#8 && t.ppu.counter == 0 && t.io .stat == 0x00#8) = true := by decide

/-- T3, before its coincidence check. -/
theorem test_ppuTOamVram : gives (exec .ppuTOamVram State.reset) (fun t => t.io .stat == 0x03#8) = true := by decide

/-- T16: `STAT = 0x0B` on line 10. -/
theorem test_ppuTVramHblank : gives (exec .ppuTVramHblank (at_ (regs 0x0B 10) 0))
    (fun t => t.io .stat == 0x08#8 && t.io .iflag == 0x02#8) = true := by decide +kernel

/-- S2. -/
theorem test_ppuTHblankOam : gives (exec .ppuTHblankOam (at_ (regs 0x20 42) 0))
    (fun t => t.io .ly == 43#8 && t.io .stat == 0x22#8 && t.io .iflag == 0x02#8) = true := by decide

/-- T11. -/
theorem test_ppuTHblankVblank : gives (exec .ppuTHblankVblank (at_ (regs 0x00 143) 0))
    (fun t => t.io .ly == 144#8 && t.io .stat == 0x01#8 && t.io .iflag == 0x01#8 && t.ppu.frameReady) = true := by decide

/-- T12. -/
theorem test_ppuTVblankLine : gives (exec .ppuTVblankLine (at_ (regs 0x01 150) 0))
    (fun t => t.io .ly == 151#8 && t.io .stat == 0x01#8 && t.io .iflag == 0x00#8) = true := by decide

/-- T13. -/
theorem test_ppuTVblankOam : gives (exec .ppuTVblankOam (at_ (regs 0x21 153) 0))
    (fun t => t.io .ly == 0#8 && t.io .stat == 0x22#8 && t.io .iflag == 0x02#8) = true := by decide

/-- T24: a newly set coincidence requests; S5: a standing one does not. -/
theorem test_ppuLycCheck : gives (exec .ppuLycCheck (at_ (regs 0x42 0) 0))
      (fun t => t.io .stat == 0x46#8 && t.io .iflag == 0x02#8) = true
    ∧ gives (exec .ppuLycCheck (at_ (regs 0x46 0) 0)) (fun t => t.io .stat == 0x46#8 && t.io .iflag == 0x00#8) = true := by
  decide

/-! ## RASTER -/

/-- Rows of tile 1 = FF/FF and tile 2 = FF/00, as far as line 0 reads them. -/
def tiles : Memory := [(0x8010, 0xFF), (0x8011, 0xFF), (0x8020, 0xFF)]

/-- B7: the window from x = 80 hides background tile 1. -/
theorem test_rasterBgwin_window : gives (exec .rasterBgwin (surf { Regs.reset with lcdc := 0xF1, wx := 87, bgp := 0xE4 }
    (tiles ++ [(0x980A, 1), (0x9C00, 2)]))) (cells 0 [(79, 0), (80, 1), (87, 1), (88, 0)]) = true := by decide +kernel

/-- B5: `SCX = 250`. -/
theorem test_rasterBgwin_scroll : gives (exec .rasterBgwin (surf { Regs.reset with scx := 250, bgp := 0xE4 }
    (tiles ++ [(0x9800, 1)]))) (cells 0 [(5, 0), (6, 3), (13, 3), (14, 0)]) = true := by decide +kernel

/-- O2: the lower index in front. -/
theorem test_rasterObj_order : gives (exec .rasterObj (surf { Regs.reset with bgp := 0xE4, obp0 := 0xE4 }
    (tiles ++ [(0xFE08, 16), (0xFE09, 20), (0xFE0A, 2), (0xFE14, 16), (0xFE15, 16), (0xFE16, 1)])))
    (cells 0 [(7, 0), (8, 3), (11, 3), (12, 1), (19, 1), (20, 0)]) = true := by decide +kernel

/-- O21: a behind sprite meets the shade another sprite drew. -/
theorem test_rasterObj_behind : gives (exec .rasterObj (surf { Regs.reset with bgp := 0xE4, obp0 := 0xE4 }
    (tiles ++ [(0xFE08, 16), (0xFE09, 16), (0xFE0A, 1), (0xFE0B, 0x80), (0xFE14, 16), (0xFE15, 16), (0xFE16, 2)])))
    (cells 0 [(7, 0), (8, 1), (15, 1), (16, 0)]) = true := by decide +kernel

/-- B14, B15, O23, B13. -/
theorem test_raster_addresses : colorId 0x80 0x00 0 = 1 ∧ colorId 0x00 0x80 0 = 2 ∧ colorId 0x01 0x01 7 = 3
    ∧ colorId 0x01 0x01 6 = 0 ∧ tileDataAddr 0x80 true = 0x8800 ∧ tileDataAddr 0x00 false = 0x9000
    ∧ tileDataAddr 0x7F false = 0x97F0 ∧ tileDataAddr 0x80 false = 0x8800 ∧ tileDataAddr 0xFF false = 0x8FF0
    ∧ spriteRowAddr false 0x03 2 8 = 0x8034 ∧ spriteRowAddr false 0xFF 15 16 = 0x900E
    ∧ mapEntryAddr 0x9800 17 9 = 0x9822 := by decide

/-! ## CART.LOAD -/

/-- K2, K10, K6. -/
theorem test_cartLoad_order : gives (exec .cartLoad (holding 0x14F [(0x147, 0xFF)]))
      (fun t => t.marks.fault == some (.malformedImage 0x14F)) = true
    ∧ gives (exec .cartLoad (holding 0x8000 [(0x147, 0xFF), (0x148, 0x09)]))
      (fun t => t.marks.fault == some (.unsupportedCartridge 0xFF) && t.cart.isNone) = true
    ∧ gives (exec .cartLoad (holding 0xC000 [(0x148, 0x01)]))
      (fun t => t.marks.fault == some (.malformedImage 0xC000)) = true := by decide

/-- P5's image loads variant A with `bank1 = 1`. -/
theorem test_cartLoad_a : gives (exec .cartLoad (holding 0x20000 [(0x147, 0x03), (0x148, 0x02), (0x149, 0x02)]))
    (mbc? (· == .a mA)) = true := by decide

/-! ## CART.F -/

theorem test_cartFRdRom0 : gives (exec (.cartFRdRom0 0x2000) (cart 0x10000 [(0x2000, 0x3C)] .fixed))
    (fun t => t.port.reply == some 0x3C#8) = true := by decide
theorem test_cartFRdRomx : gives (exec (.cartFRdRomx 0x4000) (cart 0x10000 [(0x4000, 0x11)] .fixed))
    (fun t => t.port.reply == some 0x11#8) = true := by decide
theorem test_cartFRdRam : gives (exec (.cartFRdRam 0xA123) (cart 0x10000 [] .fixed)) (fun t => t.port.reply == some 0xFF#8) = true := by
  decide
theorem test_cartFWrRom : gives (exec (.cartFWrRom 0x2000 0x05) (cart 0x10000 [(0x2000, 0x3C)] .fixed))
    (fun t => t.cart == some { img := { size := 0x10000, bytes := [(0x2000, 0x3C)] }, mbc := .fixed }) = true := by decide
theorem test_cartFWrRam : gives (exec (.cartFWrRam 0xA000 0x12) (cart 0x10000 [] .fixed))
    (fun t => t.cart == some { img := { size := 0x10000, bytes := [] }, mbc := .fixed }) = true := by decide

/-! ## CART.B -/

/-- MB6. -/
theorem test_cartBRdRom0 : gives (exec (.cartBRdRom0 0x0100) (cart 0x10000 [(0x0100, 0x77)] (.b { mB with romBank := 7 })))
    (fun t => t.port.reply == some 0x77#8) = true := by decide
/-- P1: bank 3 is the last of 64 KiB, bank 4 faults. -/
theorem test_cartBRdRomx : gives (exec (.cartBRdRomx 0x6000) (cart 0x10000 [(0xE000, 0xB3)] (.b { mB with romBank := 3 })))
      (fun t => t.port.reply == some 0xB3#8) = true
    ∧ gives (exec (.cartBRdRomx 0x4000) (cart 0x10000 [] (.b { mB with romBank := 4 })))
      (fun t => t.marks.fault == some (.outOfRangeIndex 0x10000)) = true := by decide
/-- P1. -/
theorem test_cartBRdRam : gives (exec (.cartBRdRam 0xBE00) (cart 0x10000 [] (.b { mB with ramEnable := true, ram := [(0, 5)] })))
      (fun t => t.port.reply == some 0x05#8) = true
    ∧ gives (exec (.cartBRdRam 0xBE00) (cart 0x10000 [] (.b { mB with ram := [(0, 5)] })))
      (fun t => t.port.reply == some 0xFF#8) = true := by decide
/-- MB1. -/
theorem test_cartBWrRamen : gives (exec (.cartBWrRamen 0x1E00 0x00) (cart 0x10000 [] (.b { mB with ramEnable := true })))
      (mbc? (· == .b mB)) = true
    ∧ gives (exec (.cartBWrRamen 0x0100 0x0A) (cart 0x10000 [] (.b mB))) (mbc? (· == .b mB)) = true := by decide
/-- MB2: the other value of `MBC2_ENABLE_SELECT`. -/
theorem test_cartBWrRamen_data : gives (exec (.cartBWrRamen 0x0100 0x00)
    { cart 0x10000 [] (.b mB) with cfg := { Config.default with mbc2EnableSelect := .dataBit0 } })
    (mbc? (· == .b { mB with ramEnable := true })) = true := by decide
/-- MB3. -/
theorem test_cartBWrRomb : gives (exec (.cartBWrRomb 0x2000 0x13) (cart 0x10000 [] (.b mB))) (mbc? (· == .b { mB with romBank := 3 })) = true := by
  decide
/-- MB4. -/
theorem test_cartBWrHi : gives (exec (.cartBWrHi 0x4000 0x01) (cart 0x10000 [] (.b mB))) (mbc? (· == .b mB)) = true := by decide
/-- P1: 0xA201 is entry 1, low nibble. -/
theorem test_cartBWrRam : gives (exec (.cartBWrRam 0xA201 0xFA) (cart 0x10000 [] (.b { mB with ramEnable := true })))
      (mbc? (· == .b { mB with ramEnable := true, ram := [(1, 0xA)] })) = true
    ∧ gives (exec (.cartBWrRam 0xA201 0xFA) (cart 0x10000 [] (.b mB))) (mbc? (· == .b mB)) = true := by decide

/-! ## CART.A -/

/-- A1, A2. -/
theorem test_cartARdRom0 : gives (exec (.cartARdRom0 0x0000) (cart 0x100000 [(0x80000, 0x5C)] (.a { mA with mode := 1, bank2 := 1 })))
      (fun t => t.port.reply == some 0x5C#8) = true
    ∧ gives (exec (.cartARdRom0 0x0000) (cart 0x80000 [(0, 0x3D)] (.a { mA with mode := 1, bank2 := 1 })))
      (fun t => t.port.reply == some 0x3D#8) = true := by decide
/-- A3. -/
theorem test_cartARdRomx : gives (exec (.cartARdRomx 0x4001) (cart 0x10000 [(0x8001, 0x42)] (.a { mA with bank1 := 2 })))
    (fun t => t.port.reply == some 0x42#8) = true := by decide
/-- A8, A10. -/
theorem test_cartARdRam : gives (exec (.cartARdRam 0xA010) (cart 0x8000 [(0x149, 0x03)]
        (.a { mA with ramEnable := true, mode := 1, bank2 := 2, ram := [(0x4010, 0x99)] })))
      (fun t => t.port.reply == some 0x99#8) = true
    ∧ gives (exec (.cartARdRam 0xA000) (cart 0x8000 [] (.a { mA with ramEnable := true })))
      (fun t => t.port.reply == some 0xFF#8) = true := by decide
/-- A4. -/
theorem test_cartAWrRamen : gives (exec (.cartAWrRamen 0x0000 0x1A) (cart 0x8000 [] (.a mA))) (mbc? (· == .a { mA with ramEnable := true })) = true
    ∧ gives (exec (.cartAWrRamen 0x0000 0x00) (cart 0x8000 [] (.a { mA with ramEnable := true }))) (mbc? (· == .a mA)) = true := by
  decide
/-- A5. -/
theorem test_cartAWrBank1 : gives (exec (.cartAWrBank1 0x2000 0x20) (cart 0x8000 [] (.a mA))) (mbc? (· == .a mA)) = true
    ∧ gives (exec (.cartAWrBank1 0x3FFF 0x45) (cart 0x8000 [] (.a mA))) (mbc? (· == .a { mA with bank1 := 5 })) = true := by decide
/-- A6. -/
theorem test_cartAWrBank2 : gives (exec (.cartAWrBank2 0x4000 0x07) (cart 0x8000 [] (.a mA))) (mbc? (· == .a { mA with bank2 := 3 })) = true := by
  decide
/-- A7. -/
theorem test_cartAWrMode : gives (exec (.cartAWrMode 0x6000 0x01) (cart 0x8000 [] (.a mA))) (mbc? (· == .a { mA with mode := 1 })) = true := by
  decide
/-- A9: 2 KiB alias. -/
theorem test_cartAWrRam : gives (exec (.cartAWrRam 0xA800 0x5A) (cart 0x8000 [(0x149, 0x01)] (.a { mA with ramEnable := true })))
    (mbc? (· == .a { mA with ramEnable := true, ram := [(0, 0x5A)] })) = true := by decide

/-! ## CART.C -/

/-- C1. -/
theorem test_cartCRdRom0 : gives (exec (.cartCRdRom0 0x0147) (cart 0x8000 [(0x147, 0x13)] (.c mC))) (fun t => t.port.reply == some 0x13#8) = true := by
  decide
/-- C2. -/
theorem test_cartCRdRomx : gives (exec (.cartCRdRomx 0x4000) (cart 0x200000 [(0x84000, 0x21)] (.c { mC with romBank := 0x21 })))
    (fun t => t.port.reply == some 0x21#8) = true := by decide
/-- C6. -/
theorem test_cartCRdRam : gives (exec (.cartCRdRam 0xA000) (cart 0x8000 [(0x149, 0x03)] (.c { mC with ramEnable := true, ramSel := 8, ram := [(0, 1)] })))
    (fun t => t.port.reply == some 0xFF#8) = true := by decide
/-- R303. -/
theorem test_cartCWrRamen : gives (exec (.cartCWrRamen 0x0000 0x0A) (cart 0x8000 [] (.c mC))) (mbc? (· == .c { mC with ramEnable := true })) = true := by
  decide
/-- C3. -/
theorem test_cartCWrRomb : gives (exec (.cartCWrRomb 0x2000 0x80) (cart 0x8000 [] (.c { mC with romBank := 9 }))) (mbc? (· == .c mC)) = true := by
  decide
/-- C4. -/
theorem test_cartCWrRamsel : gives (exec (.cartCWrRamsel 0x4000 0x02) (cart 0x8000 [] (.c mC))) (mbc? (· == .c { mC with ramSel := 2 })) = true := by
  decide
/-- C5. -/
theorem test_cartCWrLatch : gives (exec (.cartCWrLatch 0x6000 0x01) (cart 0x8000 [] (.c mC))) (mbc? (· == .c mC)) = true := by decide
/-- C7. -/
theorem test_cartCWrRam : gives (exec (.cartCWrRam 0xA001 0x77) (cart 0x8000 [(0x149, 0x03)] (.c { mC with ramEnable := true, ramSel := 3 })))
    (mbc? (· == .c { mC with ramEnable := true, ramSel := 3, ram := [(0x6001, 0x77)] })) = true := by decide

/-! ## CART.D -/

/-- D1. -/
theorem test_cartDRdRom0 : gives (exec (.cartDRdRom0 0x0000) (cart 0x8000 [(0, 0xC3)] (.d mD))) (fun t => t.port.reply == some 0xC3#8) = true := by
  decide
/-- D2, D4. -/
theorem test_cartDRdRomx : gives (exec (.cartDRdRomx 0x4000) (cart 0x800000 [(0x408000, 0x66)] (.d { mD with romBankHi := 1, romBankLo := 2 })))
      (fun t => t.port.reply == some 0x66#8) = true
    ∧ gives (exec (.cartDRdRomx 0x4000) (cart 0x8000 [(0, 0x12)] (.d { mD with romBankLo := 0 }))) (fun t => t.port.reply == some 0x12#8) = true := by
  decide
/-- D8. -/
theorem test_cartDRdRam : gives (exec (.cartDRdRam 0xA000) (cart 0x8000 [(0x149, 0x02)] (.d { mD with ramEnable := true, ramBank := 5, ram := [(0, 0x44)] })))
    (fun t => t.port.reply == some 0x44#8) = true := by decide
/-- D3. -/
theorem test_cartDWrRamen : gives (exec (.cartDWrRamen 0x1000 0x0A) (cart 0x8000 [] (.d mD))) (mbc? (· == .d { mD with ramEnable := true })) = true := by
  decide
/-- D4. -/
theorem test_cartDWrRombLo : gives (exec (.cartDWrRombLo 0x2000 0x00) (cart 0x8000 [] (.d mD))) (mbc? (· == .d { mD with romBankLo := 0 })) = true := by
  decide
/-- D5. -/
theorem test_cartDWrRombHi : gives (exec (.cartDWrRombHi 0x3000 0xFE) (cart 0x8000 [] (.d { mD with romBankHi := 1 }))) (mbc? (· == .d mD)) = true := by
  decide
/-- D6. -/
theorem test_cartDWrRamb : gives (exec (.cartDWrRamb 0x4000 0x13) (cart 0x8000 [] (.d mD))) (mbc? (· == .d { mD with ramBank := 3 })) = true := by
  decide
/-- D7. -/
theorem test_cartDWr6000 : gives (exec (.cartDWr6000 0x6000 0x01) (cart 0x8000 [] (.d mD))) (mbc? (· == .d mD)) = true := by decide
/-- D9. -/
theorem test_cartDWrRam : gives (exec (.cartDWrRam 0xBFFF 0x01) (cart 0x8000 [(0x149, 0x04)] (.d { mD with ramEnable := true, ramBank := 15 })))
    (mbc? (· == .d { mD with ramEnable := true, ramBank := 15, ram := [(0x1FFFF, 1)] })) = true := by decide

/-! ## ORCH and HOST -/

/-- A CPU step of `n + 1` cycles that touches nothing. -/
def quiet (n : Nat) (e : EnableEffect) : CpuAct := { cyclesLess1 := n, accesses := [], enable := e }

/-- A FIXED cartridge, and `k` quiet steps of 8 cycles with a null timer and latch. -/
def orch (g : Regs) (c : Config) (l : EnableLatch) (acts : List CpuAct) : State :=
  { cart 0x8000 [] .fixed with
    cfg := c
    surface := { regs := g, mem := [] }
    ext := { enable := l, cpu := { scripted := acts, inner := 0 },
             timer := { scripted := acts.map (fun _ => { writes := [], request := false }), inner := 0 },
             latch := { scripted := acts.map (fun _ => { joyp := none, request := false }), inner := 0 },
             entry := [{ writes := [] }], keys := [] } }

def off : EnableLatch := { pending := false, active := false }
def on : EnableLatch := { pending := false, active := true }

/-- OR3, with the reference entry of R359: line 0 is taken, its bit and the latch are cleared. -/
theorem test_orchDispatch : gives (exec .orchDispatch (orch { Regs.reset with ie := 0x05, iflag := 0x07 } Config.default on []))
    (fun t => t.io .iflag == 0x06#8 && t.ext.enable == off) = true := by decide

/-- OR7's step k: `pending` becomes `active`, the line is not taken. -/
theorem test_orchDispatch_deferred : gives (exec .orchDispatch (orch { Regs.reset with ie := 0x01, iflag := 0x01 }
    Config.default { pending := true, active := false } [])) (fun t => t.io .iflag == 0x01#8 && t.ext.enable == on) = true := by
  decide

/-- P4's first step: 4 cycles to the PPU, the enable is pending at the dispatch and active after it. -/
theorem test_orchStep : gives (exec .orchStep (orch { Regs.reset with ie := 0x01, iflag := 0x01 } Config.default off
    [quiet 3 .enable])) (fun t => t.io .iflag == 0x01#8 && t.ext.enable == on && t.ppu.counter == 4
      && t.orch.stepCycles == 4 && t.orch.phase == .idle) = true := by decide

/-- R358: what a CPU step writes may depend on what it read: here the read of `LYC` (5) decides the write to `IE`. -/
theorem test_cpuStep_reads : gives (runPlan (.read 0xFF45 fun b =>
      .write 0xFFFF (if b = some 5 then 0x11 else 0x22) (.done { cyclesLess1 := 3, enable := .keep, inner := 9 }))
    (orch { Regs.reset with lyc := 5 } Config.default off [])) (fun t => t.io .ie == 0x11#8 && t.orch.stepCycles == 4
      && t.ext.cpu.inner == 9) = true := by decide

/-- R360: the timer's write lands on its register, a write elsewhere does not, and the request is `IF` bit 2. -/
theorem test_timerPhase : (timerPhase 4 { State.reset with ext := { State.reset.ext with
      timer := { scripted := [{ writes := [(0xFF05, 7), (0xFF45, 9)], request := true }], inner := 0 } } }).surface
    = { regs := { Regs.reset with iflag := 0x04 }, mem := [(0xFF05, 7)] } := by decide

/-- R361: the latch's `JOYP` and its request, `IF` bit 4; the keys leave the buffer. -/
theorem test_latchPhase : let t := latchPhase { State.reset with ext := { State.reset.ext with
      keys := [(3, true)]
      latch := { scripted := [{ joyp := some 0xEE, request := true }], inner := 0 } } }
    t.surface = { regs := { Regs.reset with joyp := 0xEE, iflag := 0x10 }, mem := [] } ∧ t.ext.keys = [] := by decide

/-- OR1's first tick: 5 steps of 8 cycles, carry −20/3. -/
theorem test_orchTick : gives (exec .orchTick (orch Regs.reset { Config.default with clockHz := 100, refreshHz := 3 } off
    (List.replicate 5 (quiet 7 .keep)))) (fun t => t.orch.carry == -20 / 3 && t.orch.cyclesDone == 40
      && t.ext.cpu.scripted == [] && t.ppu.counter == 40) = true := by decide +kernel

/-- OR9. -/
theorem test_orchTick_none : gives (exec .orchTick State.reset) (fun t => t.marks.refusal == some .noCartridge) = true := by decide

/-- OR8. -/
theorem test_hostCommit : gives (exec .hostCommit ((cart 0x8000 [] .fixed).setFrameReady true))
    (fun t => t.ppu.frameReady == false && t.port.shown.isSome) = true := by decide

/-- OR10. -/
theorem test_setPixel : gives (setPixel 160 0 1 State.reset) (fun t => t.marks.fault == some (.outOfRangePixel 160 0)) = true := by
  decide

/-! ## Witnesses: a state and operands that meet the hypotheses of each statement, clause by clause, at the ends
of each range -/

/-- The reset controller and a 32 KiB image of each variant, and 8 KiB of RAM. -/
def imgOf (t : Byte) : Image := { size := 0x8000, bytes := (if t = 0 then [] else [(0x147, t)]) ++ [(0x149, 0x02)] }

theorem running_reset : State.reset.Running := by decide

/-- A step completes where `gives` says so. -/
theorem next_of {o : Result} (h : gives o (fun _ => true) = true) : ∃ t, o = .next t :=
  let ⟨t, ht, _⟩ := gives_next h
  ⟨t, ht⟩

theorem witness_CartridgeOperationSelection : ∀ row ∈ selectionTable, ∀ v ∈ [Variant.fixed, .a, .b, .c, .d],
    (ctx (some v)).variant = some v ∧ (ctx (some v)).acd = .physical
      ∧ row.lo ≤ (BitVec.ofNat 16 row.lo).toNat ∧ (BitVec.ofNat 16 row.lo).toNat ≤ row.hi
      ∧ row.lo ≤ (BitVec.ofNat 16 row.hi).toNat ∧ (BitVec.ofNat 16 row.hi).toNat ≤ row.hi := by decide

theorem witness_AssembledWordsDecode : [0x8000#16, 0x9FFF, 0xFE00, 0xFE9F, 0xFF00, 0xFF41, 0xFF44, 0xFF7F, 0xFFFF].all
      Addr.surfaceRange = true
    ∧ (ctx (some .b)).variant ≠ none ∧ (ctx none).variant = none := by decide

theorem witness_InternalEventWords : encode .ppuLcdOff = 0x80000000#32 ∧ encode .orchDispatch = 0x91000000#32 := by decide

theorem witness_DecodeOfEncode : (Instr.cartBWrRam 0xBFFF 0xFF).wellFormed = true
    ∧ (ctx (some .b)).admits (.cartBWrRam 0xBFFF 0xFF) = true ∧ (Instr.envWr 0xFFFF 0).wellFormed = true
    ∧ (ctx none).admits (.envWr 0xFFFF 0) = true ∧ ({ ctx none with inside := true } : Context).admits .ppuLcdOff = true := by
  decide

theorem witness_EncodeOfDecode : decode (ctx (some .b)) 0x21BFFFFF#32 = .ok (.cartBWrRam 0xBFFF 0xFF) := by decide

/-- Every reason of R120 applies somewhere, as the first. -/
theorem witness_FirstApplicableRefusal : (∀ x ∈ [(ctx none, 0x00000000#32, RefusalReason.reservedUnit),
      (ctx none, 0x11000000#32, .reservedOp), (ctx none, 0x30000001#32, .reservedBits),
      (ctx none, 0x20C00000#32, .unroutedCartAddress), (ctx none, 0x50C00000#32, .unroutedSurfaceAddress),
      (ctx none, 0x81000000#32, .internalEventAtInterface), (ctx none, 0x30000000#32, .noCartridge),
      ({ ctx (some .a) with acd := .unspecified }, 0x20000000#32, .unspecifiedVariant),
      (ctx (some .fixed), 0x40000000#32, .reload)], decode x.1 x.2.1 = .error x.2.2)
    ∧ (input [.word 0x00000000#32]).Running := by decide

theorem witness_StepRunsDecodedInstruction : (input [.word 0x10000004#32]).Running
    ∧ (input [.word 0x10000004#32]).port.inbox = .word 0x10000004#32 :: []
    ∧ decode (ctx none) 0x10000004#32 = .ok (.ppuAdvance 4)
    ∧ (input [.event 0x81000000#32]).port.inbox = .event 0x81000000#32 :: []
    ∧ decode { ctx none with inside := true } 0x81000000#32 = .ok .ppuTOamVram := by decide

theorem witness_DecodedWordsAnswerNext : decode (State.reset.context true) 0x81000000#32 = .ok .ppuTOamVram
    ∧ decode ((cart 0x8000 [] .fixed).context false) 0x20000000#32 = .ok (.cartFRdRom0 0) := by decide

theorem witness_MarksStopTheMachine : (State.reset.faulted (.malformedImage 1)).marks.fault = some (.malformedImage 1)
    ∧ (State.reset.refusedBy .reload).marks.fault = none
    ∧ (State.reset.refusedBy .reload).marks.refusal = some .reload
    ∧ ∃ t, step (input [.key 3 true]) = .next t := ⟨rfl, rfl, rfl, next_of (by decide)⟩

theorem witness_KeyReportsAndIdle : (input [.key 3 true]).Running ∧ (input [.key 3 true]).port.inbox = .key 3 true :: []
    ∧ State.reset.Running ∧ State.reset.port.inbox = [] := by decide

theorem witness_CreationValues : regAt 0x8000 = none ∧ regAt 0xFE9F = none := by decide

theorem witness_StepKeepsInvariant : ∃ s t, Inv s ∧ step s = .next t := by
  refine ⟨input [.key 3 true], _, ⟨⟨⟨by decide, by decide⟩, by decide⟩, ⟨by decide, by decide⟩, by decide,
    ⟨by decide, by decide⟩, ?_, ?_⟩, rfl⟩
  · intro c h; cases h
  · intro w h; simp [input, Port.empty] at h

theorem witness_ParametersUnchanged : ∃ t, exec .orchTick State.reset = .next t := next_of (by decide)

theorem witness_OneVariantPerCartridge : (∃ t, exec (.envWr 0x8000 1) (cart 0x8000 [] .fixed) = .next t)
    ∧ (Instr.envWr 0x8000 1).wellFormed = true ∧ (∀ v a d, selectWrite v a d ≠ some (.envWr 0x8000 1)) := by
  refine ⟨next_of (by decide), by decide, ?_⟩
  intro v a d h
  have := (selectWrite_wf h).2.1
  cases this

theorem witness_EnvironmentPermissions : (∃ t, exec (.cartBWrHi 0x4000 1) (cart 0x8000 [] (.b mB)) = .next t)
    ∧ (Instr.cartBWrHi 0x4000 1).variant ≠ none
    ∧ (∃ t, exec (.envWr 0xFFFF 1) State.reset = .next t) ∧ (Instr.envWr 0xFFFF 1).wellFormed = true :=
  ⟨next_of (by decide), by decide, next_of (by decide), by decide⟩

theorem witness_EnvRead : Addr.surfaceRange 0x8000 = true ∧ Addr.surfaceRange 0xFFFF = true
    ∧ Addr.surfaceRange 0x7FFF = false ∧ Addr.surfaceRange 0xFEA0 = false ∧ Addr.surfaceRange 0xFF80 = false := by decide

theorem witness_EnvWrite : Addr.surfaceRange 0xFF0F = true ∧ (0xFF0F#16 ≠ 0xFF41#16 ∧ 0xFF0F#16 ≠ 0xFF44#16)
    ∧ Addr.surfaceRange 0xA000 = false := by decide

theorem witness_DisplayOffAndCoincidence : (regs 0x40 0).ly = (regs 0x40 0).lyc
    ∧ testBit (regs 0x40 0).stat 2 = false ∧ testBit (regs 0x40 0).stat 6 = true
    ∧ testBit (regs 0x44 0).stat 2 = true ∧ (regs 0x40 1).ly ≠ (regs 0x40 1).lyc := by decide

/-- A row drawn, on the first and on the last scanline. -/
theorem witness_RowDrawn : (∃ row, RowDrawn State.reset 0 row) ∧ ∃ row, RowDrawn State.reset 143 row := by
  have key : ∀ y, gives (inOrder [bgWinSpec y, objSpec y] State.reset)
      (fun t => decide (t.Running) && (t.fb[y]?).isSome) = true → ∃ row, RowDrawn State.reset y row := by
    intro y h
    obtain ⟨t, ht, hp⟩ := gives_next h
    simp only [Bool.and_eq_true, decide_eq_true_eq, Option.isSome_iff_exists] at hp
    obtain ⟨hr, row, hrow⟩ := hp
    exact ⟨row, t, ht, hr, hrow⟩
  exact ⟨key 0 (by decide +kernel), key 143 (by decide +kernel)⟩

theorem witness_VramToHblank : (at_ (regs 0x0B 143) 0).Running ∧ (at_ (regs 0x0B 143) 0).line < 144
    ∧ 144 ≤ (at_ (regs 0x0B 144) 0).line := by decide

theorem witness_AdvanceRunsTheLoop : State.reset.Running ∧ lcdOn (State.reset.io .lcdc) = true
    ∧ lcdOn ((at_ { Regs.reset with lcdc := 0x11 } 0).io .lcdc) = false := by decide

/-- `PpuOk` in every mode, at the ends of the lines and of the counter. -/
theorem witness_AdvanceKeepsPpuOk : ∀ s ∈ [at_ (regs 2 0) 79, at_ (regs 2 143) 0, at_ (regs 3 143) 171,
    at_ (regs 0 143) 203, at_ (regs 1 144) 0, at_ (regs 1 153) 455], s.Running ∧ PpuOk s := by
  intro s hs
  simp only [List.mem_cons, List.not_mem_nil, or_false] at hs
  rcases hs with rfl | rfl | rfl | rfl | rfl | rfl <;>
    exact ⟨by decide, ⟨by decide, by decide⟩, by decide⟩

theorem witness_PpuFootprint : ∃ t, exec .ppuTVblankLine (at_ (regs 1 144) 0) = .next t := next_of (by decide)

/-- Four cycles in one call, and in two. -/
theorem witness_CadenceLaw : ∃ t u, State.reset.Running ∧ PpuOk State.reset ∧ AdvancesRun State.reset [4] [] t
    ∧ AdvancesRun State.reset [2, 2] [] u
    ∧ (([4] : List Payload).map BitVec.toNat).sum = (([2, 2] : List Payload).map BitVec.toNat).sum := by
  refine ⟨_, _, by decide, ⟨⟨by decide, by decide⟩, by decide⟩,
    .call (events := []) (later := []) (by decide) (.exit (by decide)) rfl (by decide) .done,
    .call (events := []) (later := []) (by decide) (.exit (by decide)) rfl (by decide)
      (.call (events := []) (later := []) (by decide) (.exit (by decide)) rfl (by decide) .done), by decide⟩

theorem witness_FrameTiming : State.reset.Running ∧ lcdOn (State.reset.io .lcdc) = true ∧ State.reset.mode = .oam
    ∧ State.reset.line = 0 ∧ State.reset.ppu.counter = 0 ∧ (70224#24).toNat ≤ 70224 ∧ (65663#24).toNat < 65664
    ∧ 65664 ≤ (65664#24).toNat := by decide

theorem witness_DisplayReenable : (at_ (regs 0x04 0) 0).Running ∧ lcdOn ((at_ (regs 0x04 0) 0).io .lcdc) = true
    ∧ (at_ (regs 0x04 0) 0).mode = .hblank ∧ (at_ (regs 0x04 0) 0).line = 0 ∧ (at_ (regs 0x04 0) 0).ppu.counter = 0
    ∧ (65412#24).toNat = 65412 ∧ (65411#24).toNat < 65412 := by decide

/-- O19's sprite and a second entry far away, on shade 0: entry 0 behind alone at x = 4, entry 1 above at x = 100. -/
def sprites : State := surf { Regs.reset with bgp := 0xE4, obp0 := 0xE4 } (tiles ++ [(0xFE00, 16), (0xFE01, 12), (0xFE02, 2),
  (0xFE03, 0x80), (0xFE04, 16), (0xFE05, 108), (0xFE06, 1)])

theorem witness_SpritePriority : (sprites.Running ∧ sprites.line < 144 ∧ ∃ t, exec .rasterObj sprites = .next t)
    ∧ (∀ i < 40, spriteAtSpec sprites 0 i 0 = none)
    ∧ (spriteAtSpec sprites 0 1 100 = some (3, false) ∧ ∀ j < 1, spriteAtSpec sprites 0 j 100 = none)
    ∧ (spriteAtSpec sprites 0 0 4 = some (1, true) ∧ ∀ j < 40, j ≠ 0 → spriteAtSpec sprites 0 j 4 = none) :=
  ⟨⟨by decide, by decide, next_of (by decide +kernel)⟩, by decide +kernel, by decide +kernel, by decide +kernel⟩

/-- A short image, an unknown type, and for each row of R242 both of its ends with a good and a bad size. -/
theorem witness_CartridgeLoad : ({ size := 0x14F, bytes := [] } : Image).size < 0x150
    ∧ (∀ t ∈ [0x04#8, 0x07, 0x0E, 0x14, 0x18, 0x1C, 0xFF], ∀ row ∈ headerTable, ¬ (row.1 ≤ t.toNat ∧ t.toNat ≤ row.2.1))
    ∧ (∀ row ∈ headerTable, (row.1 ≤ ((imgOf (BitVec.ofNat 8 row.1)).byte 0x147).toNat
        ∧ ((imgOf (BitVec.ofNat 8 row.1)).byte 0x147).toNat ≤ row.2.1)
      ∧ (row.1 ≤ ((imgOf (BitVec.ofNat 8 row.2.1)).byte 0x147).toNat
        ∧ ((imgOf (BitVec.ofNat 8 row.2.1)).byte 0x147).toNat ≤ row.2.1))
    ∧ (0x150 ≤ (imgOf 0x13).size ∧ SizeDeclared (imgOf 0x13) ∧ ¬ SizeDeclared { imgOf 0x13 with size := 0x8001 })
    ∧ (holding 0x8000 []).cart = none ∧ (cart 0x8000 [] .fixed).cart ≠ none
    ∧ Memory.wf (holding 0x8000 []).cfg.cartRamInit = true :=
  ⟨by decide, by decide, by decide, ⟨by decide, ⟨by decide, by decide, by decide⟩, fun h => absurd h.1 (by decide)⟩, rfl,
    by decide, rfl⟩

/-- The windows of the reads and writes, at their ends. -/
theorem witness_windows : [(0x0000#16, 0x3FFF#16), (0x4000, 0x7FFF), (0xA000, 0xBFFF), (0x0000, 0x1FFF), (0x2000, 0x3FFF),
    (0x2000, 0x2FFF), (0x3000, 0x3FFF), (0x4000, 0x5FFF), (0x6000, 0x7FFF), (0x0000, 0x7FFF)].all (fun r =>
      Addr.within r.1 r.1.toNat r.2.toNat && Addr.within r.2 r.1.toNat r.2.toNat) = true := by decide

theorem witness_FixedMapping : (cart 0x8000 [] .fixed).cart = some { img := { size := 0x8000, bytes := [] }, mbc := .fixed } := rfl

/-- Banks 1 and 2 of a 32 KiB image: the first is inside, the second faults. -/
theorem witness_VariantBReads : (cart 0x8000 [] (.b mB)).cart = some { img := { size := 0x8000, bytes := [] }, mbc := .b mB }
    ∧ mB.romBank.toNat * 0x4000 + (0x7FFF#16 &&& 0x3FFF#16).toNat < 0x8000
    ∧ 0x8000 ≤ ({ mB with romBank := 2 } : MbcB).romBank.toNat * 0x4000 + (0x4000#16 &&& 0x3FFF#16).toNat := by decide

theorem witness_VariantBWrites : (cart 0x8000 [] (.b mB)).cfg.mbc2EnableSelect = .addrBit8
    ∧ ({ cart 0x8000 [] (.b mB) with cfg := { Config.default with mbc2EnableSelect := .dataBit0 } }).cfg.mbc2EnableSelect
      = .dataBit0 := ⟨rfl, rfl⟩

theorem witness_VariantsACD : SizeOk { size := 0x8000, bytes := [] } ∧ State.reset.cfg.variantAcdModel = .physical
    ∧ (cart 0x8000 [] (.a mA)).cart = some { img := { size := 0x8000, bytes := [] }, mbc := .a mA }
    ∧ (cart 0x8000 [] (.c mC)).cart = some { img := { size := 0x8000, bytes := [] }, mbc := .c mC }
    ∧ (cart 0x8000 [] (.d mD)).cart = some { img := { size := 0x8000, bytes := [] }, mbc := .d mD } :=
  ⟨⟨by decide, by decide⟩, rfl, rfl, rfl, rfl⟩

theorem witness_CartridgeRamReadBack : ramSizeSpec (imgOf 0x03) = 0x2000
    ∧ (∃ t, exec (.cartAWrRam 0xA000 5) (State.reset.withMbc (imgOf 0x03) (.a { mA with ramEnable := true })) = .next t)
    ∧ (∃ t, exec (.cartBWrRam 0xA000 5) (State.reset.withMbc (imgOf 0x06) (.b { mB with ramEnable := true })) = .next t)
    ∧ (∃ t, exec (.cartCWrRam 0xA000 5) (State.reset.withMbc (imgOf 0x13) (.c { mC with ramEnable := true, ramSel := 3 })) = .next t)
    ∧ ∃ t, exec (.cartDWrRam 0xA000 5) (State.reset.withMbc (imgOf 0x1B) (.d { mD with ramEnable := true })) = .next t :=
  ⟨by decide, next_of (by decide), next_of (by decide), next_of (by decide), next_of (by decide)⟩

/-- Lines 0 and 4 pending with the latch active, and the same with the other `DISPATCH_READ`. -/
def pendingAt (line : Nat) (l : EnableLatch) (r : DispatchRead) : State :=
  orch { Regs.reset with ie := 0x1F, iflag := setBit 0 line } { Config.default with dispatchRead := r } l []

theorem witness_DispatchScan : (pendingAt 0 on .fresh).Running ∧ (pendingAt 0 on .fresh).cfg.dispatchRead = .fresh
    ∧ (pendingAt 0 on .snapshot).cfg.dispatchRead = .snapshot := by decide

theorem witness_InterruptEntry : (pendingAt 4 off .fresh).ext.enable.active = false
    ∧ (pendingAt 4 on .fresh).ext.enable.active = true
    ∧ (pendingAt 4 on .fresh).ext.entry = { writes := [] } :: []
    ∧ ({ State.reset with ext := { State.reset.ext with enable := on } }).ext.entry = [] := by decide

theorem witness_DispatchTakesLowestLine : ∀ line ≤ 4, (pendingAt line on .fresh).Running
    ∧ testBit ((pendingAt line on .fresh).io .ie) line = true ∧ testBit ((pendingAt line on .fresh).io .iflag) line = true
    ∧ (pendingAt line on .fresh).ext.entry = { writes := [] } :: []
    ∧ ∀ l < line, ¬ (testBit ((pendingAt line on .fresh).io .ie) l = true
        ∧ testBit ((pendingAt line on .fresh).io .iflag) l = true) := by decide

/-- OR5: bits 7 to 5 are no lines. -/
theorem witness_DispatchCompletes : ∀ l ≤ 4, ¬ (testBit ((orch { Regs.reset with ie := 0xE0, iflag := 0xE0 } Config.default on
      []).io .ie) l = true
    ∧ testBit ((orch { Regs.reset with ie := 0xE0, iflag := 0xE0 } Config.default on []).io .iflag) l = true) := by decide

/-- A ready bus with each variant: 256 KiB for variant B, whose banks are then all inside. -/
theorem witness_BusReady : BusReady (cart 0x8000 [] .fixed) ∧ BusReady (cart 0x40000 [] (.b mB))
    ∧ BusReady (cart 0x8000 [] (.d mD)) := by
  refine ⟨⟨⟨_, rfl, ⟨by decide, by decide⟩, ⟨by decide, by decide⟩, trivial⟩, ?_, ?_⟩,
    ⟨⟨_, rfl, ⟨by decide, by decide⟩, ⟨by decide, by decide⟩, by decide, by decide⟩, ?_, ?_⟩,
    ⟨⟨_, rfl, ⟨by decide, by decide⟩, ⟨by decide, by decide⟩, by decide, by decide⟩, ?_, ?_⟩⟩
  · intro img m h; cases h
  · intro c h g; cases h; cases g
  · intro img m h; cases h; decide
  · intro c h g; cases h; cases g
  · intro img m h; cases h
  · intro c _ _; rfl

theorem witness_StepCompletes : (cart 0x8000 [] .fixed).Running ∧ PpuOk (cart 0x8000 [] .fixed)
    ∧ BusReady (cart 0x8000 [] .fixed) := ⟨by decide, ⟨⟨by decide, by decide⟩, by decide⟩, witness_BusReady.1⟩

theorem witness_TickIsTheLoop : (cart 0x8000 [] .fixed).Running ∧ (cart 0x8000 [] .fixed).cart ≠ none
    ∧ State.reset.cart = none := by decide

theorem witness_TickCompletes : (0 : ℚ) < ((cart 0x8000 [] .fixed).cfg.clockHz : ℚ) / ((cart 0x8000 [] .fixed).cfg.refreshHz : ℚ)
    + (cart 0x8000 [] .fixed).orch.carry := by decide +kernel

theorem witness_HostCommit : (cart 0x8000 [] .fixed).cart ≠ none ∧ State.reset.cart = none := by decide

theorem witness_CollaboratorFootprints : ∃ t, busAccesses [.write 0xFF0F 0x1F, .read 0xFF0F, .write 0xC000 1] State.reset = .next t :=
  next_of (by decide)

theorem witness_CpuAccessIsItsWord : Addr.surfaceRange 0xFF41 = true ∧ (0x7FFF#16).toNat ≤ 0x7FFF
    ∧ (0xA000 ≤ (0xBFFF#16).toNat ∧ (0xBFFF#16).toNat ≤ 0xBFFF)
    ∧ Addr.surfaceRange 0xC000 = false ∧ ¬ ((0xC000#16).toNat ≤ 0x7FFF ∨ 0xA000 ≤ (0xC000#16).toNat ∧ (0xC000#16).toNat ≤ 0xBFFF)
    ∧ decode (ctx (some .b)) (crdText 0x7FFF) = .ok (.cartBRdRomx 0x7FFF)
    ∧ decode (ctx (some .b)) (cwrText 0xBFFF 0xFF) = .ok (.cartBWrRam 0xBFFF 0xFF)
    ∧ decode (ctx none) (crdText 0x0000) = .error .noCartridge ∧ State.reset.cart = none := by
  decide

/-- A cartridge whose variant has no algorithm, and bank 2 of a 32 KiB image of variant B. -/
theorem witness_CpuAccessIsItsWord_marks :
    (∀ k ∈ [Mbc.a mA, .c mC, .d mD],
      ({ cart 0x8000 [] k with cfg := { Config.default with variantAcdModel := .unspecified } }).cfg.variantAcdModel = .unspecified
      ∧ k.variant ∈ [Variant.a, .c, .d])
    ∧ Addr.within 0x4000 0x4000 0x7FFF = true ∧ Addr.within 0x7FFF 0x4000 0x7FFF = true
    ∧ 0x8000 ≤ ({ mB with romBank := 2 } : MbcB).romBank.toNat * 0x4000 + (0x4000#16 &&& 0x3FFF#16).toNat := by decide

/-- R252, R358: a CPU read of bank 2 of a 32 KiB image of variant B faults inside the step and ends it. -/
theorem test_orchStep_fault : gives (exec .orchStep { cart 0x8000 [] (.b { mB with romBank := 2 }) with
      ext := { State.reset.ext with cpu := { scripted := [{ cyclesLess1 := 3, accesses := [.read 0x4000], enable := .keep }],
                                             inner := 0 } } })
    (fun t => t.marks.fault == some (.outOfRangeIndex 0x8000) && t.orch.phase == .cpu && t.orch.stepCycles == 0) = true := by
  decide

/-- A step that runs, with a scripted answer of each collaborator; an advance with the display on, and off. -/
theorem witness_StepPhases : ∃ t, exec .orchStep (orch Regs.reset Config.default off [quiet 3 .enable]) = .next t
    ∧ t.Running := by
  obtain ⟨t, ht, hr⟩ := gives_next (show gives (exec .orchStep (orch Regs.reset Config.default off [quiet 3 .enable]))
    (fun t => !t.halted) = true by decide)
  exact ⟨t, ht, (running_iff t).mpr (by simpa using hr)⟩

theorem witness_StepPhases_advance : (at_ (regs 0x04 0) 0).Running ∧ lcdOn ((at_ (regs 0x04 0) 0).io .lcdc) = true
    ∧ lcdOn (({ State.reset with surface := { State.reset.surface with regs := { Regs.reset with lcdc := 0 } } }).io .lcdc)
      = false := by decide

theorem witness_CpuStepPhase : (orch Regs.reset Config.default off [quiet 3 .enable]).Running
    ∧ (orch Regs.reset Config.default off [quiet 3 .enable]).ext.cpu.scripted = quiet 3 .enable :: []
    ∧ State.reset.ext.cpu.scripted = [] := by decide

theorem witness_TimerPhase : (orch Regs.reset Config.default off [quiet 0 .keep]).ext.timer.scripted
    = { writes := [], request := false } :: [] ∧ State.reset.ext.timer.scripted = [] := by decide

theorem witness_LatchPhase : (orch Regs.reset Config.default off [quiet 0 .keep]).ext.latch.scripted
    = { joyp := none, request := false } :: [] ∧ State.reset.ext.latch.scripted = [] := by decide

end Sys2Proof.Tests
end

section
/-! SUPPORT. Proofs of the statements of 00_scope.md: the bit helpers and the interrupt request (R13, R14),
and the parameters no operation changes (R9). -/

namespace Sys2Proof.Machine

/-! ## The bit helpers in the spec's arithmetic (R13) -/

theorem testBit_iff (v : Byte) (i : Nat) : testBit v i = true ↔ v.toNat / 2 ^ i % 2 = 1 := by
  rw [testBit, ← BitVec.testBit_toNat, Nat.testBit_eq_decide_div_mod_eq, decide_eq_true_iff]

/-- The mask of `setBit` and `clearBit`: the byte with the one bit `i`. -/
theorem one_shiftLeft_eq_ofNat (i : Nat) : 1#8 <<< i = BitVec.ofNat 8 (2 ^ i) := by
  apply BitVec.eq_of_toNat_eq
  rw [BitVec.toNat_shiftLeft, BitVec.toNat_ofNat, BitVec.toNat_ofNat, Nat.one_mod, Nat.shiftLeft_eq, one_mul]

theorem setBit_eq_or (v : Byte) (i : Nat) : setBit v i = v ||| BitVec.ofNat 8 (2 ^ i) := by
  rw [setBit, one_shiftLeft_eq_ofNat]

theorem clearBit_eq_and_not (v : Byte) (i : Nat) : clearBit v i = v &&& ~~~ BitVec.ofNat 8 (2 ^ i) := by
  rw [clearBit, one_shiftLeft_eq_ofNat]

/-! ## `requestInterrupt` (R14) -/

/-- The whole next state: the bit of `IF`, and nothing else. -/
theorem requestInterrupt_eq_withRegs (s : State) (line : Nat) :
    s.requestInterrupt line
      = s.withRegs { s.surface.regs with iflag := setBit s.surface.regs.iflag line } := rfl

/-- A request raises its own bit of `IF` and clears none. -/
theorem testBit_iflag_requestInterrupt (s : State) {line : Nat} (hl : line < 8) (k : Nat) :
    testBit ((s.requestInterrupt line).io .iflag) k = (testBit (s.io .iflag) k || decide (k = line)) := by
  rw [State.io_requestInterrupt, if_pos rfl, setBit_testBit _ _ _ hl]

end Sys2Proof.Machine

namespace Sys2Proof.Proofs

open Sys2Proof.Machine

/-- Settles O20: the helpers by their arithmetic form, the request by its whole next state. -/
theorem bitHelpersAndRequest : Obligations.BitHelpersAndRequest := by
  refine ⟨fun v i _ => ⟨testBit_iff v i, setBit_eq_or v i, clearBit_eq_and_not v i⟩, fun s line hline => ?_⟩
  exact ⟨requestInterrupt_eq_withRegs s line, testBit_iflag_requestInterrupt s (by omega)⟩

/-- Settles O17: `exec_port`, which goes through the families of operations by their frames. -/
theorem parametersUnchanged : Obligations.ParametersUnchanged :=
  fun _ _ _ h => exec_port h

end Sys2Proof.Proofs
end

section
/-! SUPPORT. Proofs of the statements of 10_state.md: the marks (R52), the register table (R31), and what the
environment, the cartridge and the PPU may write (R53). -/

namespace Sys2Proof.Machine

/-! ## The stop of a machine with a mark (R52, R120, R400) -/

/-- A set fault mark stops the machine, whatever the refusal mark is. -/
theorem step_of_fault {s : State} {f : FaultMark} (h : s.marks.fault = some f) :
    step s = .fault (.stopped f) := by
  simp only [step, stopOf, h]

theorem step_of_refusal {s : State} {r : RefusalReason} (hf : s.marks.fault = none)
    (hr : s.marks.refusal = some r) : step s = .refused (.stopped r) := by
  simp only [step, stopOf, hf, hr]

/-- Only a machine with no mark takes a step. -/
theorem marks_of_step_next {s t : State} (h : step s = .next t) : s.marks = { fault := none, refusal := none } := by
  cases hf : s.marks.fault with
  | some f => rw [step_of_fault hf] at h; cases h
  | none =>
    cases hr : s.marks.refusal with
    | some r => rw [step_of_refusal hf hr] at h; cases h
    | none => exact congrArg₂ Marks.mk hf hr

/-! ## Registers by their addresses (R31) -/

@[simp] theorem State.memRead_addr (s : State) (r : Reg) : s.memRead r.addr = s.io r := by
  rw [State.memRead, regAt_addr]

/-- The registers that hold what `f` says. -/
def Regs.ofGet (f : Reg → Byte) : Regs :=
  { lcdc := f .lcdc, stat := f .stat, scy := f .scy, scx := f .scx, ly := f .ly, lyc := f .lyc, bgp := f .bgp,
    obp0 := f .obp0, obp1 := f .obp1, wy := f .wy, wx := f .wx, ie := f .ie, iflag := f .iflag, joyp := f .joyp }

theorem Regs.ofGet_get (g : Regs) : .ofGet g.get = g := rfl

theorem Regs.eq_of_get {g g' : Regs} (h : ∀ r, g.get r = g'.get r) : g = g' := by
  rw [← g.ofGet_get, funext h, g'.ofGet_get]

/-! ## The PPU's footprint as a whole next state (R53, R85) -/

/-- Of the registers, the PPU writes `STAT`, `LY` and `IF` only. -/
theorem PpuFrame.regs_eq {s t : State} (f : PpuFrame s t) : t.surface.regs
    = { s.surface.regs with stat := t.io .stat, ly := t.io .ly, iflag := t.io .iflag } :=
  Regs.eq_of_get fun r => by
    cases r with
    | stat | ly | iflag => rfl
    | _ => exact f.io _ (by decide) (by decide) (by decide)

theorem PpuFrame.state_eq {s t : State} (f : PpuFrame s t) :
    t = { s with
          surface := { s.surface with
            regs := { s.surface.regs with stat := t.io .stat, ly := t.io .ly, iflag := t.io .iflag } },
          ppu := t.ppu, fb := t.fb, marks := { s.marks with fault := t.marks.fault } } := by
  rw [← f.regs_eq]
  dsimp only
  rw [← f.mem, ← f.refusal, ← f.cfg, ← f.cart, ← f.orch, ← f.ext, ← f.port]

/-! ## What a cartridge operation can change (R53, R240) -/

/-- Every next state of an answer is `s` but for the cartridge, the marks and the port. -/
def ChangesCartOnly (s : State) (o : Result) : Prop :=
  ∀ t, o = .next t → t = { s with cart := t.cart, marks := t.marks, port := t.port }

theorem ChangesCartOnly.next {s t : State} (h : t = { s with cart := t.cart, marks := t.marks, port := t.port }) :
    ChangesCartOnly s (.next t) := by
  rintro u ⟨⟩
  exact h

theorem ChangesCartOnly.refused (s : State) (r : Refusal) : ChangesCartOnly s (.refused r) := by
  rintro t ⟨⟩

theorem ChangesCartOnly.readImage (s : State) (img : Image) (i : Nat) : ChangesCartOnly s (readImage s img i) := by
  unfold Machine.readImage
  split <;> exact .next rfl

theorem ChangesCartOnly.onFixed {s : State} {op : Image → Result} (h : ∀ img, ChangesCartOnly s (op img)) :
    ChangesCartOnly s (onFixed s op) := by
  unfold Machine.onFixed
  split
  · exact .next rfl
  · exact h _
  · exact .refused s _

theorem ChangesCartOnly.onB {s : State} {op : Image → MbcB → Result} (h : ∀ img m, ChangesCartOnly s (op img m)) :
    ChangesCartOnly s (onB s op) := by
  unfold Machine.onB
  split
  · exact .next rfl
  · exact h _ _
  · exact .refused s _

/-- The refusal that the families of variants A, C and D begin with (R7, R120). -/
theorem ChangesCartOnly.ofAcdModel {s : State} {o : Result} (h : ChangesCartOnly s o) :
    ChangesCartOnly s (if s.cfg.variantAcdModel = .unspecified then .next (s.refuse .unspecifiedVariant) else o) := by
  split
  · exact .next rfl
  · exact h

theorem ChangesCartOnly.onA {s : State} {op : Image → MbcA → Result} (h : ∀ img m, ChangesCartOnly s (op img m)) :
    ChangesCartOnly s (onA s op) := by
  unfold Machine.onA
  split
  · exact .next rfl
  · exact .ofAcdModel (h _ _)
  · exact .refused s _

theorem ChangesCartOnly.onC {s : State} {op : Image → MbcC → Result} (h : ∀ img m, ChangesCartOnly s (op img m)) :
    ChangesCartOnly s (onC s op) := by
  unfold Machine.onC
  split
  · exact .next rfl
  · exact .ofAcdModel (h _ _)
  · exact .refused s _

theorem ChangesCartOnly.onD {s : State} {op : Image → MbcD → Result} (h : ∀ img m, ChangesCartOnly s (op img m)) :
    ChangesCartOnly s (onD s op) := by
  unfold Machine.onD
  split
  · exact .next rfl
  · exact .ofAcdModel (h _ _)
  · exact .refused s _

/-- A read of the image answers or faults; every other cartridge operation answers a byte, stores in the
controller or does nothing. -/
theorem exec_changesCartOnly {i : Instr} (hv : i.variant ≠ none) (s : State) : ChangesCartOnly s (exec i s) := by
  cases i with
  | cartFRdRom0 | cartFRdRomx => exact .onFixed fun _ => .readImage s _ _
  | cartFRdRam | cartFWrRom | cartFWrRam => exact .onFixed fun _ => .next rfl
  | cartARdRom0 | cartARdRomx => exact .onA fun _ _ => .readImage s _ _
  | cartARdRam | cartAWrRamen | cartAWrBank1 | cartAWrBank2 | cartAWrMode | cartAWrRam =>
    exact .onA fun _ _ => .next rfl
  | cartBRdRom0 | cartBRdRomx => exact .onB fun _ _ => .readImage s _ _
  | cartBRdRam | cartBWrRamen | cartBWrRomb | cartBWrHi | cartBWrRam => exact .onB fun _ _ => .next rfl
  | cartCRdRom0 | cartCRdRomx => exact .onC fun _ _ => .readImage s _ _
  | cartCRdRam | cartCWrRamen | cartCWrRomb | cartCWrRamsel | cartCWrLatch | cartCWrRam =>
    exact .onC fun _ _ => .next rfl
  | cartDRdRom0 | cartDRdRomx => exact .onD fun _ _ => .readImage s _ _
  | cartDRdRam | cartDWrRamen | cartDWrRombLo | cartDWrRombHi | cartDWrRamb | cartDWr6000 | cartDWrRam =>
    exact .onD fun _ _ => .next rfl
  | _ => exact absurd rfl hv

/-! ## What a surface operation can change (R53, R140) -/

/-- The operations of format E (R116). -/
def EnvOp (i : Instr) : Prop :=
  (∃ a, i = .envRd a) ∨ (∃ a d, i = .envWr a d) ∨ (∃ d, i = .envWrStat d) ∨ (∃ d, i = .envWrLy d)

/-- No surface address leads to the cartridge (R80, R140). -/
theorem exec_env_cart {i : Instr} {s t : State} (hi : EnvOp i) (h : exec i s = .next t) : t.cart = s.cart := by
  rcases hi with ⟨a, rfl⟩ | ⟨a, d, rfl⟩ | ⟨d, rfl⟩ | ⟨d, rfl⟩
  · change execEnvRd a s = .next t at h
    unfold execEnvRd at h
    split at h <;> cases h <;> rfl
  · change execEnvWr a d s = .next t at h
    unfold execEnvWr at h
    split at h <;> cases h
    · exact State.cart_memWrite s _ d
    · rfl
  · cases h; rfl
  · cases h; rfl

end Sys2Proof.Machine

namespace Sys2Proof.Proofs

open Sys2Proof.Machine

/-- Settles O10: `stopOf` looks at the fault mark first, and only a machine with no mark serves its inputs. -/
theorem marksStopTheMachine : Obligations.MarksStopTheMachine :=
  ⟨fun _ _ => step_of_fault, fun _ _ => step_of_refusal, fun _ _ => marks_of_step_next,
    fun _ _ _ _ _ _ _ => rfl⟩

/-- Settles O19: the footprint of the bus words, and beside it the whole surface for the cartridge's
operations and the cartridge for the surface's. -/
theorem environmentPermissions : Obligations.EnvironmentPermissions := by
  refine fun i s t h => ⟨fun hv => ⟨?_, ?_⟩, fun hw hi => ?_⟩
  · exact (exec_bus_frame (.inl hv) (fun e => absurd e hv) h).quiet.untouched
  · rw [exec_changesCartOnly hv s t h]
  · have f := exec_bus_frame (.inr hi) (fun _ => hw) h
    exact ⟨f.quiet.untouched, exec_env_cart hi h, f.orch, f.ext⟩

/-- Settles O29: the footprint that every operation of the PPU has, written as one next state. -/
theorem ppuFootprint : Obligations.PpuFootprint := by
  intro i s t hi h
  have f := exec_ppu_frame hi h
  exact ⟨f.state_eq, f.stat, f.iflagHigh, f.iflag⟩

/-- Settles O13: each row names its register's own address, and `State.reset` holds its last column. -/
theorem registerTable : Obligations.RegisterTable := by
  refine ⟨fun x hx => ?_, fun s => s.memRead_addr .joyp⟩
  have row : x.2.1 = x.1.addr ∧ State.reset.io x.1 = x.2.2 := by
    revert x hx
    decide
  exact ⟨fun s => row.1 ▸ s.memRead_addr x.1, row.2⟩

end Sys2Proof.Proofs
end

section
/-! SUPPORT. Proofs of the statements of 20_memory.md: what a step does with the word it takes (R84, R110), and
that an open cartridge RAM reads back what was written (R88). -/

namespace Sys2Proof.Machine

/-! ## A step of a running machine (R84, R110) -/

theorem step_of_running {s : State} (h : s.Running) : step s = serve s := by
  obtain ⟨hf, hr⟩ := h
  simp only [step, stopOf, hf, hr]

theorem serve_word {s : State} {w : Word} {rest : List Input} (h : s.port.inbox = .word w :: rest) :
    serve s = present false w s.took := by
  simp only [serve, h]

theorem serve_event {s : State} {w : Word} {rest : List Input} (h : s.port.inbox = .event w :: rest) :
    serve s = present true w s.took := by
  simp only [serve, h]

/-- The state with the first input taken, by what is left of the inbox. -/
theorem State.took_of_inbox {s : State} {x : Input} {rest : List Input} (h : s.port.inbox = x :: rest) :
    s.took = { s with port := { s.port with inbox := rest, reply := none } } := by
  simp only [State.took, h, List.tail_cons]

theorem present_of_decode {inside : Bool} {w : Word} {s : State} {i : Instr}
    (h : decode (s.context inside) w = .ok i) : present inside w s = exec i s := by
  simp only [present, h]

/-! ## The bank-controller families on their own variant (R119, R120) -/

section
variable {s : State} {img : Image}

/-- Under `PHYSICAL` the families of variants A, C and D do not refuse (R7). -/
theorem acdModel_ne_unspecified (hp : s.cfg.variantAcdModel = .physical) :
    s.cfg.variantAcdModel ≠ .unspecified := by
  rw [hp]
  decide

theorem onA_of_cart {m : MbcA} (hp : s.cfg.variantAcdModel = .physical)
    (hc : s.cart = some { img := img, mbc := .a m }) (op : Image → MbcA → Result) : onA s op = op img m := by
  simp only [onA, hc, if_neg (acdModel_ne_unspecified hp)]

theorem onB_of_cart {m : MbcB} (hc : s.cart = some { img := img, mbc := .b m }) (op : Image → MbcB → Result) :
    onB s op = op img m := by
  simp only [onB, hc]

theorem onC_of_cart {m : MbcC} (hp : s.cfg.variantAcdModel = .physical)
    (hc : s.cart = some { img := img, mbc := .c m }) (op : Image → MbcC → Result) : onC s op = op img m := by
  simp only [onC, hc, if_neg (acdModel_ne_unspecified hp)]

theorem onD_of_cart {m : MbcD} (hp : s.cfg.variantAcdModel = .physical)
    (hc : s.cart = some { img := img, mbc := .d m }) (op : Image → MbcD → Result) : onD s op = op img m := by
  simp only [onD, hc, if_neg (acdModel_ne_unspecified hp)]

end

/-! ## Cartridge RAM (R88, R256, R257, R290) -/

/-- The model's RAM size is the spec's table of codes at 0x149. -/
theorem Image.ramSize_eq_spec (img : Image) : img.ramSize = ramSizeSpec img := by
  unfold Image.ramSize ramSizeSpec
  generalize img.byte 0x149 = code
  revert code
  decide

/-- An open RAM of variants A, C and D gives back the byte stored last at the same bank and address. -/
theorem ramLoad_ramStore {img : Image} {enabled : Bool} (he : enabled = true) (hs : img.ramSize ≠ 0)
    (ram : Memory) (bank : Nat) (a : Addr) (d : Byte) :
    ramLoad img (ramStore img ram enabled bank a d) enabled bank a = d := by
  have hopen : ¬ (enabled = false ∨ img.ramSize = 0) := by simp [he, hs]
  rw [ramLoad, ramStore, if_neg hopen, if_neg hopen, Cells.read_write_self]

/-- A stored nibble read as a byte: the low four bits (R256, R257). -/
theorem setWidth_nibble (d : Byte) : (d.setWidth 4).setWidth 8 = d &&& 0x0F#8 := by
  apply BitVec.eq_of_toNat_eq
  rw [BitVec.toNat_setWidth_of_le (by decide), BitVec.toNat_setWidth, BitVec.toNat_and]
  exact (Nat.and_two_pow_sub_one_eq_mod d.toNat 4).symm

/-- A read of the RAM just written, in the state that write left. -/
theorem respond_ramLoad_ramStore {img : Image} {enabled : Bool} (he : enabled = true) (hs : ramSizeSpec img ≠ 0)
    (ram : Memory) (bank : Nat) (a : Addr) (d : Byte) (t : State) :
    t.respond (ramLoad img (ramStore img ram enabled bank a d) enabled bank a) = t.replying d :=
  congrArg t.respond (ramLoad_ramStore he (img.ramSize_eq_spec ▸ hs) ram bank a d)

section
variable {s t : State} {img : Image} (a : Addr) (d : Byte)

/-! ### The RAM operations on their own variant (R256, R257, R298, R299, R307, R308, R318, R319) -/

theorem exec_cartARdRam {m : MbcA} (hp : s.cfg.variantAcdModel = .physical)
    (hc : s.cart = some { img := img, mbc := .a m }) :
    exec (.cartARdRam a) s = .next (s.respond (ramLoad img m.ram m.ramEnable (ramBankA m) a)) :=
  onA_of_cart hp hc _

theorem exec_cartAWrRam {m : MbcA} (hp : s.cfg.variantAcdModel = .physical)
    (hc : s.cart = some { img := img, mbc := .a m }) :
    exec (.cartAWrRam a d) s
      = .next (s.setMbc img (.a { m with ram := ramStore img m.ram m.ramEnable (ramBankA m) a d })) :=
  onA_of_cart hp hc _

theorem exec_cartBRdRam {m : MbcB} (hc : s.cart = some { img := img, mbc := .b m }) :
    exec (.cartBRdRam a) s
      = .next (s.respond (if m.ramEnable then (Cells.read m.ram (ramIndexB a)).setWidth 8 else 0xFF)) :=
  onB_of_cart hc _

theorem exec_cartBWrRam {m : MbcB} (hc : s.cart = some { img := img, mbc := .b m }) :
    exec (.cartBWrRam a d) s
      = .next (s.setMbc img (.b { m with
          ram := if m.ramEnable then Cells.write m.ram (ramIndexB a) (d.setWidth 4) else m.ram })) :=
  onB_of_cart hc _

theorem exec_cartCRdRam {m : MbcC} (hp : s.cfg.variantAcdModel = .physical)
    (hc : s.cart = some { img := img, mbc := .c m }) :
    exec (.cartCRdRam a) s = .next (s.respond (ramLoad img m.ram (ramOpenC m) m.ramSel.toNat a)) :=
  onC_of_cart hp hc _

theorem exec_cartCWrRam {m : MbcC} (hp : s.cfg.variantAcdModel = .physical)
    (hc : s.cart = some { img := img, mbc := .c m }) :
    exec (.cartCWrRam a d) s
      = .next (s.setMbc img (.c { m with ram := ramStore img m.ram (ramOpenC m) m.ramSel.toNat a d })) :=
  onC_of_cart hp hc _

theorem exec_cartDRdRam {m : MbcD} (hp : s.cfg.variantAcdModel = .physical)
    (hc : s.cart = some { img := img, mbc := .d m }) :
    exec (.cartDRdRam a) s = .next (s.respond (ramLoad img m.ram m.ramEnable m.ramBank.toNat a)) :=
  onD_of_cart hp hc _

theorem exec_cartDWrRam {m : MbcD} (hp : s.cfg.variantAcdModel = .physical)
    (hc : s.cart = some { img := img, mbc := .d m }) :
    exec (.cartDWrRam a d) s
      = .next (s.setMbc img (.d { m with ram := ramStore img m.ram m.ramEnable m.ramBank.toNat a d })) :=
  onD_of_cart hp hc _

/-! ### Each variant's read after its write (R88) -/

variable {a d}

theorem cartA_ram_readBack {m : MbcA} (hp : s.cfg.variantAcdModel = .physical)
    (hc : s.cart = some { img := img, mbc := .a m }) (he : m.ramEnable = true) (hs : ramSizeSpec img ≠ 0)
    (h : exec (.cartAWrRam a d) s = .next t) : exec (.cartARdRam a) t = .next (t.replying d) := by
  rw [exec_cartAWrRam a d hp hc] at h
  cases h
  exact Eq.trans (exec_cartARdRam a hp rfl)
    (congrArg Host.Outcome.next (respond_ramLoad_ramStore he hs m.ram (ramBankA m) a d _))

theorem cartB_ram_readBack {m : MbcB} (hc : s.cart = some { img := img, mbc := .b m }) (he : m.ramEnable = true)
    (h : exec (.cartBWrRam a d) s = .next t) :
    exec (.cartBRdRam a) t = .next (t.replying (d &&& 0x0F#8)) := by
  rw [exec_cartBWrRam a d hc, if_pos he] at h
  cases h
  rw [exec_cartBRdRam a rfl, if_pos he, Cells.read_write_self, setWidth_nibble]
  rfl

/-- A selected RAM bank, and no clock register, is what opens variant C's RAM (R307). -/
theorem cartC_ram_readBack {m : MbcC} (hp : s.cfg.variantAcdModel = .physical)
    (hc : s.cart = some { img := img, mbc := .c m }) (he : m.ramEnable = true) (hsel : m.ramSel.toNat ≤ 3)
    (hs : ramSizeSpec img ≠ 0) (h : exec (.cartCWrRam a d) s = .next t) :
    exec (.cartCRdRam a) t = .next (t.replying d) := by
  have hopen : ramOpenC m = true := by simp [ramOpenC, he, hsel]
  rw [exec_cartCWrRam a d hp hc] at h
  cases h
  exact Eq.trans (exec_cartCRdRam a hp rfl)
    (congrArg Host.Outcome.next (respond_ramLoad_ramStore hopen hs m.ram m.ramSel.toNat a d _))

theorem cartD_ram_readBack {m : MbcD} (hp : s.cfg.variantAcdModel = .physical)
    (hc : s.cart = some { img := img, mbc := .d m }) (he : m.ramEnable = true) (hs : ramSizeSpec img ≠ 0)
    (h : exec (.cartDWrRam a d) s = .next t) : exec (.cartDRdRam a) t = .next (t.replying d) := by
  rw [exec_cartDWrRam a d hp hc] at h
  cases h
  exact Eq.trans (exec_cartDRdRam a hp rfl)
    (congrArg Host.Outcome.next (respond_ramLoad_ramStore he hs m.ram m.ramBank.toNat a d _))

end

end Sys2Proof.Machine

namespace Sys2Proof.Proofs

open Sys2Proof.Machine

/-- Settles O46: per variant, the write puts the byte (variant B's the nibble) at the index the read looks at. -/
theorem cartridgeRamReadBack : Obligations.CartridgeRamReadBack :=
  fun _ _ _ _ _ hp => ⟨fun _ => cartA_ram_readBack hp, fun _ => cartB_ram_readBack,
    fun _ => cartC_ram_readBack hp, fun _ => cartD_ram_readBack hp⟩

/-- Settles O8: a running machine serves its first input, and taking it changes nothing that decoding reads. -/
theorem stepRunsDecodedInstruction : Obligations.StepRunsDecodedInstruction := by
  refine fun s w rest i hrun => ⟨fun hin hdec => ?_, fun hin hdec => ?_⟩
  · rw [step_of_running hrun, serve_word hin, present_of_decode (s := s.took) hdec, State.took_of_inbox hin]
  · rw [step_of_running hrun, serve_event hin, present_of_decode (s := s.took) hdec, State.took_of_inbox hin]

end Sys2Proof.Proofs
end

section
/-! SUPPORT. Proofs of the statements of 30_encoding.md: the round trips between words and operations (R112 to
R118, R122), R119's table, and the refusals of R120 in their order. -/

namespace Sys2Proof

/-! ## A word is determined by its fields (R110) -/

theorem unitOf_lt (w : Word) : unitOf w < 16 := (w.extractLsb' 28 4).isLt

theorem opOf_lt (w : Word) : opOf w < 16 := (w.extractLsb' 24 4).isLt

section
variable {w : Word} {u o : BitVec 4}

theorem wordP_of_fields {p : Payload} (hu : unitOf w = u.toNat) (ho : opOf w = o.toNat) (hp : payloadOf w = p) :
    wordP u o p = w := by
  have eu : w.extractLsb' 28 4 = u := BitVec.eq_of_toNat_eq hu
  have eo : w.extractLsb' 24 4 = o := BitVec.eq_of_toNat_eq ho
  rw [← eu, ← eo, ← hp]
  exact (word_eq w).symm

theorem wordAD_of_fields {a : Addr} {d : Byte} (hu : unitOf w = u.toNat) (ho : opOf w = o.toNat)
    (ha : addrOf w = a) (hd : dataOf w = d) : wordAD u o a d = w := by
  have eu : w.extractLsb' 28 4 = u := BitVec.eq_of_toNat_eq hu
  have eo : w.extractLsb' 24 4 = o := BitVec.eq_of_toNat_eq ho
  rw [← eu, ← eo, ← ha, ← hd]
  exact (word_eq_wordAD w).symm

end

/-! ## What the decoder reads in each format (R112, R114, R115, R117) -/

theorem decodePpu_ok {w : Word} {i : Instr} (h : decodePpu w = .ok i) :
    opOf w = 0 ∧ i = .ppuAdvance (payloadOf w) := by
  unfold decodePpu at h
  split_ifs at h with hop
  cases h
  exact ⟨not_not.mp hop, rfl⟩

theorem decodeOrch_ok {c : Context} {w : Word} {i : Instr} (h : decodeOrch c w = .ok i) :
    payloadOf w = 0 ∧ c.variant ≠ none ∧ (opOf w = 0 ∧ i = .orchTick ∨ opOf w = 1 ∧ i = .hostCommit) := by
  unfold decodeOrch at h
  split_ifs at h with hop hpay hcart htick
  · cases h
    exact ⟨not_not.mp hpay, hcart, .inl ⟨htick, rfl⟩⟩
  · cases h
    exact ⟨not_not.mp hpay, hcart, .inr ⟨by omega, rfl⟩⟩

theorem decodeLoad_ok {c : Context} {w : Word} {i : Instr} (h : decodeLoad c w = .ok i) :
    opOf w = 0 ∧ payloadOf w = 0 ∧ c.variant = none ∧ i = .cartLoad := by
  unfold decodeLoad at h
  split_ifs at h with hop hpay hcart
  cases h
  exact ⟨not_not.mp hop, not_not.mp hpay, not_not.mp hcart, rfl⟩

theorem decodeEvent_ok {event : Option Instr} {c : Context} {w : Word} {i : Instr}
    (h : decodeEvent event c w = .ok i) : event = some i ∧ payloadOf w = 0 ∧ c.inside = true := by
  cases event with
  | none => cases h
  | some j =>
    simp only [decodeEvent] at h
    split_ifs at h with hpay hin
    cases h
    exact ⟨rfl, not_not.mp hpay, Bool.not_eq_false _ ▸ hin⟩

/-- R117's first list: an event's word is its place in the list, and it is admitted inside the block. -/
theorem ppuEvent_some {n : Nat} {i : Instr} (h : ppuEvent n = some i) :
    i.wellFormed = true ∧ (∀ c : Context, c.admits i = c.inside) ∧ encode i = wordP 8 (BitVec.ofNat 4 n) 0 := by
  unfold ppuEvent at h
  split at h <;> cases h <;> exact ⟨rfl, fun _ => rfl, rfl⟩

/-- R117's second list, likewise. -/
theorem orchEvent_some {n : Nat} {i : Instr} (h : orchEvent n = some i) :
    i.wellFormed = true ∧ (∀ c : Context, c.admits i = c.inside) ∧ encode i = wordP 9 (BitVec.ofNat 4 n) 0 := by
  unfold orchEvent at h
  split at h <;> cases h <;> exact ⟨rfl, fun _ => rfl, rfl⟩

/-! ## The contexts of formats O and L (R114, R115, R120) -/

@[simp] theorem Context.admits_orchTick (c : Context) : c.admits .orchTick = c.variant.isSome := Bool.and_true _

@[simp] theorem Context.admits_hostCommit (c : Context) : c.admits .hostCommit = c.variant.isSome := Bool.and_true _

@[simp] theorem Context.admits_cartLoad (c : Context) : c.admits .cartLoad = c.variant.isNone := Bool.and_true _

/-! ## From a word to its operation and back (R122) -/

/-- `i` is what `w` spells in the context `c`. -/
structure Spells (c : Context) (w : Word) (i : Instr) : Prop where
  wellFormed : i.wellFormed = true
  admits : c.admits i = true
  encode : encode i = w

section
variable {c : Context} {w : Word} {i : Instr}

theorem decodePpu_spells (hu : unitOf w = 1) (h : decodePpu w = .ok i) : Spells c w i := by
  obtain ⟨hop, rfl⟩ := decodePpu_ok h
  exact ⟨rfl, rfl, wordP_of_fields hu hop rfl⟩

theorem decodeCart_spells (hu : unitOf w = 2) (h : decodeCart c w = .ok i) : Spells c w i := by
  obtain ⟨hop, hdata, v, hv, hacd, hsel⟩ := decodeCart_ok h
  have hadmits : i.variant = some v → c.admits i = true := fun hi => by
    cases hg : v.governedByAcdModel <;> simp [admits_cart hi, hv, hg, hacd]
  by_cases hread : opOf w = 0
  · rw [if_pos hread] at hsel
    obtain ⟨hwf, hi, -⟩ := selectRead_wf hsel
    exact ⟨hwf, hadmits hi, (encode_selectRead hsel).trans (wordAD_of_fields hu hread rfl (hdata hread))⟩
  · rw [if_neg hread] at hsel
    obtain ⟨hwf, hi, -⟩ := selectWrite_wf hsel
    have hwrite : opOf w = 1 := by omega
    exact ⟨hwf, hadmits hi, (encode_selectWrite hsel).trans (wordAD_of_fields hu hwrite rfl rfl)⟩

theorem decodeOrch_spells (hu : unitOf w = 3) (h : decodeOrch c w = .ok i) : Spells c w i := by
  obtain ⟨hpay, hcart, hi⟩ := decodeOrch_ok h
  have hsome : c.variant.isSome = true := Option.isSome_iff_ne_none.mpr hcart
  obtain ⟨hop, rfl⟩ | ⟨hop, rfl⟩ := hi
  · exact ⟨rfl, c.admits_orchTick.trans hsome, wordP_of_fields hu hop hpay⟩
  · exact ⟨rfl, c.admits_hostCommit.trans hsome, wordP_of_fields hu hop hpay⟩

theorem decodeLoad_spells (hu : unitOf w = 4) (h : decodeLoad c w = .ok i) : Spells c w i := by
  obtain ⟨hop, hpay, hcart, rfl⟩ := decodeLoad_ok h
  exact ⟨rfl, by simp [hcart], wordP_of_fields hu hop hpay⟩

theorem decodeEnv_spells (hu : unitOf w = 5) (h : decodeEnv w = .ok i) : Spells c w i := by
  have hwf := decodeEnv_wf h
  obtain ⟨-, ⟨hop, hdata, rfl⟩ | ⟨hop, haddr, rfl⟩ | ⟨hop, haddr, rfl⟩ | ⟨hop, -, -, rfl⟩⟩ := decodeEnv_ok h
  · exact ⟨hwf, rfl, wordAD_of_fields hu hop rfl hdata⟩
  · exact ⟨hwf, rfl, wordAD_of_fields hu hop haddr rfl⟩
  · exact ⟨hwf, rfl, wordAD_of_fields hu hop haddr rfl⟩
  · exact ⟨hwf, rfl, wordAD_of_fields hu hop rfl rfl⟩

/-- Both lists of R117: `event` names the operation of `OP` under the unit `u`. -/
theorem decodeEvent_spells {u : BitVec 4} {event : Nat → Option Instr}
    (hevent : ∀ {n i}, event n = some i →
      i.wellFormed = true ∧ (∀ c : Context, c.admits i = c.inside) ∧ encode i = wordP u (BitVec.ofNat 4 n) 0)
    (hu : unitOf w = u.toNat) (h : decodeEvent (event (opOf w)) c w = .ok i) : Spells c w i := by
  obtain ⟨hi, hpay, hin⟩ := decodeEvent_ok h
  obtain ⟨hwf, hadmits, henc⟩ := hevent hi
  have hop : opOf w = (BitVec.ofNat 4 (opOf w)).toNat := by
    rw [BitVec.toNat_ofNat, Nat.mod_eq_of_lt (opOf_lt w)]
  exact ⟨hwf, (hadmits c).trans hin, henc.trans (wordP_of_fields hu hop hpay)⟩

/-- Unit by unit. -/
theorem decode_spells (h : decode c w = .ok i) : Spells c w i := by
  unfold decode at h
  split at h
  next hu => exact decodePpu_spells hu h
  next hu => exact decodeCart_spells hu h
  next hu => exact decodeOrch_spells hu h
  next hu => exact decodeLoad_spells hu h
  next hu => exact decodeEnv_spells hu h
  next hu => exact decodeEvent_spells (u := 8) ppuEvent_some hu h
  next hu => exact decodeEvent_spells (u := 9) orchEvent_some hu h
  next => cases h

end

/-! ## From an operation to its word and back (R112 to R117) -/

theorem decode_ppuWord (c : Context) (n : Payload) : decode c (wordP 1 0 n) = .ok (.ppuAdvance n) := by
  simp [decode, decodePpu]

theorem decode_tickWord {c : Context} (h : c.variant ≠ none) : decode c (wordP 3 0 0) = .ok .orchTick := by
  simp [decode, decodeOrch, h]

theorem decode_commitWord {c : Context} (h : c.variant ≠ none) : decode c (wordP 3 1 0) = .ok .hostCommit := by
  simp [decode, decodeOrch, h]

theorem decode_loadWord {c : Context} (h : c.variant = none) : decode c (wordP 4 0 0) = .ok .cartLoad := by
  simp [decode, decodeLoad, h]

/-- An internal event's word (R117, R120). -/
theorem decode_internal {i : Instr} (hi : i.internal = true) (c : Context) :
    decode c (encode i) = if c.inside = true then .ok i else .error .internalEventAtInterface := by
  cases i with
  | ppuLcdOff | ppuTOamVram | ppuTVramHblank | ppuTHblankOam | ppuTHblankVblank | ppuTVblankLine | ppuTVblankOam
  | ppuLycCheck | rasterBgwin | rasterObj | orchStep | orchDispatch =>
    cases hin : c.inside <;> simp [decode, encode, decodeEvent, ppuEvent, orchEvent, hin]
  | _ => cases hi

theorem Context.inside_of_admits {c : Context} {i : Instr} (h : c.admits i = true) (hi : i.internal = true) :
    c.inside = true := by
  have hright := (Bool.and_eq_true_iff.mp h).2
  rwa [hi] at hright

/-! ## The rows of R119's table -/

theorem Addr.within_iff {a : Addr} {lo hi : Nat} : a.within lo hi = true ↔ lo ≤ a.toNat ∧ a.toNat ≤ hi := by
  simp [Addr.within]

theorem Variant.governedByAcdModel_iff {v : Variant} : v.governedByAcdModel = true ↔ v = .a ∨ v = .c ∨ v = .d := by
  cases v <;> simp [Variant.governedByAcdModel]

section
open Sys2Proof.Machine

/-- The rows of either `RW` value cover the two cartridge windows. -/
theorem selectionTable_covers (a : Nat) (rw : Bool) : (a ≤ 0x7FFF ∨ 0xA000 ≤ a ∧ a ≤ 0xBFFF)
    ↔ ∃ row ∈ selectionTable, row.write = rw ∧ row.lo ≤ a ∧ a ≤ row.hi := by
  cases rw <;> simp [selectionTable] <;> omega

variable {row : SelectionRow} (hrow : row ∈ selectionTable)
include hrow

/-- In its range a row of R119's table says what the decoder selects. -/
theorem select_of_row (v : Variant) {a : Addr} (d : Byte) (hlo : row.lo ≤ a.toNat) (hhi : a.toNat ≤ row.hi) :
    (if row.write = true then selectWrite v a d else selectRead v a) = some (row.op v a d) := by
  simp only [selectionTable, List.mem_cons, List.not_mem_nil, or_false] at hrow
  rcases hrow with rfl | rfl | rfl | rfl | rfl | rfl | rfl | rfl | rfl
  all_goals
    simp only [Bool.false_eq_true, if_true, if_false] at hlo hhi ⊢
    cases v <;> simp (disch := omega) only [selectRead, selectWrite, if_pos, if_neg]

theorem encode_of_row (v : Variant) (a : Addr) (d : Byte) :
    encode (row.op v a d) = if row.write = true then cartWriteWord a d else cartReadWord a := by
  simp only [selectionTable, List.mem_cons, List.not_mem_nil, or_false] at hrow
  rcases hrow with rfl | rfl | rfl | rfl | rfl | rfl | rfl | rfl | rfl <;> cases v <;> rfl

theorem decode_of_row {c : Context} {v : Variant} {a : Addr} (d : Byte) (hv : c.variant = some v)
    (hacd : v.governedByAcdModel = true → c.acd = .physical) (hlo : row.lo ≤ a.toNat) (hhi : a.toNat ≤ row.hi) :
    decode c (encode (row.op v a d)) = .ok (row.op v a d) := by
  have hrouted : routedCart a = true :=
    decide_eq_true ((selectionTable_covers a.toNat row.write).mpr ⟨row, hrow, rfl, hlo, hhi⟩)
  have hselect := select_of_row hrow v d hlo hhi
  rw [encode_of_row hrow]
  by_cases hwrite : row.write = true
  · rw [if_pos hwrite] at hselect ⊢
    obtain ⟨i, hi, hdec⟩ := decode_cartWriteWord c a d v hrouted hv hacd
    rw [hdec, ← Option.some.inj (hi.symm.trans hselect)]
  · rw [if_neg hwrite] at hselect ⊢
    obtain ⟨i, hi, hdec⟩ := decode_cartReadWord c a v hrouted hv hacd
    rw [hdec, ← Option.some.inj (hi.symm.trans hselect)]

end

section
open Sys2Proof.Machine

/-- `i` is the operation of row `k` of R119's table for the variant `v`, at an address of the row. -/
def InRow (v : Variant) (i : Instr) (k : Fin 9) : Prop :=
  ∃ a d, ((selectionTable.get k).lo ≤ a.toNat ∧ a.toNat ≤ (selectionTable.get k).hi)
    ∧ (selectionTable.get k).op v a d = i

/-- Every well-formed operation of a variant stands in a row of R119's table; an operation whose window spans
several rows stands in the row of its address. -/
theorem exists_inRow {i : Instr} {v : Variant} (hv : i.variant = some v) (hw : i.wellFormed = true) :
    ∃ k, InRow v i k := by
  cases i with
  | cartFRdRom0 a | cartARdRom0 a | cartBRdRom0 a | cartCRdRom0 a | cartDRdRom0 a =>
    cases hv
    exact ⟨0, a, 0, Addr.within_iff.mp hw, rfl⟩
  | cartFRdRomx a | cartARdRomx a | cartBRdRomx a | cartCRdRomx a | cartDRdRomx a =>
    cases hv
    exact ⟨1, a, 0, Addr.within_iff.mp hw, rfl⟩
  | cartFRdRam a | cartARdRam a | cartBRdRam a | cartCRdRam a | cartDRdRam a =>
    cases hv
    exact ⟨2, a, 0, Addr.within_iff.mp hw, rfl⟩
  | cartAWrRamen a d | cartBWrRamen a d | cartCWrRamen a d | cartDWrRamen a d =>
    cases hv
    exact ⟨3, a, d, Addr.within_iff.mp hw, rfl⟩
  | cartDWrRombLo a d =>
    cases hv
    exact ⟨4, a, d, Addr.within_iff.mp hw, rfl⟩
  | cartDWrRombHi a d =>
    cases hv
    exact ⟨5, a, d, Addr.within_iff.mp hw, rfl⟩
  | cartAWrBank2 a d | cartCWrRamsel a d | cartDWrRamb a d =>
    cases hv
    exact ⟨6, a, d, Addr.within_iff.mp hw, rfl⟩
  | cartAWrMode a d | cartCWrLatch a d | cartDWr6000 a d =>
    cases hv
    exact ⟨7, a, d, Addr.within_iff.mp hw, rfl⟩
  | cartFWrRam a d | cartAWrRam a d | cartBWrRam a d | cartCWrRam a d | cartDWrRam a d =>
    cases hv
    exact ⟨8, a, d, Addr.within_iff.mp hw, rfl⟩
  | cartAWrBank1 a d | cartBWrRomb a d | cartCWrRomb a d =>
    cases hv
    obtain ⟨hlo, hhi⟩ := Addr.within_iff.mp hw
    obtain h | h : a.toNat ≤ 0x2FFF ∨ 0x3000 ≤ a.toNat := by omega
    · exact ⟨4, a, d, ⟨hlo, h⟩, rfl⟩
    · exact ⟨5, a, d, ⟨h, hhi⟩, rfl⟩
  | cartBWrHi a d =>
    cases hv
    obtain ⟨hlo, hhi⟩ := Addr.within_iff.mp hw
    obtain h | h : a.toNat ≤ 0x5FFF ∨ 0x6000 ≤ a.toNat := by omega
    · exact ⟨6, a, d, ⟨hlo, h⟩, rfl⟩
    · exact ⟨7, a, d, ⟨h, hhi⟩, rfl⟩
  | cartFWrRom a d =>
    cases hv
    obtain ⟨hlo, hhi⟩ := Addr.within_iff.mp hw
    obtain h | h | h | h | h : a.toNat ≤ 0x1FFF ∨ (0x2000 ≤ a.toNat ∧ a.toNat ≤ 0x2FFF)
        ∨ (0x3000 ≤ a.toNat ∧ a.toNat ≤ 0x3FFF) ∨ (0x4000 ≤ a.toNat ∧ a.toNat ≤ 0x5FFF) ∨ 0x6000 ≤ a.toNat := by
      omega
    · exact ⟨3, a, d, ⟨hlo, h⟩, rfl⟩
    · exact ⟨4, a, d, h, rfl⟩
    · exact ⟨5, a, d, h, rfl⟩
    · exact ⟨6, a, d, h, rfl⟩
    · exact ⟨7, a, d, ⟨h, hhi⟩, rfl⟩
  | _ => cases hv

theorem decode_encode_cart {i : Instr} {c : Context} {v : Variant} (hi : i.variant = some v)
    (hw : i.wellFormed = true) (hc : c.admits i = true) : decode c (encode i) = .ok i := by
  obtain ⟨k, a, d, ⟨hlo, hhi⟩, rfl⟩ := exists_inRow hi hw
  simp only [admits_cart hi, Bool.and_eq_true, beq_iff_eq, Bool.or_eq_true, Bool.not_eq_true'] at hc
  obtain ⟨hv, hacd⟩ := hc
  exact decode_of_row (List.get_mem _ _) d hv (fun hg => hacd.resolve_left (by simp [hg])) hlo hhi

end

/-- The operations that are neither a cartridge's nor internal: formats P, O, L and E. -/
theorem decode_encode_plain {i : Instr} {c : Context} (hi : i.variant = none) (hn : i.internal = false)
    (hw : i.wellFormed = true) (hc : c.admits i = true) : decode c (encode i) = .ok i := by
  cases i with
  | ppuAdvance n => exact decode_ppuWord c n
  | orchTick => exact decode_tickWord (Option.isSome_iff_ne_none.mp (c.admits_orchTick ▸ hc))
  | hostCommit => exact decode_commitWord (Option.isSome_iff_ne_none.mp (c.admits_hostCommit ▸ hc))
  | cartLoad => exact decode_loadWord (Option.isNone_iff_eq_none.mp (c.admits_cartLoad ▸ hc))
  | envRd a => exact decode_envReadWord c a ((routedSurface_eq_surfaceRange a).trans hw)
  | envWrStat d => exact decode_envWriteWord c 0xFF41 d (by decide)
  | envWrLy d => exact decode_envWriteWord c 0xFF44 d (by decide)
  | envWr a d =>
    simp only [Instr.wellFormed, Bool.and_eq_true, bne_iff_ne] at hw
    obtain ⟨⟨hrange, hstat⟩, hly⟩ := hw
    rw [encode, decode_envWriteWord c a d ((routedSurface_eq_surfaceRange a).trans hrange), if_neg hstat, if_neg hly]
  | ppuLcdOff | ppuTOamVram | ppuTVramHblank | ppuTHblankOam | ppuTHblankVblank | ppuTVblankLine | ppuTVblankOam
  | ppuLycCheck | rasterBgwin | rasterObj | orchStep | orchDispatch => cases hn
  | _ => cases hi

end Sys2Proof

namespace Sys2Proof.Machine

/-! ## The reasons of R120 that a unit's words can have -/

/-- The rows of R120's table that speak of a unit's words, in the table's order. -/
def unitReasons : Nat → List RefusalReason
  | 0x1 => [.reservedOp]
  | 0x2 => [.reservedOp, .reservedBits, .unroutedCartAddress, .noCartridge, .unspecifiedVariant]
  | 0x3 => [.reservedOp, .reservedBits, .noCartridge]
  | 0x4 => [.reservedOp, .reservedBits, .reload]
  | 0x5 => [.reservedOp, .reservedBits, .unroutedSurfaceAddress]
  | 0x8 | 0x9 => [.reservedOp, .reservedBits, .internalEventAtInterface]
  | _ => [.reservedUnit]

/-- The reasons stand in the order of R120's table. -/
abbrev InTableOrder (rs : List RefusalReason) : Prop :=
  rs.Pairwise fun r r' => refusalRank r < refusalRank r'

theorem unitReasons_inTableOrder {u : Nat} (hu : u < 16) : InTableOrder (unitReasons u) := by
  revert u
  decide

section
variable {c : Context} {w : Word}

/-- A reason that stands in the rows of every unit of a list. -/
theorem mem_unitReasons_of_mem {r : RefusalReason} {u : Nat} {us : List Nat} (hu : u ∈ us)
    (hus : ∀ u ∈ us, r ∈ unitReasons u := by decide) : r ∈ unitReasons u := hus u hu

theorem mem_unitReasons {r : RefusalReason} (h : refusalApplies c w r) : r ∈ unitReasons (unitOf w) := by
  cases r with
  | reservedUnit => exact mem_unitReasons_of_mem h
  | reservedOp =>
    obtain ⟨h, -⟩ | ⟨h, -⟩ | ⟨h, -⟩ | ⟨h, -⟩ := h
    · exact mem_unitReasons_of_mem h
    · exact mem_unitReasons_of_mem h
    · rw [h]; decide
    · rw [h]; decide
  | reservedBits =>
    obtain ⟨h, -⟩ | ⟨h, -⟩ := h
    · exact mem_unitReasons_of_mem h
    · exact mem_unitReasons_of_mem h
  | internalEventAtInterface | noCartridge => exact mem_unitReasons_of_mem h.1
  | unroutedCartAddress | unroutedSurfaceAddress | unspecifiedVariant | reload => rw [h.1]; decide

/-! ## Checking reasons one after another -/

/-- `o` is what comes of checking the reasons of the list in turn: the first that applies, or an operation
where none does. -/
inductive Checked (c : Context) (w : Word) : List RefusalReason → Except RefusalReason Instr → Prop
  | done (i : Instr) : Checked c w [] (.ok i)
  | hit {r : RefusalReason} (rs : List RefusalReason) (h : refusalApplies c w r) : Checked c w (r :: rs) (.error r)
  | pass {r : RefusalReason} {rs : List RefusalReason} {o : Except RefusalReason Instr}
      (h : ¬ refusalApplies c w r) (rest : Checked c w rs o) : Checked c w (r :: rs) o

variable {r : RefusalReason} {rs : List RefusalReason} {o : Except RefusalReason Instr}

/-- A test of the decoder is a check of one reason. -/
theorem Checked.test {P : Prop} [Decidable P] (hP : refusalApplies c w r ↔ P) (rest : ¬ P → Checked c w rs o) :
    Checked c w (r :: rs) (if P then .error r else o) := by
  by_cases h : P
  · rw [if_pos h]
    exact .hit rs (hP.mpr h)
  · rw [if_neg h]
    exact .pass (mt hP.mp h) (rest h)

/-- Reasons checked in the table's order: the one answered is the first of the list that applies. -/
theorem Checked.error_iff (hchk : Checked c w rs o) (hord : InTableOrder rs) (r : RefusalReason) :
    o = .error r ↔ r ∈ rs ∧ refusalApplies c w r
      ∧ ∀ r' ∈ rs, refusalRank r' < refusalRank r → ¬ refusalApplies c w r' := by
  induction hchk with
  | done i => simp
  | @hit r₀ rs h₀ =>
    obtain ⟨hlt, -⟩ := List.pairwise_cons.mp hord
    constructor
    · rintro ⟨⟩
      refine ⟨.head _, h₀, fun r' hr' hrank => ?_⟩
      obtain rfl | hr' := List.mem_cons.mp hr'
      · exact absurd hrank (Nat.lt_irrefl _)
      · exact absurd (hlt r' hr') (Nat.lt_asymm hrank)
    · rintro ⟨hr, -, hfirst⟩
      obtain rfl | hr := List.mem_cons.mp hr
      · rfl
      · exact absurd h₀ (hfirst r₀ (.head _) (hlt r hr))
  | @pass r₀ rs o h₀ _ ih =>
    obtain ⟨-, hord⟩ := List.pairwise_cons.mp hord
    rw [ih hord]
    constructor
    · rintro ⟨hr, happ, hfirst⟩
      exact ⟨.tail _ hr, happ, List.forall_mem_cons.mpr ⟨fun _ => h₀, hfirst⟩⟩
    · rintro ⟨hr, happ, hfirst⟩
      obtain rfl | hr := List.mem_cons.mp hr
      · exact absurd happ h₀
      · exact ⟨hr, happ, (List.forall_mem_cons.mp hfirst).2⟩

/-! ## Each format checks its unit's reasons (R112 to R117) -/

theorem routedCart_eq_false_iff (a : Addr) :
    routedCart a = false ↔ a.within 0x8000 0x9FFF = true ∨ a.within 0xC000 0xFFFF = true := by
  have := a.isLt
  simp only [routedCart, Addr.within_iff, decide_eq_false_iff_not]
  omega

/-- `OP` 0 and 1 are the ones listed (R111). -/
theorem not_zero_and_not_one_iff {n : Nat} : ¬ n = 0 ∧ ¬ n = 1 ↔ 1 < n := by omega

theorem ppuEvent_eq_none_iff : ∀ n, ppuEvent n = none ↔ 9 < n
  | 0 | 1 | 2 | 3 | 4 | 5 | 6 | 7 | 8 | 9 => by decide
  | n + 10 => by simp [ppuEvent]

theorem orchEvent_eq_none_iff : ∀ n, orchEvent n = none ↔ 1 < n
  | 0 | 1 => by decide
  | n + 2 => by simp [orchEvent]

theorem decodePpu_checked (hu : unitOf w = 1) : Checked c w (unitReasons 1) (decodePpu w) :=
  .test (by simp [refusalApplies, hu]) fun _ => .done _

/-- Where the address is routed, the decoder's selection answers an operation (R119). -/
theorem select_isSome (v : Variant) (w : Word) (h : routedCart (addrOf w) = true) :
    ∃ i, (if opOf w = 0 then selectRead v (addrOf w) else selectWrite v (addrOf w) (dataOf w)) = some i := by
  split_ifs
  · exact selectRead_isSome v _ h
  · exact selectWrite_isSome v _ _ h

theorem decodeCart_checked (hu : unitOf w = 2) : Checked c w (unitReasons 2) (decodeCart c w) := by
  refine .test (by simp [refusalApplies, hu, not_zero_and_not_one_iff]) fun _ =>
    .test (by simp [refusalApplies, hu]) fun _ =>
      .test (by simp [refusalApplies, hu, routedCart_eq_false_iff]) fun hrouted => ?_
  cases hv : c.variant with
  | none => exact .hit _ ⟨by simp [hu], hv⟩
  | some v =>
    obtain ⟨i, hi⟩ := select_isSome v w (Bool.not_eq_false _ ▸ hrouted)
    refine .pass (by simp [refusalApplies, hv]) (.test ?_ fun _ => ?_)
    · simp [refusalApplies, hu, hv, Variant.governedByAcdModel_iff]
    · rw [hi]
      exact .done i

theorem decodeOrch_checked (hu : unitOf w = 3) : Checked c w (unitReasons 3) (decodeOrch c w) :=
  .test (by simp [refusalApplies, hu, not_zero_and_not_one_iff]) fun _ =>
    .test (by simp [refusalApplies, hu]) fun _ => .test (by simp [refusalApplies, hu]) fun _ => .done _

theorem decodeLoad_checked (hu : unitOf w = 4) : Checked c w (unitReasons 4) (decodeLoad c w) :=
  .test (by simp [refusalApplies, hu]) fun _ => .test (by simp [refusalApplies, hu]) fun _ =>
    .test (by simp [refusalApplies, hu]) fun _ => .done _

theorem decodeEnv_checked (hu : unitOf w = 5) : Checked c w (unitReasons 5) (decodeEnv w) :=
  .test (by simp [refusalApplies, hu, not_zero_and_not_one_iff]) fun _ =>
    .test (by simp [refusalApplies, hu]) fun _ =>
      .test (by simp [refusalApplies, hu, routedSurface_eq_surfaceRange]) fun _ => .done _

/-- Both lists of R117: `event` is what the unit's list names by `OP`. -/
theorem decodeEvent_checked {event : Option Instr} (hu : unitOf w = 8 ∨ unitOf w = 9)
    (hop : refusalApplies c w .reservedOp ↔ event = none) :
    Checked c w [.reservedOp, .reservedBits, .internalEventAtInterface] (decodeEvent event c w) := by
  cases event with
  | none => exact .hit _ (hop.mpr rfl)
  | some i =>
    refine .pass (by simp [hop]) (.test ?_ fun _ => .test ?_ fun _ => .done i)
    · obtain hu | hu := hu <;> simp [refusalApplies, hu]
    · obtain hu | hu := hu <;> simp [refusalApplies, hu]

theorem decode_checked (c : Context) (w : Word) : Checked c w (unitReasons (unitOf w)) (decode c w) := by
  unfold decode
  split
  next hu => exact hu ▸ decodePpu_checked hu
  next hu => exact hu ▸ decodeCart_checked hu
  next hu => exact hu ▸ decodeOrch_checked hu
  next hu => exact hu ▸ decodeLoad_checked hu
  next hu => exact hu ▸ decodeEnv_checked hu
  next hu =>
    rw [hu]
    exact decodeEvent_checked (.inl hu) (by simp [refusalApplies, hu, ppuEvent_eq_none_iff])
  next hu =>
    rw [hu]
    exact decodeEvent_checked (.inr hu)
      (by simp [refusalApplies, hu, orchEvent_eq_none_iff, not_zero_and_not_one_iff])
  next h1 h2 h3 h4 h5 h8 h9 =>
    have hne : unitOf w < 16 ∧ unitOf w ≠ 1 ∧ unitOf w ≠ 2 ∧ unitOf w ≠ 3 ∧ unitOf w ≠ 4 ∧ unitOf w ≠ 5
        ∧ unitOf w ≠ 8 ∧ unitOf w ≠ 9 := ⟨unitOf_lt w, h1, h2, h3, h4, h5, h8, h9⟩
    have hreserved : unitOf w ∈ [0x0, 0x6, 0x7, 0xA, 0xB, 0xC, 0xD, 0xE, 0xF] := by
      simp only [List.mem_cons, List.not_mem_nil, or_false]
      omega
    rw [(by decide : ∀ u ∈ _, unitReasons u = [.reservedUnit]) (unitOf w) hreserved]
    exact .hit [] hreserved

/-- R120: a word is refused for the first reason of the whole table that applies to it. -/
theorem decode_error_iff (c : Context) (w : Word) (r : RefusalReason) : decode c w = .error r ↔
    refusalApplies c w r ∧ ∀ r', refusalRank r' < refusalRank r → ¬ refusalApplies c w r' := by
  rw [(decode_checked c w).error_iff (unitReasons_inTableOrder (unitOf_lt w)) r]
  constructor
  · rintro ⟨-, happ, hfirst⟩
    exact ⟨happ, fun r' hrank happ' => hfirst r' (mem_unitReasons happ') hrank happ'⟩
  · rintro ⟨happ, hfirst⟩
    exact ⟨mem_unitReasons happ, happ, fun r' _ => hfirst r'⟩

end

/-! ## Presenting a refused word (R120) -/

theorem present_of_refusal {inside : Bool} {w : Word} {s : State} {r : RefusalReason}
    (h : decode (s.context inside) w = .error r) : present inside w s = .next (s.refuse r) := by
  simp only [present, h]

theorem step_of_refused_word {s : State} {w : Word} {rest : List Input} {r : RefusalReason} (hrun : s.Running)
    (hin : s.port.inbox = .word w :: rest) (hdec : decode (s.context false) w = .error r) :
    step s = .next (s.took.refuse r) := by
  rw [step_of_running hrun, serve_word hin]
  exact present_of_refusal hdec

end Sys2Proof.Machine

namespace Sys2Proof.Proofs

open Sys2Proof.Machine

/-- Settles O6: a word that decodes is built from the fields the decoder read, and every other field is zero. -/
theorem encodeOfDecode : Obligations.EncodeOfDecode := by
  intro c w i h
  obtain ⟨hwf, hadmits, henc⟩ := decode_spells h
  exact ⟨hwf, hadmits, henc⟩

/-- Settles O5: a cartridge operation through its row of R119's table, an internal event by R117, the other
formats each by its own word. -/
theorem decodeOfEncode : Obligations.DecodeOfEncode := by
  intro i c hw hc
  cases hv : i.variant with
  | some v => exact decode_encode_cart hv hw hc
  | none =>
    cases hn : i.internal with
    | true => rw [decode_internal hn, if_pos (Context.inside_of_admits hc hn)]
    | false => exact decode_encode_plain hv hn hw hc

/-- Settles O2: the rows by what the decoder selects in them, their ranges by comparing their ends. -/
theorem cartridgeOperationSelection : Obligations.CartridgeOperationSelection := by
  refine ⟨fun c v a d row hv hacd hrow hlo hhi => ?_, by decide, selectionTable_covers⟩
  have hdec := decode_of_row hrow d hv (fun hg => hacd (Variant.governedByAcdModel_iff.mp hg)) hlo hhi
  rwa [encode_of_row hrow, cartWriteWord_eq, cartReadWord_eq] at hdec

/-- Settles O3: the assembler's words are the encoder's. -/
theorem assembledWordsDecode : Obligations.AssembledWordsDecode := by
  refine fun c n a d => ⟨?_, fun ha => ?_, fun hc => ⟨decode_tickWord hc, decode_commitWord hc⟩, decode_loadWord⟩
  · rw [advanceText, ← ppuWord_eq, decode_ppuWord]
  · have hrouted : routedSurface a = true := (routedSurface_eq_surfaceRange a).trans ha
    rw [envrdText, ← envReadWord_eq, envwrText, ← envWriteWord_eq]
    exact ⟨decode_envReadWord c a hrouted, decode_envWriteWord c a d hrouted⟩

/-- Settles O7: the decoder checks the reasons that a unit's words can have in the order of R120's table, and
the state that a refusal leaves has its mark. -/
theorem firstApplicableRefusal : Obligations.FirstApplicableRefusal := by
  refine ⟨decode_error_iff, fun s w rest r hrun hin hdec => ⟨_, step_of_refused_word hrun hin hdec, ?_, ?_⟩⟩
  · rw [State.took_of_inbox hin]
    rfl
  · exact step_of_refusal hrun.1 rfl

/-- Settles O1: sixteen closed words. -/
theorem decodesWrittenWords : Obligations.DecodesWrittenWords := by
  unfold Obligations.DecodesWrittenWords
  decide

/-- Settles O4: each word is its event's, and an event's word decodes inside the block only. -/
theorem internalEventWords : Obligations.InternalEventWords := by
  intro c w i hmem
  have hevent : encode i = w ∧ i.internal = true :=
    (by decide : ∀ x ∈ _, encode x.2 = x.1 ∧ x.2.internal = true) (w, i) hmem
  obtain ⟨rfl, hi⟩ := hevent
  exact ⟨rfl, hi, decode_internal hi c⟩

end Sys2Proof.Proofs
end

section
/-! SUPPORT. Proofs of the statements of 40_surface_access.md: the environment's reads and writes of the
register surface (R140 to R144). -/

namespace Sys2Proof

/-! ## Format E words with data bits (R116, R141) -/

/-- The word of a read, with the data bits that R116 reserves. -/
theorem envReadWord_or_data (a : Addr) (d : Byte) : envReadWord a ||| d.setWidth 32 = wordAD 5 0 a d := by
  apply BitVec.eq_of_getLsbD_eq
  intro i hi
  simp only [envReadWord, wordAD, BitVec.getLsbD_or, BitVec.getLsbD_setWidth, getLsbD_wordP, getLsbD_addrData]
  interval_cases i <;> simp

theorem decode_envRead_reservedBits (c : Context) (a : Addr) {d : Byte} (hd : d ≠ 0#8) :
    decode c (wordAD 5 0 a d) = .error .reservedBits := by
  simp [decode, decodeEnv, hd]

end Sys2Proof

namespace Sys2Proof.Machine

/-! ## The operations of format E by where their address lies (R140, R141, R142) -/

theorem inSurface_eq_surfaceRange (a : Addr) : inSurface a.toNat = a.surfaceRange :=
  routedSurface_eq_surfaceRange a

/-- A write of a surface byte changes the surface alone. -/
theorem State.memWrite_eq (s : State) (a : Nat) (v : Byte) :
    s.memWrite a v = { s with surface := (s.memWrite a v).surface } := by
  unfold State.memWrite
  cases regAt a <;> rfl

section
variable (s : State) {a : Addr} (d : Byte)

theorem exec_envRd (h : a.surfaceRange = true) :
    exec (.envRd a) s = .next (s.replying (s.memRead a.toNat)) :=
  if_pos ((inSurface_eq_surfaceRange a).trans h)

theorem exec_envRd_unrouted (h : a.surfaceRange = false) :
    exec (.envRd a) s = .next (s.refusedBy .unroutedSurfaceAddress) :=
  if_neg (by simp [inSurface_eq_surfaceRange, h])

theorem exec_envWr (h : a.surfaceRange = true) : exec (.envWr a d) s = .next (s.memWrite a.toNat d) :=
  if_pos ((inSurface_eq_surfaceRange a).trans h)

theorem exec_envWr_unrouted (h : a.surfaceRange = false) :
    exec (.envWr a d) s = .next (s.refusedBy .unroutedSurfaceAddress) :=
  if_neg (by simp [inSurface_eq_surfaceRange, h])

end

/-- R143: bits 2..0 of `STAT` stay, the others are the data's. -/
theorem exec_envWrStat (s : State) (d : Byte) : exec (.envWrStat d) s
    = .next (s.withRegs { s.surface.regs with stat := (d &&& 0xF8#8) ||| (s.surface.regs.stat &&& 0x07#8) }) := rfl

/-- R144: the write is discarded. -/
theorem exec_envWrLy (s : State) (d : Byte) : exec (.envWrLy d) s = .next s := rfl

end Sys2Proof.Machine

namespace Sys2Proof.Proofs

open Sys2Proof.Machine

/-- Settles O22: the next state is the model's byte write, whose reads and frame are laws of the state. -/
theorem envWrite : Obligations.EnvWrite := by
  refine fun s a d hstat hly => ⟨fun ha => ?_, exec_envWr_unrouted s d, envWriteWord_eq a d, fun ha c => ?_⟩
  · exact ⟨_, exec_envWr s d ha, s.memWrite_eq _ d, fun b => s.memRead_memWrite _ b d, s.io_memWrite _ d⟩
  · have hrouted : routedSurface a = true := (routedSurface_eq_surfaceRange a).trans ha
    rw [envwrText, ← envWriteWord_eq, decode_envWriteWord c a d hrouted, if_neg hstat, if_neg hly]

/-- Settles O21: the read answers where its address is routed, and its data bits are read before the address. -/
theorem envRead : Obligations.EnvRead := by
  refine fun s a => ⟨exec_envRd s, exec_envRd_unrouted s, envReadWord_eq a, fun c d hd => ?_⟩
  rw [envrdText, ← envReadWord_eq, envReadWord_or_data]
  exact decode_envRead_reservedBits c a hd

/-- Settles O23: the two addresses are routed, and R121 gives their write words to these operations. -/
theorem envWriteStatAndLy : Obligations.EnvWriteStatAndLy := by
  intro s d
  have hstat : encode (.envWrStat d) = 0x51FF4100#32 ||| d.setWidth 32 := envWriteWord_eq 0xFF41 d
  have hly : encode (.envWrLy d) = 0x51FF4400#32 ||| d.setWidth 32 := envWriteWord_eq 0xFF44 d
  refine ⟨exec_envWrStat s d, hstat, exec_envWrLy s d, hly, fun c => ⟨?_, ?_⟩⟩
  · rw [← hstat]
    exact decode_encode_plain rfl rfl rfl rfl
  · rw [← hly]
    exact decode_encode_plain rfl rfl rfl rfl

end Sys2Proof.Proofs
end

section
/-! SUPPORT. Proofs of the statements of 41_ppu_timing.md about the invariant: that it holds at reset, and that
every step keeps it (R162, R243, R250, R290, R295, R304). -/

namespace Sys2Proof.Machine

/-! ## What the invariant looks at -/

/-- The invariant reads the surface, the counter, the parameters, the cartridge, the image held out and the
inputs still to come, which may become fewer. -/
theorem Inv.of_eq {s t : State} (h : Inv s) (surface : t.surface = s.surface)
    (counter : t.ppu.counter = s.ppu.counter) (cfg : t.cfg = s.cfg) (cart : t.cart = s.cart)
    (loader : t.port.loader = s.port.loader) (inbox : t.port.inbox ⊆ s.port.inbox) : Inv t := by
  obtain ⟨⟨hlines, hcounter⟩, hsurface, hinit, hloader, hcart, hinputs⟩ := h
  have hmode : t.mode = s.mode := by rw [State.mode, State.mode, State.io, State.io, surface]
  have hline : t.line = s.line := by rw [State.line, State.line, State.io, State.io, surface]
  refine ⟨⟨?_, ?_⟩, surface ▸ hsurface, cfg ▸ hinit, loader ▸ hloader, cart ▸ hcart,
    fun w hw => hinputs w (inbox hw)⟩
  · rwa [PpuLines, hmode, hline]
  · rwa [counter, hmode]

theorem Inv.took {s : State} (h : Inv s) : Inv s.took :=
  h.of_eq rfl rfl rfl rfl rfl (List.tail_subset _)

theorem Inv.refuse {s : State} (h : Inv s) (r : RefusalReason) : Inv (s.refuse r) :=
  h.of_eq rfl rfl rfl rfl rfl (List.Subset.refl _)

/-! ## Every footprint keeps it -/

/-- The widest footprint of an operation on a loaded machine keeps the invariant. -/
theorem TickFrame.inv {s t : State} (f : TickFrame s t) (h : Inv s) : Inv t := by
  obtain ⟨hppu, hsurface, hinit, hloader, hcart, hinputs⟩ := h
  refine ⟨f.ok hppu, f.surface hsurface, f.cfg ▸ hinit, f.loader ▸ hloader, fun c' hc' => ?_,
    fun w => f.inbox ▸ hinputs w⟩
  cases hc : s.cart with
  | none => rw [f.none hc] at hc'; cases hc'
  | some c =>
    obtain ⟨m, hm, -, hmbc⟩ := f.cart c hc
    obtain ⟨himg, hsize, hold⟩ := hcart c hc
    rw [hm] at hc'
    cases hc'
    exact ⟨himg, hsize, hmbc hold⟩

theorem CoreFrame.tick {s t : State} (f : CoreFrame s t) (ok : PpuOk s → PpuOk t) : TickFrame s t :=
  { cfg := f.cfg, inbox := f.inbox, loader := f.loader, shown := f.shown, surface := f.surface,
    none := f.none, cart := f.cart, ok := ok }

theorem QuietFrame.tick {s t : State} (f : QuietFrame s t) : TickFrame s t :=
  f.toCoreFrame.tick f.untouched.ok

/-- An advance of a machine with no mark (R162). -/
theorem exec_ppuAdvance_tick {s t : State} {n : Payload} (hr : s.Running) (h : exec (.ppuAdvance n) s = .next t) :
    TickFrame s t := by
  refine (ppuAdvance_core n.toNat s t h).tick fun ok => ?_
  obtain ⟨u, hu, -, huok⟩ := ppuAdvance_ok n.toNat s ((running_iff s).mp hr) ok.1
  cases hu.symm.trans h
  exact huok

/-! ## A cartridge as the load leaves it (R243, R250, R290, R291, R300, R310) -/

theorem SizeOk.of_sizeOk {img : Image} {code : Byte} (h : sizeOk img.size code = true) : SizeOk img := by
  simp only [sizeOk, Bool.and_eq_true, decide_eq_true_eq, Nat.shiftLeft_eq] at h
  obtain ⟨⟨hbanks, -⟩, hdeclared⟩ := h
  have hpow : 1 ≤ 2 ^ code.toNat := Nat.one_le_two_pow
  exact ⟨by omega, hbanks⟩

theorem MbcOk.mbcAtLoad {init : Memory} (h : Memory.wf init = true) (img : Image) (v : Variant) :
    MbcOk img.ramSize (mbcAtLoad init img v) := by
  have hram := Cells.wf_below init img.ramSize h
  have hbound := Cells.inside_below init img.ramSize
  cases v with
  | fixed => trivial
  | a => exact ⟨(by decide : (1 : BitVec 5) ≠ 0), hram, hbound⟩
  | b =>
    exact ⟨Cells.wf_lowNibbles _ (Cells.wf_below init 512 h),
      Cells.inside_lowNibbles _ _ (Cells.inside_below init 512)⟩
  | c => exact ⟨(by decide : (1 : BitVec 7) ≠ 0), hram, hbound⟩
  | d => exact ⟨hram, hbound⟩

theorem loadCart_ok {init : Memory} {img : Image} {c : Cart} (h : loadCart init img = .ok c)
    (hinit : Memory.wf init = true) (himg : ImageOk img) : CartOk c := by
  unfold loadCart at h
  split at h
  · cases h
  split at h
  · cases h
  split at h
  · cases h
  next hsize =>
    cases h
    exact ⟨himg, .of_sizeOk (Bool.eq_true_of_not_eq_false hsize), .mbcAtLoad hinit img _⟩

theorem exec_cartLoad_inv {s t : State} (hs : Inv s) (h : exec .cartLoad s = .next t) : Inv t := by
  rcases exec_load h with ⟨e, -⟩ | ⟨-, c, hload, rfl⟩
  · rw [e]
    exact hs.of_eq rfl rfl rfl rfl rfl (List.Subset.refl _)
  · obtain ⟨hppu, hsurface, hinit, hloader, -, hinputs⟩ := hs
    refine ⟨hppu, hsurface, hinit, hloader, fun c' hc' => ?_, hinputs⟩
    cases hc'
    exact loadCart_ok hload hinit hloader

/-- A commit changes the frame presented and `frameReady`, or is refused (R363). -/
theorem exec_hostCommit_inv {s t : State} (hs : Inv s) (h : exec .hostCommit s = .next t) : Inv t := by
  change execHostCommit s = .next t at h
  unfold execHostCommit at h
  split at h <;> cases h
  · exact hs.refuse _
  · exact hs.of_eq rfl rfl rfl rfl rfl (List.Subset.refl _)

/-! ## A word from outside, and a step -/

/-- No word from outside names an internal event (R117). -/
theorem internal_of_decode {s : State} {w : Word} {i : Instr} (h : decode (s.context false) w = .ok i) :
    i.internal = false := by
  cases hi : i.internal with
  | false => rfl
  | true => exact absurd (Context.inside_of_admits (decode_spells h).admits hi) (by simp [State.context])

/-- Family by family: every operation that a host's word can name keeps the invariant. -/
theorem exec_inv {i : Instr} {s t : State} (hr : s.Running) (hw : i.wellFormed = true) (hn : i.internal = false)
    (hs : Inv s) (h : exec i s = .next t) : Inv t := by
  rcases op_cases i with (⟨n, rfl⟩ | hevent) | hbus | rfl | rfl | rfl | rfl | rfl
  · exact (exec_ppuAdvance_tick hr h).inv hs
  · exfalso
    simp only [List.mem_cons, List.not_mem_nil, or_false] at hevent
    rcases hevent with rfl | rfl | rfl | rfl | rfl | rfl | rfl | rfl | rfl | rfl <;> cases hn
  · exact (exec_bus_frame hbus (fun _ => hw) h).quiet.tick.inv hs
  · exact exec_cartLoad_inv hs h
  · exact exec_hostCommit_inv hs h
  · cases hn
  · cases hn
  · exact (exec_tick_frame h).inv hs

theorem present_inv {w : Word} {s t : State} (hr : s.Running) (hs : Inv s) (h : present false w s = .next t) :
    Inv t := by
  unfold present at h
  split at h
  · cases h; exact hs.refuse _
  next i hi => exact exec_inv hr (decode_spells hi).wellFormed (internal_of_decode hi) hs h

theorem serve_inv {s t : State} (hr : s.Running) (hs : Inv s) (h : serve s = .next t) : Inv t := by
  cases hin : s.port.inbox with
  | nil => simp only [serve, hin] at h; cases h; exact hs
  | cons x rest =>
    cases x with
    | key k p =>
      simp only [serve, hin] at h
      cases h
      exact hs.took.of_eq rfl rfl rfl rfl rfl (List.Subset.refl _)
    | word w => exact present_inv (s := s.took) hr hs.took ((serve_word hin).symm.trans h)
    | event w =>
      obtain ⟨-, -, -, -, -, hinputs⟩ := hs
      exact absurd (hin ▸ List.mem_cons_self) (hinputs w)

end Sys2Proof.Machine

namespace Sys2Proof.Proofs

open Sys2Proof.Machine

/-- Settles O15: creation's fields, and a mode and line that agree. -/
theorem resetSatisfiesInvariant : Obligations.ResetSatisfiesInvariant := by
  refine ⟨⟨⟨by decide, by decide⟩, by decide⟩, ⟨by decide, by decide⟩, by decide, ⟨by decide, by decide⟩, ?_, ?_⟩
  · rintro c ⟨⟩
  · intro w hw
    cases hw

/-- Settles O16: only a machine with no mark steps, and what it serves is no internal event. -/
theorem stepKeepsInvariant : Obligations.StepKeepsInvariant := by
  intro s t hs h
  have hr : s.Running := by simp [State.Running, marks_of_step_next h]
  exact serve_inv hr hs ((step_of_running hr).symm.trans h)

end Sys2Proof.Proofs
end

section
/-! SUPPORT. Proofs of the statements of 41_ppu_timing.md about single operations: the transitions, display off, the
coincidence check, and `PPU.ADVANCE` as R150's loop (R150 to R162). -/

namespace Sys2Proof.Machine

/-! ## Statements in order -/

theorem andThen_assoc (o : Result) (f g : State → Result) :
    andThen (andThen o f) g = andThen o (fun s => andThen (f s) g) := by
  cases o with
  | next s =>
    cases h : s.halted with
    | true => simp [h]
    | false => simp [h]
  | fault _ => rfl
  | refused _ => rfl

/-- What follows matters only in a state with no mark. -/
theorem andThen_congr {o : Result} {f g : State → Result} (h : ∀ s, s.halted = false → f s = g s) :
    andThen o f = andThen o g := by
  cases o with
  | next s =>
    cases hs : s.halted with
    | true => simp [hs]
    | false => simpa [hs] using h s hs
  | fault _ => rfl
  | refused _ => rfl

theorem foldl_andThen (l : List (State → Result)) (o : Result) : l.foldl andThen o = andThen o (inOrder l) := by
  induction l generalizing o with
  | nil =>
    cases o with
    | next s => simp
    | fault _ => rfl
    | refused _ => rfl
  | cons g l ih =>
    rw [List.foldl_cons, ih, andThen_assoc]
    refine andThen_congr fun s hs => ?_
    rw [← ih, inOrder, List.foldl_cons, andThen_of_running hs]

theorem inOrder_eq_andThen {s : State} (h : s.halted = false) (f : State → Result) (l : List (State → Result)) :
    inOrder (f :: l) s = andThen (f s) (inOrder l) := by
  rw [inOrder, List.foldl_cons, andThen_of_running h, foldl_andThen]

/-- A first statement that only changes the state. -/
theorem inOrder_cons_next {s : State} (h : s.halted = false) (g : State → State) (l : List (State → Result)) :
    inOrder ((fun u => .next (g u)) :: l) s = inOrder l (g s) :=
  inOrder_cons h (f := fun u => .next (g u)) rfl l

/-! ## Exact next states (R153 to R160) -/

@[simp] theorem halted_withRegs (s : State) (g : Regs) : (s.withRegs g).halted = s.halted := rfl

theorem withMode_hblank (v : Byte) : withMode v .hblank = v &&& 0xFC#8 := BitVec.or_zero

/-- Entering OAM, as registers (R155, R158). -/
theorem enterOam_eq (s : State) : enterOam s = s.withRegs
    (if testBit s.surface.regs.stat 5 = true
      then { s.surface.regs with stat := (s.surface.regs.stat &&& 0xFC#8) ||| 0x02#8,
                                 iflag := s.surface.regs.iflag ||| 0x02#8 }
      else { s.surface.regs with stat := (s.surface.regs.stat &&& 0xFC#8) ||| 0x02#8 }) := by
  have hstat : s.io .stat = s.surface.regs.stat := rfl
  unfold enterOam
  rw [hstat]
  cases testBit s.surface.regs.stat 5 <;> rfl

/-- Entering HBLANK, as registers (R154). -/
theorem enterHblank_eq (s : State) : enterHblank s = s.withRegs
    { s.surface.regs with
      stat := s.surface.regs.stat &&& 0xFC#8,
      iflag := if testBit (s.io .stat) 3 = true then s.surface.regs.iflag ||| 0x02#8
        else s.surface.regs.iflag } := by
  unfold enterHblank State.setMode
  rw [withMode_hblank]
  cases testBit (s.io .stat) 3 <;> rfl

theorem execPpuLcdOff_eq (s : State) : execPpuLcdOff s
    = .next { s.withRegs { s.surface.regs with ly := 0#8, stat := s.surface.regs.stat &&& 0xFC#8 }
              with ppu := { s.ppu with counter := 0 } } := by
  unfold execPpuLcdOff State.setMode
  rw [withMode_hblank]
  rfl

/-! ## The coincidence check (R160) -/

/-- `s` with the coincidence bit `eq`, and with the LCD-status interrupt requested where `request` says so:
all that a check can change. -/
def State.checked (s : State) (eq request : Bool) : State :=
  (s.setIo .stat (withCoincidence (s.io .stat) eq)).requestIf request lcdStatusLine

/-- `LY = LYC`. -/
def State.coincides (s : State) : Bool := decide (s.io .ly = s.io .lyc)

/-- The check requests: a newly set coincidence with `STAT[6]` set. -/
def State.checkRequests (s : State) : Bool := s.coincides && !testBit (s.io .stat) 2 && testBit (s.io .stat) 6

theorem State.stat_of_checkRequests {s : State} (h : s.checkRequests = true) : testBit (s.io .stat) 6 = true :=
  (Bool.and_eq_true_iff.mp h).2

theorem execPpuLycCheck_eq (s : State) : execPpuLycCheck s = .next (s.checked s.coincides s.checkRequests) := rfl

section
variable (s : State) (b q : Bool)

theorem State.io_checked {r : Reg} (hstat : r ≠ .stat) (hiflag : r ≠ .iflag) : (s.checked b q).io r = s.io r := by
  cases q <;> simp [State.checked, State.requestIf, hstat, hiflag]

@[simp] theorem State.stat_checked : (s.checked b q).io .stat = withCoincidence (s.io .stat) b := by
  cases q <;> simp [State.checked, State.requestIf]

@[simp] theorem State.iflag_checked :
    (s.checked b q).io .iflag = if q then setBit (s.io .iflag) lcdStatusLine else s.io .iflag := by
  cases q <;> simp [State.checked, State.requestIf]

@[simp] theorem State.ppu_checked : (s.checked b q).ppu = s.ppu := by cases q <;> rfl

@[simp] theorem State.fb_checked : (s.checked b q).fb = s.fb := by cases q <;> rfl

@[simp] theorem halted_checked : (s.checked b q).halted = s.halted := by cases q <;> rfl

@[simp] theorem mode_checked : (s.checked b q).mode = s.mode := by
  rw [State.mode_eq, State.stat_checked, modeOf_withCoincidence, State.mode_eq]

@[simp] theorem line_checked : (s.checked b q).line = s.line := by
  rw [State.line_eq, s.io_checked b q (by decide) (by decide), State.line_eq]

/-- Of `STAT` a check writes bit 2. -/
theorem testBit_stat_checked (k : Nat) :
    testBit ((s.checked b q).io .stat) k = if k = 2 then b else testBit (s.io .stat) k := by
  rw [State.stat_checked, testBit_withCoincidence]

/-- Of `IF` a check sets bit 1. -/
theorem testBit_iflag_checked {k : Nat} (hk : k ≠ 1) :
    testBit ((s.checked b q).io .iflag) k = testBit (s.io .iflag) k := by
  rw [State.iflag_checked]
  cases q
  · rfl
  · rw [if_pos rfl, setBit_testBit _ _ _ (by decide)]
    simp [lcdStatusLine, hk]

end

/-! ## `PPU.ADVANCE` (R150, R159, R160) -/

section
variable {s : State} {n : Payload}

theorem exec_ppuAdvance_of_off (hr : s.Running) (hoff : lcdOn (s.io .lcdc) = false) :
    exec (.ppuAdvance n) s = inOrder [exec .ppuLcdOff, exec .ppuLycCheck] s := by
  have hlast : ∀ u : State, u.halted = false → execPpuLycCheck u = inOrder [exec .ppuLycCheck] u :=
    fun u hu => (andThen_of_running hu _).symm
  rw [inOrder_eq_andThen ((running_iff s).mp hr)]
  show andThen (if lcdOn (s.io .lcdc) = true then _ else _) _ = _
  rw [if_neg (by simp [hoff])]
  exact andThen_congr hlast

/-- With the display on, an advance is the run of R150's loop, and then the check. -/
theorem exec_ppuAdvance_of_loopRun {u : State} {events : List Instr} (hr : s.Running)
    (hon : lcdOn (s.io .lcdc) = true) (h : LoopRun (s.setCounter (s.ppu.counter + n.toNat)) events u) :
    exec (.ppuAdvance n) s = andThen (.next u) execPpuLycCheck := by
  obtain ⟨_, v, hv, hloop⟩ := loopRun_of_advanceLoop ((s.ppu.counter + n.toNat) / 80 + 1)
    (s.setCounter (s.ppu.counter + n.toNat)) ((running_iff s).mp hr) (Nat.lt_succ_self _)
  obtain ⟨-, rfl⟩ := h.unique hv
  rw [← hloop]
  show andThen (if lcdOn (s.io .lcdc) = true then _ else _) _ = _
  rw [if_pos hon]

/-- An advance that sets no mark ends in the check. -/
theorem exec_ppuAdvance_checked {t : State} (h : exec (.ppuAdvance n) s = .next t) (ht : t.Running) :
    ∃ u : State, t = u.checked u.coincides u.checkRequests := by
  obtain ⟨u, -, ⟨hu, rfl⟩ | ⟨-, hu⟩⟩ := andThen_eq_next h
  · rw [running_iff, hu] at ht
    cases ht
  · cases hu
    exact ⟨u, rfl⟩

end

/-- After a check `STAT[2]` says whether `LY = LYC` (R160). -/
theorem stat_coincidence_checked (u : State) (q : Bool) : testBit ((u.checked u.coincides q).io .stat) 2
    = decide ((u.checked u.coincides q).io .ly = (u.checked u.coincides q).io .lyc) := by
  rw [testBit_stat_checked, if_pos rfl, u.io_checked _ q (by decide) (by decide),
    u.io_checked _ q (by decide) (by decide), State.coincides]

/-- The check as registers: `LY ≠ LYC`. -/
theorem execPpuLycCheck_of_ne {s : State} (h : s.surface.regs.ly ≠ s.surface.regs.lyc) :
    execPpuLycCheck s = .next (s.withRegs { s.surface.regs with stat := s.surface.regs.stat &&& 0xFB#8 }) := by
  have hc : s.coincides = false := decide_eq_false h
  rw [execPpuLycCheck_eq, State.checkRequests, hc]
  rfl

/-- The check as registers: `LY = LYC`. -/
theorem execPpuLycCheck_of_eq {s : State} (h : s.surface.regs.ly = s.surface.regs.lyc) :
    execPpuLycCheck s = .next (s.withRegs
      (if testBit s.surface.regs.stat 2 = false ∧ testBit s.surface.regs.stat 6 = true
        then { s.surface.regs with stat := s.surface.regs.stat ||| 0x04#8, iflag := s.surface.regs.iflag ||| 0x02#8 }
        else { s.surface.regs with stat := s.surface.regs.stat ||| 0x04#8 })) := by
  have hc : s.coincides = true := decide_eq_true h
  have hstat : s.io .stat = s.surface.regs.stat := rfl
  rw [execPpuLycCheck_eq, State.checkRequests, hc, hstat]
  cases testBit s.surface.regs.stat 2 <;> cases testBit s.surface.regs.stat 6 <;> rfl

/-! ## The raster passes are the spec's loops (R190, R201) -/

/-- The pass reads no cell of the frame buffer. -/
theorem bgWinPixelSpec_setRow (s : State) (y : Nat) (row : Row) (x line : Nat) :
    bgWinPixelSpec (s.setRow y row) x line = bgWinPixelSpec s x line := rfl

theorem foldl_bgWinPixelSpec (s : State) (line : Nat) (row : Row) :
    (List.range 160).foldl (fun r x => r.setIfInBounds x (bgWinPixelSpec s x line)) row = bgWinRow s line := by
  apply Vector.ext
  intro x hx
  rw [foldl_setIfInBounds_get _ _ _ x hx, if_pos (List.mem_range.mpr hx), bgWinRow_get _ _ _ hx, bgWinPixelSpec_eq]

/-- Where the row does not exist the first call of the sink ends a pass. -/
theorem inOrder_setPixel_of_ge {s : State} (hr : s.halted = false) {line : Nat} (hl : 144 ≤ line)
    (f : State → Nat → Shade) (x : Nat) (l : List Nat) :
    inOrder ((x :: l).map (fun x t => setPixel x line (f t x) t)) s = .next (s.raise (.outOfRangePixel x line)) := by
  have hfirst : setPixel x line (f s x) s = .next (s.raise (.outOfRangePixel x line)) := by
    simp [setPixel, hl]
  rw [List.map_cons]
  exact (inOrder_cons hr hfirst _).trans (inOrder_of_halted (by simp) _)

/-- Column by column, the background pass is one row write, or the fault of its first cell (R190, R213). -/
theorem bgWinSpec_eq {s : State} (hr : s.halted = false) (line : Nat) : bgWinSpec line s = rasterBgWin line s := by
  unfold bgWinSpec
  by_cases hl : line < 144
  · have h := inOrder_setPixel line hl (fun t x => bgWinPixelSpec t x line)
      (fun t row x => bgWinPixelSpec_setRow t line row x line)
      (List.range 160) s s.fb[line] hr (fun x hx => List.mem_range.mp hx)
    rw [setRow_self s line hl, foldl_bgWinPixelSpec] at h
    rw [rasterBgWin_of_lt hl, h]
  · rw [rasterBgWin_of_ge (by omega), List.range_succ_eq_map]
    exact inOrder_setPixel_of_ge hr (by omega) (fun t x => bgWinPixelSpec t x line) 0 _

/-- Entry by entry, the sprite pass is one row write, or the fault of its first pixel (R201, R213). -/
theorem objSpec_eq {s : State} (hr : s.halted = false) (line : Nat) : objSpec line s = rasterObj line s := by
  unfold objSpec
  by_cases hl : line < 144
  · have h := inOrder_entries_row line hl s hr (List.range 40).reverse s.fb[line]
    rw [setRow_self s line hl] at h
    rw [h, rasterObj_of_lt hl]
    rfl
  · have hfb : s.fb[line]? = none := by simp [hl]
    rw [inOrder_entries_none line (by omega) s hr, rasterObj, hfb]
    rfl

/-! ## The row of a scanline (R154) -/

/-- Both passes on an existing row leave `passRow` there, and change nothing else. -/
theorem passes_of_lt {s : State} (hr : s.halted = false) {y : Nat} (hy : y < 144) :
    inOrder [bgWinSpec y, objSpec y] s = .next (s.setRow y (passRow s y)) := by
  have hbg : bgWinSpec y s = .next (s.setRow y (bgWinRow s y)) :=
    (bgWinSpec_eq hr y).trans (rasterBgWin_of_lt hy s)
  have hcell : (s.setRow y (bgWinRow s y)).fb[y] = bgWinRow s y := by simp [State.setRow]
  have hobj : objSpec y (s.setRow y (bgWinRow s y)) = .next (s.setRow y (passRow s y)) := by
    rw [objSpec_eq (by simpa using hr), rasterObj_of_lt hy, setRow_setRow, hcell]
    rfl
  rw [inOrder_cons hr hbg, inOrder_cons (by simpa using hr) hobj, inOrder_nil]

theorem RowDrawn.eq_passRow {s : State} (hr : s.Running) {y : Nat} (hy : y < 144) {row : Row}
    (h : RowDrawn s y row) : row = passRow s y := by
  obtain ⟨t, ht, -, hrow⟩ := h
  rw [passes_of_lt ((running_iff s).mp hr) hy] at ht
  cases ht
  rw [fb_setRow _ _ _ hy] at hrow
  exact (Option.some.inj hrow).symm

/-- The transition is its four statements in order, each pass being the spec's loop (R154). -/
theorem execPpuTVramHblank_eq_inOrder {s : State} (hr : s.halted = false) : execPpuTVramHblank s = inOrder
    [fun u => bgWinSpec u.line u, fun u => objSpec u.line u,
     fun u => .next (u.withRegs { u.surface.regs with stat := u.surface.regs.stat &&& 0xFC#8 }),
     fun u => .next (if testBit (u.io .stat) 3 = true
       then u.withRegs { u.surface.regs with iflag := u.surface.regs.iflag ||| 0x02#8 } else u)] s := by
  rw [inOrder_eq_andThen hr, bgWinSpec_eq hr]
  refine andThen_congr fun u hu => ?_
  rw [inOrder_eq_andThen hu, objSpec_eq hu]
  refine andThen_congr fun v hv => ?_
  rw [inOrder_cons_next hv, inOrder_cons_next ((halted_withRegs v _).trans hv), inOrder_nil, enterHblank_eq]
  have hbit : testBit (v.io .stat &&& 0xFC#8) 3 = testBit (v.io .stat) 3 := by
    rw [← withMode_hblank, testBit_withMode _ _ _ (by decide)]
  show _ = Host.Outcome.next (if testBit (v.io .stat &&& 0xFC#8) 3 = true then _ else _)
  rw [hbit]
  split <;> rfl

/-- Beyond the grid the first pass faults, and nothing is written (R213). -/
theorem execPpuTVramHblank_of_ge {s : State} (h : 144 ≤ s.line) :
    execPpuTVramHblank s = .next (s.faulted (.outOfRangePixel 0 s.line)) := by
  unfold execPpuTVramHblank
  rw [rasterBgWin_of_ge h, andThen_next, if_pos (halted_raise s _)]
  rfl

end Sys2Proof.Machine

namespace Sys2Proof.Proofs

open Sys2Proof.Machine

/-- Settles O24: entering OAM by `enterOam_eq`, the other three by the registers they write. -/
theorem modeTransitions : Obligations.ModeTransitions := by
  refine fun s => ⟨rfl, ?_, rfl, rfl, ?_, by decide⟩
  · exact congrArg Host.Outcome.next (enterOam_eq (s.setIo .ly (s.io .ly + 1)))
  · exact congrArg Host.Outcome.next (enterOam_eq (s.setIo .ly 0))

/-- Settles O25: every advance that sets no mark ends in the check, which compares `LY` with `LYC`. -/
theorem displayOffAndCoincidence : Obligations.DisplayOffAndCoincidence := by
  refine fun s => ⟨execPpuLcdOff_eq s, execPpuLycCheck_of_ne, fun heq hnew => ?_, fun heq hold => ?_, by decide,
    by decide, fun n hr => ⟨exec_ppuAdvance_of_off hr, fun t ht htr => ?_⟩⟩
  · exact (execPpuLycCheck_of_eq heq).trans (by rw [if_pos hnew])
  · exact (execPpuLycCheck_of_eq heq).trans (by rw [if_neg hold])
  · obtain ⟨u, rfl⟩ := exec_ppuAdvance_checked ht htr
    exact stat_coincidence_checked u _

/-- Settles O26: the model's passes are the spec's loops, and on an existing row they write that row once. -/
theorem vramToHblank : Obligations.VramToHblank := by
  intro s hr
  have hrun := (running_iff s).mp hr
  refine ⟨execPpuTVramHblank_eq_inOrder hrun, fun hl => ?_, execPpuTVramHblank_of_ge, by decide⟩
  have hexact := tVramHblank_exact s hrun hl
  rw [enterHblank_eq] at hexact
  refine ⟨_, hexact, rfl, fun row hrow => ?_, fun x y hy => ?_⟩
  · rw [hrow.eq_passRow hr hl]
    exact fb_setRow s s.line _ hl
  · exact (pixel_setRow s s.line _ x y).trans (if_neg fun h => hy h.1)

/-- Settles O27: the run that R150's loop makes exists, and the advance goes on from where it ends. -/
theorem advanceRunsTheLoop : Obligations.AdvanceRunsTheLoop := by
  refine ⟨fun s n hr => ⟨fun hon => ?_, exec_ppuAdvance_of_off hr, ppuWord_eq n⟩, fun v => testBit_iff v 7,
    rfl, rfl, rfl, rfl⟩
  obtain ⟨events, u, hloop⟩ := LoopRun.exists (s.setCounter (s.ppu.counter + n.toNat)) hr
  have hexec := exec_ppuAdvance_of_loopRun hr hon hloop
  refine ⟨events, u, hloop, fun hu => ?_, fun hu => ?_⟩
  · exact hexec.trans (andThen_of_running ((running_iff u).mp hu) _)
  · rw [running_iff, Bool.not_eq_false] at hu
    rw [hexec, andThen_next, if_pos hu]

/-- Settles O28: `ppuAdvance_ok` for the whole call, `transition_ok` for each turn. -/
theorem advanceKeepsPpuOk : Obligations.AdvanceKeepsPpuOk := by
  refine ⟨fun s n hr hok => ?_, fun s hr hl => ?_⟩
  · obtain ⟨t, ht, htr, htok⟩ := ppuAdvance_ok n.toNat s ((running_iff s).mp hr) hok.1
    exact ⟨t, ht, (running_iff t).mpr htr, htok⟩
  · obtain ⟨t, ht, htr, htl, -⟩ := transition_ok s ((running_iff s).mp hr) hl
    exact ⟨t, (exec_turnEvent s s.ppu.counter).trans ht, (running_iff t).mpr htr, htl⟩

end Sys2Proof.Proofs
end

section
/-! SUPPORT. Proof of the cadence law of 41_ppu_timing.md: a coincidence check commutes with every transition, so
however cycles are split into calls they run as one call of their total (R166). -/

namespace Sys2Proof.Machine

/-! ## A check before a run changes nothing of the run (R166) -/

/-- The answer with its next state replaced. -/
def Result.mapNext (f : State → State) : Result → Result
  | .next u => .next (f u)
  | .fault r => .fault r
  | .refused r => .refused r

theorem andThen_mapNext {o : Result} {f g : State → Result} {m : State → State}
    (hm : ∀ s, (m s).halted = s.halted) (h : ∀ s, g (m s) = (f s).mapNext m) :
    andThen (o.mapNext m) g = (andThen o f).mapNext m := by
  cases o with
  | next s =>
    show andThen (.next (m s)) g = _
    rw [andThen_next, andThen_next, hm, h]
    split <;> rfl
  | fault _ => rfl
  | refused _ => rfl

theorem testBit_ext {v w : Byte} (h : ∀ k, testBit v k = testBit w k) : v = w :=
  BitVec.eq_of_getLsbD_eq fun k _ => h k

theorem withCoincidence_withMode (v : Byte) (m : Mode) (b : Bool) :
    withCoincidence (withMode v m) b = withMode (withCoincidence v b) m := by
  revert v
  cases b <;> cases m <;> decide +kernel

theorem withCoincidence_twice (v : Byte) (b b' : Bool) :
    withCoincidence (withCoincidence v b) b' = withCoincidence v b' :=
  testBit_ext fun k => by
    simp only [testBit_withCoincidence]
    split <;> rfl

theorem withCoincidence_self (v : Byte) : withCoincidence v (testBit v 2) = v :=
  testBit_ext fun k => by
    rw [testBit_withCoincidence]
    split
    next h => rw [h]
    next => rfl

theorem setBit_comm (v : Byte) (i j : Nat) : setBit (setBit v i) j = setBit (setBit v j) i := by
  simp only [setBit, BitVec.or_assoc, BitVec.or_comm (1#8 <<< i)]

theorem setBit_twice (v : Byte) (i : Nat) : setBit (setBit v i) i = setBit v i := by
  simp only [setBit, BitVec.or_assoc, BitVec.or_self]

/-- A check, as registers. -/
theorem State.checked_eq (s : State) (b q : Bool) : s.checked b q = s.withRegs { s.surface.regs with
    stat := withCoincidence s.surface.regs.stat b,
    iflag := if q then setBit s.surface.regs.iflag lcdStatusLine else s.surface.regs.iflag } := by
  cases q <;> rfl

section
variable (s : State) (b q : Bool)

theorem State.checked_checked (b' q' : Bool) : (s.checked b q).checked b' q' = s.checked b' (q || q') := by
  have hstat := withCoincidence_twice s.surface.regs.stat b b'
  have hiflag := setBit_twice s.surface.regs.iflag lcdStatusLine
  simp only [State.checked_eq, State.withRegs, hstat]
  cases q <;> cases q' <;> simp [hiflag]

/-- The check that finds what the bit says already, and requests nothing. -/
theorem State.checked_self : s.checked (testBit (s.io .stat) 2) false = s := by
  have hstat := withCoincidence_self (s.io .stat)
  rw [State.checked_eq]
  show s.withRegs { s.surface.regs with stat := withCoincidence (s.io .stat) _ } = s
  rw [hstat]
  rfl

theorem setMode_checked (m : Mode) : (s.checked b q).setMode m = (s.setMode m).checked b q := by
  simp only [State.checked_eq, State.withRegs, State.setMode, State.setIo, State.io, Regs.set, Regs.get,
    withCoincidence_withMode]

theorem requestIf_checked (c : Bool) (l : Nat) : (s.checked b q).requestIf c l = (s.requestIf c l).checked b q := by
  have hiflag := setBit_comm s.surface.regs.iflag lcdStatusLine l
  cases c with
  | false => rfl
  | true =>
    simp only [State.checked_eq, State.withRegs, State.requestIf, State.requestInterrupt, State.setIo, State.io,
      Regs.set, Regs.get, if_true]
    cases q <;> simp [hiflag]

theorem setLy_checked (v : Byte) : (s.checked b q).setIo .ly v = (s.setIo .ly v).checked b q := by
  cases q <;> rfl

theorem setRow_checked (y : Nat) (row : Row) : (s.checked b q).setRow y row = (s.setRow y row).checked b q := by
  cases q <;> rfl

theorem setCounter_checked (n : Nat) : (s.checked b q).setCounter n = (s.setCounter n).checked b q := by
  cases q <;> rfl

theorem setFrameReady_checked (r : Bool) :
    (s.checked b q).setFrameReady r = (s.setFrameReady r).checked b q := by
  cases q <;> rfl

theorem raise_checked (f : FaultMark) : (s.checked b q).raise f = (s.raise f).checked b q := by
  cases q <;> rfl

/-- A check is in the PPU's footprint. -/
theorem PpuFrame.checked : PpuFrame s (s.checked b q) :=
  (PpuFrame.setStatCoincidence s b).trans (PpuFrame.requestIf _ _ _ (by decide))

end

/-! ### The transitions commute with a check -/

section
variable (s : State) (b q : Bool)

@[simp] theorem io_ly_checked : (s.checked b q).io .ly = s.io .ly := s.io_checked b q (by decide) (by decide)

theorem enterHblank_checked : enterHblank (s.checked b q) = (enterHblank s).checked b q := by
  unfold enterHblank
  rw [testBit_stat_checked, if_neg (by decide), setMode_checked, requestIf_checked]

theorem enterOam_checked : enterOam (s.checked b q) = (enterOam s).checked b q := by
  unfold enterOam
  rw [testBit_stat_checked, if_neg (by decide), setMode_checked, requestIf_checked]

theorem rasterBgWin_checked (line : Nat) :
    rasterBgWin line (s.checked b q) = (rasterBgWin line s).mapNext (·.checked b q) := by
  by_cases hl : line < 144
  · rw [rasterBgWin_of_lt hl, rasterBgWin_of_lt hl, (PpuFrame.checked s b q).bgWinRow hl, setRow_checked]
    rfl
  · rw [rasterBgWin_of_ge (by omega), rasterBgWin_of_ge (by omega), raise_checked]
    rfl

theorem rasterObj_checked (line : Nat) :
    rasterObj line (s.checked b q) = (rasterObj line s).mapNext (·.checked b q) := by
  have hshade : behindShade (s.checked b q) = behindShade s := by
    unfold behindShade
    rw [(PpuFrame.checked s b q).cfg, s.io_checked b q (by decide) (by decide)]
  unfold rasterObj
  rw [s.fb_checked b q, (PpuFrame.checked s b q).objPixels, hshade]
  split
  · rw [setRow_checked]; rfl
  · split
    · rfl
    · rw [raise_checked]; rfl

theorem execPpuTVramHblank_checked :
    execPpuTVramHblank (s.checked b q) = (execPpuTVramHblank s).mapNext (·.checked b q) := by
  unfold execPpuTVramHblank
  rw [line_checked, rasterBgWin_checked]
  refine andThen_mapNext (fun u => halted_checked u b q) fun u => ?_
  rw [line_checked, rasterObj_checked]
  refine andThen_mapNext (fun v => halted_checked v b q) fun v => ?_
  exact congrArg Host.Outcome.next (enterHblank_checked v b q)

/-- No transition reads the coincidence bit, and none clears a bit of `IF`. -/
theorem transition_checked : transition (s.checked b q) = (transition s).mapNext (·.checked b q) := by
  unfold transition
  rw [mode_checked, line_checked]
  cases s.mode with
  | oam => exact congrArg Host.Outcome.next (setMode_checked s b q .vram)
  | vram => exact execPpuTVramHblank_checked s b q
  | hblank =>
    dsimp only
    split
    · refine congrArg Host.Outcome.next ?_
      show ((((s.checked b q).setIo .ly 144).setMode .vblank).requestIf true vblankLine).setFrameReady true = _
      rw [setLy_checked, setMode_checked, requestIf_checked, setFrameReady_checked]
      rfl
    · refine congrArg Host.Outcome.next ?_
      rw [io_ly_checked, setLy_checked, enterOam_checked]
  | vblank =>
    dsimp only
    split
    · refine congrArg Host.Outcome.next ?_
      rw [setLy_checked, enterOam_checked]
    · refine congrArg Host.Outcome.next ?_
      rw [io_ly_checked, setLy_checked]

theorem turnEvent_checked : turnEvent (s.checked b q) = turnEvent s := by
  unfold turnEvent
  rw [mode_checked, line_checked]

end

/-! ### Runs after a check -/

theorem LoopRun.frame {s t : State} {events : List Instr} (h : LoopRun s events t) : PpuFrame s t := by
  have turn : ∀ {s u : State} {n : Nat}, exec (turnEvent s) (s.setCounter n) = .next u → PpuFrame s u :=
    fun {s u n} run => (PpuFrame.setCounter s n).trans (transition_frame _ u ((exec_turnEvent s n).symm.trans run))
  induction h with
  | exit _ => exact .refl _
  | turn _ run _ _ ih => exact (turn run).trans ih
  | stop _ run _ => exact turn run

/-- The run after a check is the run without it, checked at its end. -/
theorem LoopRun.checked {s t : State} {events : List Instr} (h : LoopRun s events t) (b q : Bool) :
    LoopRun (s.checked b q) events (t.checked b q) := by
  have turn : ∀ {s u : State} {n : Nat}, exec (turnEvent s) (s.setCounter n) = .next u →
      exec (turnEvent (s.checked b q)) ((s.checked b q).setCounter n) = .next (u.checked b q) := by
    intro s u n run
    rw [exec_turnEvent] at run ⊢
    rw [setCounter_checked, transition_checked, run]
    rfl
  have running : ∀ {u : State}, u.Running ↔ (u.checked b q).Running := by
    intro u
    rw [running_iff, running_iff, halted_checked]
  induction h with
  | exit h => exact .exit (by rwa [State.ppu_checked, mode_checked])
  | @turn s u t events h run going _ ih =>
    rw [← turnEvent_checked s b q]
    refine .turn (by rwa [State.ppu_checked, mode_checked]) ?_ (running.mp going) ih
    rw [State.ppu_checked, mode_checked]
    exact turn run
  | @stop s u h run marked =>
    rw [← turnEvent_checked s b q]
    refine .stop (by rwa [State.ppu_checked, mode_checked]) ?_ (fun hu => marked (running.mpr hu))
    rw [State.ppu_checked, mode_checked]
    exact turn run

/-! ## Calls one after another (R166) -/

/-- The total of the cycles of some calls. -/
def totalCycles (ns : List Payload) : Nat := (ns.map BitVec.toNat).sum

/-- Calls from a state already checked run as one call of their total from the state before the check, and
end in a state that differs from where that run ends by one check, which requests only if `STAT[6]` is set. -/
theorem AdvancesRun.joined {s t : State} {ns : List Payload} {events : List Instr} (h : AdvancesRun s ns events t) :
    ∀ {s₀ : State} {b q : Bool}, s = s₀.checked b q → s₀.Running → PpuOk s₀ →
      (q = true → testBit (s₀.io .stat) 6 = true) →
      ∃ w b' q', LoopRun (s₀.setCounter (s₀.ppu.counter + totalCycles ns)) events w ∧ t = w.checked b' q'
        ∧ (q' = true → testBit (s₀.io .stat) 6 = true) := by
  induction h with
  | done =>
    intro s₀ b q hs hr hok hq
    exact ⟨s₀, b, q, .exit hok.2, hs, hq⟩
  | @call s u v t n ns events later hon hloop hrun hgoing _ ih =>
    rintro s₀ b q rfl hr hok hq
    have hr' : (s₀.checked b q).Running := by rwa [running_iff, halted_checked, ← running_iff]
    obtain ⟨events₀, u₀, hloop₀⟩ := LoopRun.exists (s₀.setCounter (s₀.ppu.counter + n.toNat)) hr
    obtain ⟨hu₀, hok₀⟩ := hloop₀.ok hr (hok.1.setCounter _)
    have hchecked := hloop₀.checked b q
    rw [← setCounter_checked, ← s₀.ppu_checked b q] at hchecked
    obtain ⟨rfl, rfl⟩ := hloop.unique hchecked
    have hstat : testBit (u₀.io .stat) 6 = testBit (s₀.io .stat) 6 := hloop₀.frame.stat 6 (by decide)
    have hv : v = u₀.checked (u₀.checked b q).coincides (q || (u₀.checked b q).checkRequests) := by
      rw [exec_ppuAdvance_of_loopRun hr' hon hloop,
        andThen_of_running (by rw [halted_checked]; exact (running_iff u₀).mp hu₀), execPpuLycCheck_eq,
        State.checked_checked] at hrun
      exact (Host.Outcome.next.inj hrun).symm
    obtain ⟨w, b', q', hlater, ht, hq'⟩ := ih hv hu₀ hok₀ fun hreq => by
      rcases Bool.or_eq_true_iff.mp hreq with h | h
      · exact hstat.trans (hq h)
      · have h6 := State.stat_of_checkRequests h
        rwa [testBit_stat_checked, if_neg (by decide)] at h6
    refine ⟨w, b', q', ?_, ht, fun h => hstat.symm.trans (hq' h)⟩
    have hjoin := LoopRun.add (totalCycles ns) hloop₀ hu₀ hlater
    rwa [show totalCycles (n :: ns) = n.toNat + totalCycles ns from rfl, ← Nat.add_assoc]

end Sys2Proof.Machine

namespace Sys2Proof.Proofs

open Sys2Proof.Machine

/-- Settles O30: both sequences run as the one run of their total, and each ends one check after it. -/
theorem cadenceLaw : Obligations.CadenceLaw := by
  intro s t u ns ms events events' hr hok ht hu hsum
  obtain ⟨w, b, q, hw, rfl, hq⟩ := ht.joined s.checked_self.symm hr hok (by simp)
  obtain ⟨w', b', q', hw', rfl, hq'⟩ := hu.joined s.checked_self.symm hr hok (by simp)
  rw [totalCycles, ← hsum] at hw'
  obtain ⟨rfl, rfl⟩ := hw.unique hw'
  refine ⟨rfl, by simp, by simp, by simp, by simp, fun k hk => ?_, fun h6 => ?_, fun k hk => ?_⟩
  · rw [testBit_iflag_checked _ _ _ hk, testBit_iflag_checked _ _ _ hk]
  · have hno : q = false ∧ q' = false := by
      constructor <;> rw [← Bool.not_eq_true] <;> intro h
      · exact absurd (hq h) (by simp [h6])
      · exact absurd (hq' h) (by simp [h6])
    obtain ⟨rfl, rfl⟩ := hno
    simp
  · rw [testBit_stat_checked, testBit_stat_checked, if_neg hk, if_neg hk]

end Sys2Proof.Proofs
end

section
/-! SUPPORT. Proofs of the statements of 41_ppu_timing.md about whole frames: the frame's clock under one call, and
the events of a frame turn by turn (R164, R165). -/

namespace Sys2Proof.Machine

/-! ## A call up to a cycle of the frame (R164, R165) -/

/-- A check leaves alone all that the frame's clock says. -/
theorem AtCycle.checked {s u : State} {n0 n : Nat} (h : AtCycle s n0 n u) (b q : Bool) :
    AtCycle s n0 n (u.checked b q) where
  frame := h.frame.trans (.checked u b q)
  run := by rw [running_iff, halted_checked]; exact (running_iff u).mp h.run
  clock := by rw [mode_checked, line_checked, State.ppu_checked]; exact h.clock
  before hn := by rw [State.ppu_checked, testBit_iflag_checked _ _ _ (by decide)]; exact h.before hn
  after h0 hn := by rw [State.ppu_checked, testBit_iflag_checked _ _ _ (by decide)]; exact h.after h0 hn
  rows y hy := by rw [State.fb_checked]; exact h.rows y hy

/-- A call from cycle `n0` of the frame brings it `n` cycles on. -/
theorem exec_ppuAdvance_reaches {s : State} {n0 : Nat} (hr : s.Running) (hon : lcdOn (s.io .lcdc) = true)
    (clock : (s.mode, s.line, s.ppu.counter) = frameClock n0) {n : Payload} (hn : n0 + n.toNat ≤ 70224) :
    ∃ t, exec (.ppuAdvance n) s = .next t ∧ AtCycle s n0 (n0 + n.toNat) t := by
  obtain ⟨events, u, hloop, hu⟩ := (AtCycle.start hr clock).reach n.toNat hn
  refine ⟨_, ?_, hu.checked u.coincides u.checkRequests⟩
  rw [exec_ppuAdvance_of_loopRun hr hon hloop, andThen_of_running ((running_iff u).mp hu.run), execPpuLycCheck_eq]

/-! ## The events of a frame, turn by turn (R164) -/

/-- From the frame's start in `s` these events bring it to cycle `n`. -/
def FrameRuns (s : State) (events : List Instr) (n : Nat) : Prop :=
  ∃ u, LoopRun (s.setCounter n) events u ∧ AtCycle s 0 n u

/-- The next turn, from a cycle at which the counter is 0. -/
theorem FrameRuns.turn {s : State} {events : List Instr} {n n' : Nat} {m : Mode} {l : Nat} (h : FrameRuns s events n)
    (hn : n < 70224) (hnext : n + threshold m = n') (clock : frameClock n = (m, l, 0))
    {e : Instr} (he : ∀ u : State, u.mode = m → u.line = l → turnEvent u = e) :
    FrameRuns s (events ++ [e]) n' := by
  subst hnext
  obtain ⟨u, hloop, hu⟩ := h
  have hclock := hu.clock.trans clock
  simp only [Prod.mk.injEq] at hclock
  obtain ⟨hm, hl, hc⟩ := hclock
  obtain ⟨v, hv, hat⟩ := hu.turn hn (Nat.zero_le n)
  rw [hm, hc, Nat.sub_zero] at hat
  have hcounter : v.ppu.counter = 0 := by
    obtain ⟨w, hw, hwc⟩ := transition_next (u.setCounter 0)
    cases hv.symm.trans hw
    exact hwc
  refine ⟨v, LoopRun.add (threshold m) hloop hu.run ?_, hat⟩
  rw [← he u hm hl, hc, Nat.zero_add, ← hm]
  refine LoopRun.turn (s := u.setCounter (threshold u.mode)) (Nat.le_refl _) ?_ hat.run (.exit ?_)
  · show exec (turnEvent (u.setCounter _)) (u.setCounter (threshold u.mode - threshold u.mode)) = _
    rw [Nat.sub_self]
    exact (exec_turnEvent (u.setCounter _) 0).trans hv
  · have h80 := threshold_pos v.mode
    omega

theorem turnEvent_of_oam {s : State} (h : s.mode = .oam) : turnEvent s = .ppuTOamVram := by
  simp only [turnEvent, h]

theorem turnEvent_of_vram {s : State} (h : s.mode = .vram) : turnEvent s = .ppuTVramHblank := by
  simp only [turnEvent, h]

theorem turnEvent_of_hblank {s : State} (h : s.mode = .hblank) :
    turnEvent s = if s.line + 1 = 144 then .ppuTHblankVblank else .ppuTHblankOam := by
  simp only [turnEvent, h]

theorem turnEvent_of_vblank {s : State} (h : s.mode = .vblank) :
    turnEvent s = if s.line = 153 then .ppuTVblankOam else .ppuTVblankLine := by
  simp only [turnEvent, h]

/-- Where the modes of a line begin (R164). -/
theorem frameClock_oam {y : Nat} (hy : y < 144) : frameClock (456 * y) = (.oam, y, 0) := by
  unfold frameClock
  rw [if_pos (by omega), if_pos (by omega)]
  simp only [Prod.mk.injEq, true_and]
  omega

theorem frameClock_vram {y : Nat} (hy : y < 144) : frameClock (456 * y + 80) = (.vram, y, 0) := by
  unfold frameClock
  rw [if_pos (by omega), if_neg (by omega), if_pos (by omega)]
  simp only [Prod.mk.injEq, true_and]
  omega

theorem frameClock_hblank {y : Nat} (hy : y < 144) : frameClock (456 * y + 252) = (.hblank, y, 0) := by
  unfold frameClock
  rw [if_pos (by omega), if_neg (by omega), if_neg (by omega)]
  simp only [Prod.mk.injEq, true_and]
  omega

theorem frameClock_vblank {k : Nat} (hk : k < 10) : frameClock (65664 + 456 * k) = (.vblank, 144 + k, 0) := by
  unfold frameClock
  rw [if_neg (by omega), if_pos (by omega)]
  simp only [Prod.mk.injEq, true_and]
  omega

section
variable {s : State} {events : List Instr}

/-- The drawing of a visible line (R153, R154). -/
theorem FrameRuns.draw {y : Nat} (h : FrameRuns s events (456 * y)) (hy : y < 144) :
    FrameRuns s (events ++ [Instr.ppuTOamVram, .ppuTVramHblank]) (456 * y + 252) := by
  have hvram := h.turn (n' := 456 * y + 80) (by omega) rfl (frameClock_oam hy) fun _ hm _ => turnEvent_of_oam hm
  have hhblank := hvram.turn (n' := 456 * y + 252) (by omega) rfl (frameClock_vram hy)
    fun _ hm _ => turnEvent_of_vram hm
  rwa [List.append_assoc] at hhblank

/-- A visible line but the last (R155). -/
theorem FrameRuns.line {y : Nat} (h : FrameRuns s events (456 * y)) (hy : y < 143) :
    FrameRuns s (events ++ [Instr.ppuTOamVram, .ppuTVramHblank, .ppuTHblankOam]) (456 * (y + 1)) := by
  have hnext := (h.draw (by omega)).turn (n' := 456 * (y + 1)) (by omega) rfl (frameClock_hblank (by omega))
    fun u hm hl => by rw [turnEvent_of_hblank hm, if_neg (by omega)]
  rwa [List.append_assoc] at hnext

/-- The last visible line (R156). -/
theorem FrameRuns.lastLine (h : FrameRuns s events (456 * 143)) :
    FrameRuns s (events ++ [Instr.ppuTOamVram, .ppuTVramHblank, .ppuTHblankVblank]) 65664 := by
  have hnext := (h.draw (by omega)).turn (n' := 65664) (by omega) rfl (frameClock_hblank (by omega))
    fun u hm hl => by rw [turnEvent_of_hblank hm, if_pos (by omega)]
  rwa [List.append_assoc] at hnext

theorem FrameRuns.lines (h : FrameRuns s events 0) {y : Nat} (hy : y ≤ 143) :
    FrameRuns s (events ++ (List.replicate y [Instr.ppuTOamVram, .ppuTVramHblank, .ppuTHblankOam]).flatten)
      (456 * y) := by
  induction y with
  | zero => simpa using h
  | succ y ih => simpa [List.replicate_succ'] using (ih (by omega)).line (by omega)

/-- The lines of VBLANK but the last (R157). -/
theorem FrameRuns.vblankLines (h : FrameRuns s events 65664) {k : Nat} (hk : k ≤ 9) :
    FrameRuns s (events ++ List.replicate k Instr.ppuTVblankLine) (65664 + 456 * k) := by
  induction k with
  | zero => simpa using h
  | succ k ih =>
    have hnext := (ih (by omega)).turn (n' := 65664 + 456 * (k + 1)) (by omega) (Nat.add_assoc _ _ _)
      (frameClock_vblank (by omega)) fun u hm hl => by rw [turnEvent_of_vblank hm, if_neg (by omega)]
    simpa [List.replicate_succ'] using hnext

end

theorem count_frameEvents (i : Instr) : frameEvents.count i
    = 143 * [Instr.ppuTOamVram, .ppuTVramHblank, .ppuTHblankOam].count i
      + [Instr.ppuTOamVram, .ppuTVramHblank, .ppuTHblankVblank].count i
      + (List.replicate 9 Instr.ppuTVblankLine).count i + [Instr.ppuTVblankOam].count i := by
  rw [frameEvents, List.count_append, List.count_append, List.count_append, List.count_flatten, List.map_replicate,
    List.sum_replicate, smul_eq_mul]

/-- The events of the whole frame (R164). -/
theorem frameRuns_frameEvents {s : State} (hr : s.Running) (clock : (s.mode, s.line, s.ppu.counter) = frameClock 0) :
    FrameRuns s frameEvents 70224 := by
  have hcounter : s.ppu.counter = 0 := congrArg (fun c => c.2.2) clock
  have hmode : s.mode = .oam := congrArg (fun c => c.1) clock
  have hstart : FrameRuns s [] 0 := by
    have hsame : s.setCounter 0 = s := by rw [← hcounter]; rfl
    exact ⟨s, hsame.symm ▸ .exit (by rw [hcounter, hmode]; decide), .start hr clock⟩
  have hvblank := (hstart.lines (Nat.le_refl 143)).lastLine.vblankLines (Nat.le_refl 9)
  have hlast := hvblank.turn (n' := 70224) (by decide) (by decide) (frameClock_vblank (by decide))
    fun u hm hl => by rw [turnEvent_of_vblank hm, if_pos hl]
  rwa [List.nil_append] at hlast

end Sys2Proof.Machine

namespace Sys2Proof.Proofs

open Sys2Proof.Machine

/-- Settles O31: the clock turn by turn, from its start for the call and event by event for the run. -/
theorem frameTiming : Obligations.FrameTiming := by
  intro s hr hon hmode hline hcounter
  have clock : (s.mode, s.line, s.ppu.counter) = frameClock 0 := by rw [hmode, hline, hcounter]; rfl
  refine ⟨fun n hn => ?_, ?_, (count_frameEvents _).trans (by decide), (count_frameEvents _).trans (by decide)⟩
  · obtain ⟨t, ht, -, hrun, hclock, hbefore, hafter, hrows⟩ :=
      exec_ppuAdvance_reaches hr hon clock (n := n) (by omega)
    rw [Nat.zero_add] at hclock hbefore hafter hrows
    refine ⟨t, ht, hrun, hclock, hbefore, hafter (by decide), fun y row hy hdrawn => ?_⟩
    rw [hrows y hy, ← hdrawn.eq_passRow hr hy]
    exact if_congr (by omega) rfl rfl
  · obtain ⟨u, hu, -⟩ := frameRuns_frameEvents hr clock
    exact ⟨u, hu⟩

/-- Settles O32: the state `PPU.LCD_OFF` left stands where the frame's clock stands at cycle 252. -/
theorem displayReenable : Obligations.DisplayReenable := by
  intro s n hr hon hmode hline hcounter hn
  have clock : (s.mode, s.line, s.ppu.counter) = frameClock 252 := by rw [hmode, hline, hcounter]; rfl
  obtain ⟨t, ht, -, hrun, hclock, hbefore, hafter, hrows⟩ := exec_ppuAdvance_reaches hr hon clock (n := n) (by omega)
  refine ⟨t, ht, hrun, by rw [hclock, Nat.add_comm], ?_, fun h => hbefore (by omega),
    fun h => hafter (by decide) (by omega), fun y row hy1 hy hdrawn => ?_⟩
  · rw [hrows 0 (by decide), if_neg (by omega)]
  · rw [hrows y hy, ← hdrawn.eq_passRow hr hy]
    exact if_congr (by omega) rfl rfl

end Sys2Proof.Proofs
end

section
/-! SUPPORT. Proofs of the statements of 42_ppu_raster.md: the two passes are the spec's loops and write one row
(R190, R201), and what the sprite pass leaves in a cell by the opaque pixels that fall on it (R207, R208, R211). -/

namespace Sys2Proof.Machine

/-! ## The passes on an existing row -/

/-- Where the row exists, cell by cell (R190). -/
theorem pixel_setRow_bgWinRow {s : State} {line : Nat} (hl : line < 144) (x y : Nat) :
    (s.setRow line (bgWinRow s line)).pixel? x y
      = if y = line ∧ x < 160 then some (bgWinPixelSpec s x y) else s.pixel? x y := by
  rw [pixel_setRow]
  by_cases hy : y = line
  · subst hy
    rw [if_pos ⟨rfl, hl⟩]
    by_cases hx : x < 160
    · rw [if_pos ⟨rfl, hx⟩, Vector.getElem?_eq_getElem hx, bgWinRow_get _ _ _ hx, bgWinPixelSpec_eq]
    · rw [if_neg fun h => hx h.2, Vector.getElem?_eq_none (by omega), pixel_of_row (Vector.getElem?_eq_getElem hl),
        Vector.getElem?_eq_none (by omega)]
  · rw [if_neg fun h => hy h.1, if_neg fun h => hy h.1]

/-! ## One cell under a list of sprite pixels (R208, R211) -/

/-- What a pixel on column `x` brings to its cell: its shade, and whether it lies behind the background. -/
def SpritePixel.at? (x : Nat) (p : SpritePixel) : Option (Shade × Bool) :=
  if p.x = x then some (p.shade, p.behind) else none

/-- One pixel onto its cell: a behind-background pixel only where the cell holds `behind` (R208). -/
def drawCell (behind cell : Shade) (p : Shade × Bool) : Shade :=
  if p.2 = true ∧ cell ≠ behind then cell else p.1

@[simp] theorem drawCell_above (behind cell v : Shade) : drawCell behind cell (v, false) = v := rfl

@[simp] theorem drawCell_behind (behind cell v : Shade) :
    drawCell behind cell (v, true) = if cell = behind then v else cell := by
  simp [drawCell, ite_not]

theorem drawPixel_get (behind : Shade) (row : Row) (p : SpritePixel) {x : Nat} (hx : x < 160) :
    (drawPixel behind row p)[x] = (p.at? x).elim row[x] (drawCell behind row[x]) := by
  unfold drawPixel SpritePixel.at? drawCell
  by_cases h : p.x = x
  · subst h
    rw [if_pos rfl, Vector.getElem?_eq_getElem hx]
    simp only [ne_eq, Option.some.injEq, Option.elim_some]
    split <;> simp
  · rw [if_neg h]
    split <;> simp [h]

/-- A cell sees the pixels of its own column only, in their order. -/
theorem foldl_drawPixel_get (behind : Shade) {x : Nat} (hx : x < 160) (l : List SpritePixel) (row : Row) :
    (l.foldl (drawPixel behind) row)[x] = (l.filterMap (SpritePixel.at? x)).foldl (drawCell behind) row[x] := by
  induction l generalizing row with
  | nil => rfl
  | cons p l ih =>
    rw [List.foldl_cons, ih, drawPixel_get _ _ _ hx, List.filterMap_cons]
    cases p.at? x <;> rfl

/-! ## The opaque pixel of an entry on a column (R203 to R210) -/

/-- Where all elements but `i` map to nothing, only `i` can be left. -/
theorem filterMap_eq_toList {α β : Type} {f : α → Option β} {l : List α} {i : α} (hl : l.Nodup) (hi : i ∈ l)
    (h : ∀ j ∈ l, j ≠ i → f j = none) : l.filterMap f = (f i).toList := by
  obtain ⟨before, after, rfl⟩ := List.append_of_mem hi
  obtain ⟨-, hcons, hdisjoint⟩ := List.nodup_append.mp hl
  have hbefore : before.filterMap f = [] :=
    List.filterMap_eq_nil_iff.mpr fun j hj => h j (by simp [hj]) (hdisjoint j hj i (by simp))
  have hafter : after.filterMap f = [] :=
    List.filterMap_eq_nil_iff.mpr fun j hj => h j (by simp [hj]) fun e =>
      (List.nodup_cons.mp hcons).1 (e ▸ hj)
  rw [List.filterMap_append, hbefore, List.filterMap_cons, hafter]
  cases f i <;> rfl

/-- Column `c` of the row that entry `i` shows on scanline `line` (R204 to R209). -/
def entryPixel (s : State) (line i c : Nat) : Option SpritePixel :=
  let e := oamEntry i
  let h := spriteHeight (s.io .lcdc)
  let attr := s.memRead (e + 3)
  let addr := spriteRowAddr s.cfg.tallSpriteMaskLsb (s.memRead (e + 2))
    (spriteRow (s.memRead e) line h (testBit attr 6)) h
  spritePixel (s.memRead addr) (s.memRead (addr + 1)) attr (if testBit attr 4 then s.io .obp1 else s.io .obp0)
    (s.memRead (e + 1)) c

theorem spritePixels_eq (s : State) (line i : Nat) : spritePixels s line i
    = if spriteCovers (s.memRead (oamEntry i)) line (spriteHeight (s.io .lcdc)) = true
      then (List.range 8).filterMap (entryPixel s line i) else [] := rfl

/-- A sprite's column falls on screen column `x` exactly where `X − 8 + c = x` (R203, R210). -/
theorem spriteColumn_eq_some {ox : Byte} {c x : Nat} (hx : x < 160) :
    spriteColumn ox c = some x ↔ ox.toNat + c = x + 8 := by
  unfold spriteColumn
  split
  · rw [Option.some.injEq]; omega
  · simp only [reduceCtorEq, false_iff]; omega

/-- A sprite's column on screen column `x`: opaque, and the one that falls there (R206, R207, R210). -/
theorem spritePixel_at (lo hi attr palette ox : Byte) (c : Nat) {x : Nat} (hx : x < 160) :
    (spritePixel lo hi attr palette ox c).bind (SpritePixel.at? x)
      = if ox.toNat + c = x + 8 ∧ planeId lo hi (spriteBit c (testBit attr 5)) ≠ 0
        then some (palMap palette (planeId lo hi (spriteBit c (testBit attr 5))), testBit attr 7) else none := by
  unfold spritePixel
  dsimp only
  by_cases hid : planeId lo hi (spriteBit c (testBit attr 5)) = 0
  · rw [if_pos hid, if_neg fun h => h.2 hid]
    rfl
  · rw [if_neg hid, if_congr (and_iff_left hid |>.trans (spriteColumn_eq_some hx).symm) rfl rfl]
    cases spriteColumn ox c with
    | none => rfl
    | some x' => simp [SpritePixel.at?]

theorem spriteBitSpec_toNat (c : Nat) (xflip : Bool) : (spriteBitSpec c xflip).toNat = spriteBit c xflip := by
  unfold spriteBitSpec spriteBit
  cases xflip <;> simp

/-- The spec's pixel of a covering entry is the model's at the one column that falls on `x`. -/
theorem spriteAtSpec_of_covers {s : State} {line i x : Nat} (hx : x < 160)
    (hc : spriteCovers (s.memRead (oamEntry i)) line (spriteHeight (s.io .lcdc)) = true) :
    spriteAtSpec s line i x
      = if (s.memRead (oamEntry i + 1)).toNat ≤ x + 8 ∧ x < (s.memRead (oamEntry i + 1)).toNat
        then (entryPixel s line i (x + 8 - (s.memRead (oamEntry i + 1)).toNat)).bind (SpritePixel.at? x)
        else none := by
  have hspan := (spriteCovers_iff _ _ _).mp hc
  unfold spriteAtSpec entryPixel
  rw [show 0xFE00 + 4 * i = oamEntry i from rfl, heightSpec_eq]
  dsimp only
  rw [spriteAddrSpec_eq _ _ _ _ _ _ hc, spritePixel_at _ _ _ _ _ _ hx]
  generalize spriteRowAddr _ _ _ _ = addr
  generalize s.memRead (oamEntry i + 1) = ox
  have hcol : ((x : ℤ) - ((ox.toNat : ℤ) - 8)).toNat = x + 8 - ox.toNat := by omega
  have hnext : ((addr : ℤ) + 1).toNat = addr + 1 := by omega
  rw [hcol, hnext, Int.toNat_natCast, ← ite_and, idSpec_eq, palSpec_eq, spriteBitSpec_toNat]
  refine if_congr ?_ rfl rfl
  rw [ne_eq, ne_eq, BitVec.toNat_eq (y := (0 : Shade))]
  constructor
  · rintro ⟨-, -, h0, h8, hid⟩
    exact ⟨by omega, by omega, hid⟩
  · rintro ⟨hin, -, hid⟩
    exact ⟨by omega, by omega, by omega, by omega, hid⟩

theorem spriteAtSpec_of_not_covers {s : State} {line i : Nat} (x : Nat)
    (hc : ¬ spriteCovers (s.memRead (oamEntry i)) line (spriteHeight (s.io .lcdc)) = true) :
    spriteAtSpec s line i x = none := by
  rw [spriteCovers_iff] at hc
  unfold spriteAtSpec
  rw [show 0xFE00 + 4 * i = oamEntry i from rfl, heightSpec_eq]
  exact if_neg fun ⟨h0, hh, _⟩ => hc ⟨by omega, by omega⟩

/-- An entry brings at most one pixel to a column: the spec's. -/
theorem spritePixels_at (s : State) (line i : Nat) {x : Nat} (hx : x < 160) :
    (spritePixels s line i).filterMap (SpritePixel.at? x) = (spriteAtSpec s line i x).toList := by
  rw [spritePixels_eq]
  by_cases hc : spriteCovers (s.memRead (oamEntry i)) line (spriteHeight (s.io .lcdc)) = true
  · have hother : ∀ c, (s.memRead (oamEntry i + 1)).toNat + c ≠ x + 8 →
        (entryPixel s line i c).bind (SpritePixel.at? x) = none :=
      fun c hne => (spritePixel_at _ _ _ _ _ c hx).trans (if_neg fun h => hne h.1)
    rw [if_pos hc, List.filterMap_filterMap, spriteAtSpec_of_covers hx hc]
    split
    · exact filterMap_eq_toList List.nodup_range (List.mem_range.mpr (by omega)) fun c _ hne => hother c (by omega)
    · exact List.filterMap_eq_nil_iff.mpr fun c hmem => hother c (by have := List.mem_range.mp hmem; omega)
  · rw [if_neg hc, spriteAtSpec_of_not_covers x hc]
    rfl

/-! ## The cell after the sprite pass (R211) -/

/-- The opaque pixels on a cell, entry 39 first. -/
def pixelsAt (s : State) (line x : Nat) : List (Shade × Bool) :=
  (List.range 40).reverse.filterMap fun i => spriteAtSpec s line i x

theorem objPixels_at (s : State) (line : Nat) {x : Nat} (hx : x < 160) :
    (objPixels s line).filterMap (SpritePixel.at? x) = pixelsAt s line x := by
  rw [objPixels, pixelsAt, List.filterMap_flatMap, List.filterMap_eq_flatMap_toList]
  exact congrArg (List.flatMap · (List.range 40).reverse) (funext fun i => spritePixels_at s line i hx)

/-- After the pass a cell holds what its own opaque pixels, drawn in order, make of it. -/
theorem rasterObj_pixel {s t : State} {line x : Nat} (hl : line < 144) (hx : x < 160)
    (h : rasterObj line s = .next t) :
    ∃ cell, s.pixel? x line = some cell
      ∧ t.pixel? x line = some ((pixelsAt s line x).foldl (drawCell (behindShadeSpec s)) cell) := by
  rw [rasterObj_of_lt hl] at h
  cases h
  refine ⟨s.fb[line][x], ?_, ?_⟩
  · rw [pixel_of_row (Vector.getElem?_eq_getElem hl), Vector.getElem?_eq_getElem hx]
  · rw [pixel_setRow, if_pos ⟨rfl, hl⟩, Vector.getElem?_eq_getElem hx, foldl_drawPixel_get _ hx, objPixels_at _ _ hx,
      behindShadeSpec_eq]

section
variable {s : State} {line x i : Nat}

theorem pixelsAt_eq_nil (h : ∀ i < 40, spriteAtSpec s line i x = none) : pixelsAt s line x = [] :=
  List.filterMap_eq_nil_iff.mpr fun i hi => h i (by simpa using hi)

/-- A lone opaque pixel. -/
theorem pixelsAt_of_alone {p : Shade × Bool} (hi : i < 40) (hp : spriteAtSpec s line i x = some p)
    (h : ∀ j < 40, j ≠ i → spriteAtSpec s line j x = none) : pixelsAt s line x = [p] := by
  rw [pixelsAt, filterMap_eq_toList (i := i) (List.nodup_reverse.mpr List.nodup_range) (by simpa using hi)
    fun j hj => h j (by simpa using hj), hp, Option.toList_some]

/-- The lowest index is drawn last (R211). -/
theorem pixelsAt_of_lowest {p : Shade × Bool} (hi : i < 40) (hp : spriteAtSpec s line i x = some p)
    (h : ∀ j < i, spriteAtSpec s line j x = none) : ∃ earlier, pixelsAt s line x = earlier ++ [p] := by
  obtain ⟨k, hk⟩ := Nat.exists_eq_add_of_le (show i + 1 ≤ 40 from hi)
  have hlater : (List.range i).reverse.filterMap (fun j => spriteAtSpec s line j x) = [] :=
    List.filterMap_eq_nil_iff.mpr fun j hj => h j (by simpa using hj)
  refine ⟨((List.range k).map (i + 1 + ·)).reverse.filterMap fun j => spriteAtSpec s line j x, ?_⟩
  rw [pixelsAt, hk, List.range_add, List.range_succ, List.reverse_append, List.filterMap_append, List.reverse_append,
    List.reverse_singleton, List.singleton_append, List.filterMap_cons_some (f := (spriteAtSpec s line · x)) hp, hlater]

end

end Sys2Proof.Machine

namespace Sys2Proof.Proofs

open Sys2Proof.Machine

/-- Settles O33: the spec's loop is the model's row write, whose cells are `BgWinPixel`. -/
theorem backgroundWindowPass : Obligations.BackgroundWindowPass := by
  intro s hr
  refine ⟨(bgWinSpec_eq ((running_iff s).mp hr) s.line).symm, fun hl => ?_, fun hl => rasterBgWin_of_ge hl s, by decide⟩
  exact ⟨_, rasterBgWin_of_lt hl s, rfl, pixel_setRow_bgWinRow hl⟩

/-- Settles O34: the spec's loop is the model's row write. -/
theorem spritePass : Obligations.SpritePass := by
  intro s hr
  refine ⟨(objSpec_eq ((running_iff s).mp hr) s.line).symm, fun hl => ?_, by decide⟩
  exact ⟨_, rasterObj_of_lt hl s, rfl, fun x y hy => (pixel_setRow s s.line _ x y).trans (if_neg fun h => hy h.1)⟩

/-- Settles O35: a cell is drawn by its own opaque pixels alone, the lowest index last. -/
theorem spritePriority : Obligations.SpritePriority := by
  intro s t x _ hl hx ht
  obtain ⟨cell, hcell, hdrawn⟩ := rasterObj_pixel hl hx ht
  rw [hdrawn, hcell]
  refine ⟨fun hnone => ?_, fun i v hi hv hbelow => ?_, fun i v hi hv halone => ?_⟩
  · rw [pixelsAt_eq_nil hnone, List.foldl_nil]
  · obtain ⟨earlier, hlast⟩ := pixelsAt_of_lowest hi hv hbelow
    rw [hlast, List.foldl_append, List.foldl_cons, List.foldl_nil, drawCell_above]
  · rw [pixelsAt_of_alone hi hv halone, List.foldl_cons, List.foldl_nil, drawCell_behind, ← apply_ite some]
    exact congrArg some (if_congr Option.some_inj.symm rfl rfl)

end Sys2Proof.Proofs
end

section
/-! SUPPORT. Proofs of the statements of 43_cartridge.md: the loader's checks and reset values (R241 to R243), the
fixed mapping (R245 to R249), variant B (R250 to R257), and that a loaded cartridge stays the same (R258). -/

namespace Sys2Proof.Machine

/-! ## What a read of the cartridge can do (R119, R120) -/

section
variable {R : State → State → Prop} {s : State} (refuse : ∀ r, R s (s.refuse r))
include refuse

theorem in_onFixed {op : Image → Result} (h : ∀ img, InFrame R s (op img)) : InFrame R s (onFixed s op) := by
  unfold onFixed
  split
  · exact in_next (refuse _)
  · exact h _
  · rintro t ⟨⟩

theorem in_onB {op : Image → MbcB → Result} (h : ∀ img m, InFrame R s (op img m)) : InFrame R s (onB s op) := by
  unfold onB
  split
  · exact in_next (refuse _)
  · exact h _ _
  · rintro t ⟨⟩

/-- The refusal that the families of variants A, C and D begin with (R7, R120). -/
theorem in_ofAcdModel {o : Result} (h : InFrame R s o) :
    InFrame R s (if s.cfg.variantAcdModel = .unspecified then .next (s.refuse .unspecifiedVariant) else o) := by
  split
  · exact in_next (refuse _)
  · exact h

theorem in_onA {op : Image → MbcA → Result} (h : ∀ img m, InFrame R s (op img m)) : InFrame R s (onA s op) := by
  unfold onA
  split
  · exact in_next (refuse _)
  · exact in_ofAcdModel refuse (h _ _)
  · rintro t ⟨⟩

theorem in_onC {op : Image → MbcC → Result} (h : ∀ img m, InFrame R s (op img m)) : InFrame R s (onC s op) := by
  unfold onC
  split
  · exact in_next (refuse _)
  · exact in_ofAcdModel refuse (h _ _)
  · rintro t ⟨⟩

theorem in_onD {op : Image → MbcD → Result} (h : ∀ img m, InFrame R s (op img m)) : InFrame R s (onD s op) := by
  unfold onD
  split
  · exact in_next (refuse _)
  · exact in_ofAcdModel refuse (h _ _)
  · rintro t ⟨⟩

end

/-- `t` holds the cartridge of `s`, its controller included. -/
def CartKept (s t : State) : Prop := t.cart = s.cart

theorem cartKept_readImage (s : State) (img : Image) (i : Nat) : InFrame CartKept s (readImage s img i) := by
  unfold readImage
  split <;> exact in_next rfl

/-- The three rows of R119's table with `RW = 0` answer a byte or set a mark. -/
theorem cartKept_of_readRow {row : SelectionRow} (hrow : row ∈ selectionTable) (hread : row.write = false)
    (v : Variant) (a : Addr) (d : Byte) (s : State) : InFrame CartKept s (exec (row.op v a d) s) := by
  have refuse : ∀ r, CartKept s (s.refuse r) := fun _ => rfl
  simp only [selectionTable, List.mem_cons, List.not_mem_nil, or_false] at hrow
  rcases hrow with rfl | rfl | rfl | rfl | rfl | rfl | rfl | rfl | rfl
  iterate 2 -- the two windows of the image
    cases v with
    | fixed => exact in_onFixed refuse fun img => cartKept_readImage s img _
    | a => exact in_onA refuse fun img _ => cartKept_readImage s img _
    | b => exact in_onB refuse fun img _ => cartKept_readImage s img _
    | c => exact in_onC refuse fun img _ => cartKept_readImage s img _
    | d => exact in_onD refuse fun img _ => cartKept_readImage s img _
  · cases v with
    | fixed => exact in_onFixed refuse fun _ => in_next rfl
    | a => exact in_onA refuse fun _ _ => in_next rfl
    | b => exact in_onB refuse fun _ _ => in_next rfl
    | c => exact in_onC refuse fun _ _ => in_next rfl
    | d => exact in_onD refuse fun _ _ => in_next rfl
  all_goals cases hread

/-- A well-formed cartridge operation that is no write keeps the controller (R240, R258). -/
theorem exec_cartRead_cart {i : Instr} {s t : State} (hv : i.variant ≠ none) (hw : i.wellFormed = true)
    (hread : ∀ v a d, selectWrite v a d ≠ some i) (h : exec i s = .next t) : t.cart = s.cart := by
  obtain ⟨v, hv⟩ := Option.ne_none_iff_exists'.mp hv
  obtain ⟨k, a, d, ⟨hlo, hhi⟩, rfl⟩ := exists_inRow hv hw
  have hrow : selectionTable.get k ∈ selectionTable := List.get_mem _ _
  have hselect := select_of_row hrow v d hlo hhi
  by_cases hwrite : (selectionTable.get k).write = true
  · rw [if_pos hwrite] at hselect
    exact absurd hselect (hread v a d)
  · exact cartKept_of_readRow hrow (Bool.eq_false_of_not_eq_true hwrite) v a d s t h

theorem exec_hostCommit_cart {s t : State} (h : exec .hostCommit s = .next t) : t.cart = s.cart := by
  change execHostCommit s = .next t at h
  unfold execHostCommit at h
  split at h <;> cases h <;> rfl

/-! ## The loaded cartridge stays the same (R258) -/

theorem SameCartridge.of_eq {s t : State} (h : t.cart = s.cart) : SameCartridge s t :=
  fun c hc => ⟨c, h.trans hc, rfl, rfl⟩

theorem TickFrame.sameCartridge {s t : State} (f : TickFrame s t) : SameCartridge s t := by
  intro c hc
  obtain ⟨m, hm, hvariant, -⟩ := f.cart c hc
  exact ⟨_, hm, rfl, hvariant⟩

/-- A load that completes found no cartridge (R120). -/
theorem exec_cartLoad_sameCartridge {s t : State} (h : exec .cartLoad s = .next t) : SameCartridge s t := by
  rcases exec_load h with ⟨e, -⟩ | ⟨hnone, -⟩
  · exact .of_eq (by rw [e])
  · intro c hc
    cases hnone.symm.trans hc

/-- Family by family: no operation changes the image or the variant. -/
theorem exec_sameCartridge {i : Instr} {s t : State} (h : exec i s = .next t) : SameCartridge s t := by
  rcases op_cases i with hppu | (hcart | henv) | rfl | rfl | rfl | rfl | rfl
  · exact .of_eq (exec_ppu_frame hppu h).cart
  · exact (exec_bus_frame (.inl hcart) (fun e => absurd e hcart) h).quiet.tick.sameCartridge
  · exact .of_eq (exec_env_cart henv h)
  · exact exec_cartLoad_sameCartridge h
  · exact .of_eq (exec_hostCommit_cart h)
  · exact (TickFrame.of_step h).sameCartridge
  · exact (dispatch_quiet s t h).tick.sameCartridge
  · exact (exec_tick_frame h).sameCartridge

/-! ## The loader (R241 to R243, R250, R290, R291, R300, R310) -/

/-- A row of R242's table gives its variant to the bytes of its range: the rows are disjoint. -/
theorem variantOf_of_row {row : Nat × Nat × Variant} (hrow : row ∈ headerTable) {t : Byte}
    (hlo : row.1 ≤ t.toNat) (hhi : t.toNat ≤ row.2.1) : variantOf t = some row.2.2 := by
  simp only [headerTable, List.mem_cons, List.not_mem_nil, or_false] at hrow
  rcases hrow with rfl | rfl | rfl | rfl | rfl <;> dsimp only at hlo hhi <;>
    simp (disch := omega) only [variantOf, if_pos, if_neg]

theorem variantOf_of_no_row {t : Byte} (h : ∀ row ∈ headerTable, ¬ (row.1 ≤ t.toNat ∧ t.toNat ≤ row.2.1)) :
    variantOf t = none := by
  simp only [headerTable, List.forall_mem_cons, List.not_mem_nil, false_implies, implies_true, and_true] at h
  obtain ⟨h0, h1, h2, h3, h4⟩ := h
  simp (disch := omega) only [variantOf, if_neg]

theorem sizeOk_iff (img : Image) : sizeOk img.size (img.byte 0x148) = true ↔ SizeDeclared img := by
  simp only [sizeOk, SizeDeclared, Bool.and_eq_true, decide_eq_true_eq, Nat.shiftLeft_eq, and_assoc]

@[simp] theorem variant_mbcAtLoad (init : Memory) (img : Image) (v : Variant) : (mbcAtLoad init img v).variant = v := by
  cases v <;> rfl

/-- The RAM of variants A, C and D at load, by the spec's size table (R290). -/
theorem read_ram_atLoad (init : Memory) (img : Image) (i : Nat) : Cells.read (Cells.below init img.ramSize) i
    = if i < ramSizeSpec img then Cells.read init i else 0 := by
  rw [Cells.read_below, img.ramSize_eq_spec]

theorem atLoad_mbcAtLoad {init : Memory} (h : Memory.wf init = true) (img : Image) (v : Variant) :
    AtLoad init img v (mbcAtLoad init img v) := by
  cases v with
  | fixed => rfl
  | a | c | d => exact ⟨_, rfl, read_ram_atLoad init img⟩
  | b =>
    refine ⟨_, rfl, fun i => ?_⟩
    rw [Cells.read_lowNibbles _ (Cells.wf_below init 512 h), Cells.read_below, apply_ite (BitVec.setWidth 4)]
    rfl

section
variable (init : Memory) {img : Image}

theorem loadCart_of_short (h : img.size < 0x150) : loadCart init img = .error (.malformedImage img.size) := if_pos h

theorem loadCart_of_unsupported (hlen : 0x150 ≤ img.size) (h : variantOf (img.byte 0x147) = none) :
    loadCart init img = .error (.unsupportedCartridge (img.byte 0x147)) := by
  simp only [loadCart, if_neg (Nat.not_lt.mpr hlen), h]

variable {v : Variant} (hlen : 0x150 ≤ img.size) (hv : variantOf (img.byte 0x147) = some v)
include hlen hv

theorem loadCart_of_not_sizeDeclared (h : ¬ SizeDeclared img) :
    loadCart init img = .error (.malformedImage img.size) := by
  have hsize : sizeOk img.size (img.byte 0x148) = false := Bool.eq_false_of_not_eq_true (mt (sizeOk_iff img).mp h)
  simp only [loadCart, if_neg (Nat.not_lt.mpr hlen), hv, hsize, if_true]

theorem loadCart_of_sizeDeclared (h : SizeDeclared img) :
    loadCart init img = .ok { img := img, mbc := mbcAtLoad init img v } := by
  simp only [loadCart, if_neg (Nat.not_lt.mpr hlen), hv, (sizeOk_iff img).mpr h, Bool.true_eq_false, if_false]

end

section
variable {s : State}

theorem exec_cartLoad_of_error (hnone : s.cart = none) {f : FaultMark}
    (h : loadCart s.cfg.cartRamInit s.port.loader = .error f) : exec .cartLoad s = .next (s.faulted f) := by
  change execCartLoad s = _
  simp only [execCartLoad, hnone, h]
  rfl

theorem exec_cartLoad_of_ok (hnone : s.cart = none) {c : Cart}
    (h : loadCart s.cfg.cartRamInit s.port.loader = .ok c) : exec .cartLoad s = .next { s with cart := some c } := by
  change execCartLoad s = _
  simp only [execCartLoad, hnone, h]

theorem exec_cartLoad_reload (h : s.cart ≠ none) : exec .cartLoad s = .next (s.refusedBy .reload) := by
  obtain ⟨c, hc⟩ := Option.ne_none_iff_exists'.mp h
  change execCartLoad s = _
  simp only [execCartLoad, hc]
  rfl

end

/-! ## The image through a window (R94, R245, R246, R251, R252) -/

theorem onFixed_of_cart {s : State} {img : Image} (hc : s.cart = some { img := img, mbc := .fixed })
    (op : Image → Result) : onFixed s op = op img := by
  simp only [onFixed, hc]

theorem readImage_of_ge (s : State) {img : Image} {i : Nat} (h : img.size ≤ i) :
    readImage s img i = .next (s.faulted (.outOfRangeIndex i)) := if_neg (Nat.not_lt.mpr h)

/-- The two ROM windows lie within the smallest image (R243). -/
theorem readImage_rom (s : State) {img : Image} {a : Addr} {lo hi : Nat} (hsize : 0x8000 ≤ img.size)
    (ha : a.within lo hi = true) (hhi : hi ≤ 0x7FFF) :
    readImage s img a.toNat = .next (s.replying (img.byte a.toNat)) := by
  obtain ⟨-, hle⟩ := Addr.within_iff.mp ha
  exact readImage_of_lt s (by omega)

/-- A qualifying RAM-enable write flips the flag (R253). -/
theorem exec_cartBWrRamen {s : State} {img : Image} {m : MbcB} (hc : s.cart = some { img := img, mbc := .b m })
    (a : Addr) (d : Byte) : exec (.cartBWrRamen a d) s = .next (s.withMbc img (.b { m with
      ramEnable := if togglesRamB s.cfg.mbc2EnableSelect a d = true then !m.ramEnable else m.ramEnable })) :=
  onB_of_cart hc _

/-! ## Variant B in the spec's operators (R252, R256, R257) -/

theorem romIndexB_eq (bank : BitVec 4) (a : Addr) :
    romIndexB bank a = bank.toNat * 0x4000 + (a &&& 0x3FFF#16).toNat := by
  rw [romIndexB, BitVec.toNat_and]
  exact congrArg _ (Nat.and_two_pow_sub_one_eq_mod a.toNat 14).symm

theorem ramIndexB_eq (a : Addr) : ramIndexB a = (a &&& 0x01FF#16).toNat := by
  rw [ramIndexB, BitVec.toNat_and]
  exact (Nat.and_two_pow_sub_one_eq_mod a.toNat 9).symm

theorem nibble_setWidth (v : BitVec 4) : v.setWidth 8 = 0#4 ++ v := BitVec.setWidth_eq_append (by decide)

theorem setWidth_and_nibble (d : Byte) : (d &&& 0x0F#8).setWidth 4 = d.setWidth 4 := by
  rw [← setWidth_nibble, BitVec.setWidth_setWidth_of_le _ (by decide), BitVec.setWidth_eq]

end Sys2Proof.Machine

namespace Sys2Proof.Proofs

open Sys2Proof.Machine

/-- Settles O18: per family, no operation replaces the image or the variant; of the operations of the cartridge
port only the writes of R119's table store in the controller. -/
theorem oneVariantPerCartridge : Obligations.OneVariantPerCartridge := by
  refine fun i s t h => ⟨exec_sameCartridge h, fun hw hread hload hstep hdispatch htick => ?_⟩
  rcases op_cases i with hppu | (hcart | henv) | e | rfl | e | e | e
  · exact (exec_ppu_frame hppu h).cart
  · exact exec_cartRead_cart hcart hw hread h
  · exact exec_env_cart henv h
  · exact absurd e hload
  · exact exec_hostCommit_cart h
  · exact absurd e hstep
  · exact absurd e hdispatch
  · exact absurd e htick

/-- Settles O36: the loader's three checks in their order, each against the spec's table or size rule. -/
theorem cartridgeLoad : Obligations.CartridgeLoad := by
  intro s img t
  refine ⟨fun hnone hlen => ?_, fun hnone hlen hrows => ?_, fun hnone hlen row hrow hlo hhi => ?_,
    exec_cartLoad_reload, by decide⟩
  · exact exec_cartLoad_of_error hnone (loadCart_of_short _ hlen)
  · exact exec_cartLoad_of_error hnone (loadCart_of_unsupported _ hlen (variantOf_of_no_row hrows))
  · have hv := variantOf_of_row hrow hlo hhi
    refine ⟨fun hsize => exec_cartLoad_of_error hnone (loadCart_of_not_sizeDeclared _ hlen hv hsize),
      fun hsize hinit => ⟨_, exec_cartLoad_of_ok hnone (loadCart_of_sizeDeclared _ hlen hv hsize), ?_, ?_⟩⟩
    · exact variant_mbcAtLoad _ _ _
    · exact atLoad_mbcAtLoad hinit _ _

/-- Settles O37: both windows lie inside an image of 32 KiB, and nothing else of the mapping looks at the state. -/
theorem fixedMapping : Obligations.FixedMapping := by
  refine fun s img a d hc hsize => ⟨fun ha => ⟨?_, cartReadWord_eq a⟩, fun ha => ⟨?_, cartReadWord_eq a⟩,
    fun _ => ⟨onFixed_of_cart hc _, cartWriteWord_eq a d⟩,
    fun _ => ⟨onFixed_of_cart hc _, cartReadWord_eq a, onFixed_of_cart hc _, cartWriteWord_eq a d⟩⟩
  · exact (onFixed_of_cart hc _).trans (readImage_rom s hsize ha (by decide))
  · exact (onFixed_of_cart hc _).trans (readImage_rom s hsize ha (by decide))

/-- Settles O38: the high window's index is the spec's, unmasked, and the image's length decides. -/
theorem variantBReads : Obligations.VariantBReads := by
  intro s img m a hc hsize i
  have hromx : exec (.cartBRdRomx a) s = readImage s img i :=
    (onB_of_cart hc _).trans (congrArg (readImage s img) (romIndexB_eq m.romBank a))
  refine ⟨fun ha => ⟨?_, cartReadWord_eq a⟩, fun _ => ⟨fun hlt => ?_, fun hge => ?_, cartReadWord_eq a⟩,
    fun _ => ⟨fun hoff => ?_, fun hon => ?_, cartReadWord_eq a⟩⟩
  · exact (onB_of_cart hc _).trans (readImage_rom s hsize ha (by decide))
  · exact hromx.trans (readImage_of_lt s hlt)
  · exact hromx.trans (readImage_of_ge s hge)
  · rw [exec_cartBRdRam a hc, hoff]
    rfl
  · rw [exec_cartBRdRam a hc, if_pos hon, ramIndexB_eq, nibble_setWidth]
    rfl

/-- Settles O39: each write stores its field, and the RAM write stores at the spec's index. -/
theorem variantBWrites : Obligations.VariantBWrites := by
  intro s img m a d hc
  refine ⟨fun _ => ⟨fun hsel => ?_, fun hsel => ?_, cartWriteWord_eq a d⟩, fun _ => ⟨?_, cartWriteWord_eq a d⟩,
    fun _ => ⟨onB_of_cart hc _, cartWriteWord_eq a d⟩, fun _ => ⟨_, exec_cartBWrRam a d hc, fun hon => ?_,
      fun hoff => ?_, cartWriteWord_eq a d⟩⟩
  · simp only [exec_cartBWrRamen hc, hsel, togglesRamB, Bool.not_eq_true']
  · simp only [exec_cartBWrRamen hc, hsel, togglesRamB, Bool.not_eq_true']
  · rw [setWidth_and_nibble]
    exact onB_of_cart hc _
  · rw [if_pos hon, ramIndexB_eq, setWidth_and_nibble]
    exact fun i => Cells.read_write m.ram _ i _
  · rw [hoff]
    rfl

end Sys2Proof.Proofs
end

section
/-! SUPPORT. Proofs of the statements of 44_cartridge_gk.md: the indices of R290, and variants A (R292 to R299),
C (R301 to R308) and D (R311 to R319) under `VARIANT_ACD_MODEL = PHYSICAL`. -/

namespace Sys2Proof.Machine

/-! ## The low bits of a written byte (R294 to R297, R303 to R305, R313 to R316) -/

section
variable {v w : Nat} {mask : BitVec v} (h : mask.toNat = 2 ^ w - 1)
include h

theorem toNat_and_lowBits (d : BitVec v) : (d &&& mask).toNat = d.toNat % 2 ^ w := by
  rw [BitVec.toNat_and, h, Nat.and_two_pow_sub_one_eq_mod]

/-- A field of width `w` holds what the mask of its `w` low bits keeps. -/
theorem setWidth_and_lowBits (d : BitVec v) : (d &&& mask).setWidth w = d.setWidth w := by
  apply BitVec.eq_of_toNat_eq
  rw [BitVec.toNat_setWidth, BitVec.toNat_setWidth, toNat_and_lowBits h, Nat.mod_mod]

theorem and_lowBits_eq_zero_iff (d : BitVec v) : d &&& mask = 0 ↔ d.setWidth w = 0 := by
  rw [← BitVec.toNat_inj, ← BitVec.toNat_inj, toNat_and_lowBits h, BitVec.toNat_setWidth]
  rfl

/-- The zero test on the masked byte is the one on the stored field (R295, R304). -/
theorem ite_and_lowBits_eq_nonzeroBank (d : BitVec v) :
    (if d &&& mask = 0 then 1#w else (d &&& mask).setWidth w) = nonzeroBank (d.setWidth w) := by
  simp only [setWidth_and_lowBits h, and_lowBits_eq_zero_iff h, nonzeroBank]
  rfl

end

/-! ## The indices in the spec's operators (R290, R292, R293, R312) -/

theorem romIndex_eq_spec (img : Image) (b : Nat) (a : Addr) : romIndex img.nBanks b a = romIndexSpec img b a := by
  rw [romIndex, romIndexSpec, toNat_and_lowBits (w := 14) rfl]
  rfl

theorem ramIndex_eq_spec (img : Image) (rb : Nat) (a : Addr) : ramIndex img.ramSize rb a = ramIndexSpec img rb a := by
  rw [ramIndex, ramIndexSpec, img.ramSize_eq_spec, toNat_and_lowBits (w := 13) rfl]
  rfl

theorem lowBankA_eq (m : MbcA) : lowBankA m = if m.mode = 1#1 then m.bank2.toNat <<< 5 else 0 := by
  rw [lowBankA, Nat.shiftLeft_eq]

theorem highBankA_eq (m : MbcA) : highBankA m = (m.bank2.toNat <<< 5) ||| m.bank1.toNat :=
  BitVec.toNat_append m.bank2 m.bank1

theorem highBankD_eq (m : MbcD) : highBankD m = (m.romBankHi.toNat <<< 8) ||| m.romBankLo.toNat :=
  BitVec.toNat_append m.romBankHi m.romBankLo

/-! ## A bank of the image, and the RAM (R290) -/

/-- A bank reduced modulo the bank count lies in the image, so the read answers its byte. -/
theorem readImage_romIndex (s : State) {img : Image} (h : SizeOk img) (b : Nat) (a : Addr) :
    readImage s img (romIndex img.nBanks b a) = .next (s.replying (img.byte (romIndexSpec img b a))) := by
  rw [readImage_of_lt s (romIndex_lt h b a), romIndex_eq_spec]
  rfl

theorem ramLoad_eq_spec (img : Image) (ram : Memory) (enabled : Bool) (bank : Nat) (a : Addr) :
    ramLoad img ram enabled bank a
      = if enabled = false ∨ ramSizeSpec img = 0 then 0xFF else Cells.read ram (ramIndexSpec img bank a) := by
  rw [ramLoad, ramIndex_eq_spec, img.ramSize_eq_spec]

/-- A RAM write, for any wording `opened` of what opens the RAM. -/
theorem ramWritten_ramStore {enabled : Bool} {opened : Prop} (h : opened ↔ enabled = true) (img : Image)
    (ram : Memory) (bank : Nat) (a : Addr) (d : Byte) :
    RamWritten img opened bank a d ram (ramStore img ram enabled bank a d) := by
  have hclosed : (enabled = false ∨ img.ramSize = 0) ↔ ¬ (opened ∧ ramSizeSpec img ≠ 0) := by
    rw [h, img.ramSize_eq_spec, not_and_or, Bool.not_eq_true, not_ne_iff]
  refine ⟨fun hopen => ?_, fun hshut => if_pos (hclosed.mpr hshut)⟩
  rw [ramStore, if_neg (fun hc => hclosed.mp hc hopen), ramIndex_eq_spec]
  exact fun i => Cells.read_write ram _ i d

/-- An enabled RAM of variant C is open unless a clock register is selected (R307). -/
theorem ramOpenC_eq_true_iff (m : MbcC) : ramOpenC m = true ↔ m.ramEnable = true ∧ m.ramSel.toNat ≤ 3 := by
  rw [ramOpenC, Bool.and_eq_true, decide_eq_true_iff]

theorem ramOpenC_eq_false_iff (m : MbcC) : ramOpenC m = false ↔ m.ramEnable = false ∨ 3 < m.ramSel.toNat := by
  rw [ramOpenC, Bool.and_eq_false_iff, decide_eq_false_iff_not, Nat.not_le]

end Sys2Proof.Machine

namespace Sys2Proof.Proofs

open Sys2Proof.Machine

/-- Settles O40: both windows read a bank reduced to the image, and the RAM read is the spec's. -/
theorem variantAReads : Obligations.VariantAReads := by
  intro s img m a hc hp hsize rb
  refine ⟨fun _ => ⟨?_, cartReadWord_eq a⟩, fun _ => ⟨?_, cartReadWord_eq a⟩, fun _ => ⟨?_, cartReadWord_eq a⟩⟩
  · rw [← lowBankA_eq]
    exact (onA_of_cart hp hc _).trans (readImage_romIndex s hsize (lowBankA m) a)
  · rw [← highBankA_eq]
    exact (onA_of_cart hp hc _).trans (readImage_romIndex s hsize (highBankA m) a)
  · rw [exec_cartARdRam a hp hc, ramLoad_eq_spec]
    rfl

/-- Settles O41: each write stores its field, and the RAM write stores at the spec's index. -/
theorem variantAWrites : Obligations.VariantAWrites := by
  intro s img m a d hc hp rb
  refine ⟨fun _ => ⟨onA_of_cart hp hc _, cartWriteWord_eq a d⟩, fun _ => ⟨?_, cartWriteWord_eq a d⟩,
    fun _ => ⟨?_, cartWriteWord_eq a d⟩, fun _ => ⟨?_, cartWriteWord_eq a d⟩,
    fun _ => ⟨_, exec_cartAWrRam a d hp hc, ramWritten_ramStore .rfl img m.ram rb a d, cartWriteWord_eq a d⟩⟩
  · rw [ite_and_lowBits_eq_nonzeroBank (mask := 0x1F#8) (w := 5) rfl]
    exact onA_of_cart hp hc _
  · rw [setWidth_and_lowBits (w := 2) rfl]
    exact onA_of_cart hp hc _
  · rw [setWidth_and_lowBits (w := 1) rfl]
    exact onA_of_cart hp hc _

/-- Settles O42: the low window lies in the image, the high one is reduced to it, and a selected clock register
closes the RAM. -/
theorem variantCReads : Obligations.VariantCReads := by
  intro s img m a hc hp hsize
  refine ⟨fun ha => ⟨?_, cartReadWord_eq a⟩, fun _ => ⟨?_, cartReadWord_eq a⟩, fun _ => ⟨?_, cartReadWord_eq a⟩⟩
  · exact (onC_of_cart hp hc _).trans (readImage_rom s hsize.1 ha (by decide))
  · exact (onC_of_cart hp hc _).trans (readImage_romIndex s hsize m.romBank.toNat a)
  · simp only [exec_cartCRdRam a hp hc, ramLoad_eq_spec, ramOpenC_eq_false_iff, or_assoc]
    rfl

/-- Settles O43: each write stores its field, the latch write none, and the RAM write needs a RAM bank selected. -/
theorem variantCWrites : Obligations.VariantCWrites := by
  intro s img m a d hc hp
  refine ⟨fun _ => ⟨onC_of_cart hp hc _, cartWriteWord_eq a d⟩, fun _ => ⟨?_, cartWriteWord_eq a d⟩,
    fun _ => ⟨?_, cartWriteWord_eq a d⟩, fun _ => ⟨onC_of_cart hp hc _, cartWriteWord_eq a d⟩,
    fun _ => ⟨_, exec_cartCWrRam a d hp hc, ?_, cartWriteWord_eq a d⟩⟩
  · rw [ite_and_lowBits_eq_nonzeroBank (mask := 0x7F#8) (w := 7) rfl]
    exact onC_of_cart hp hc _
  · rw [setWidth_and_nibble]
    exact onC_of_cart hp hc _
  · exact ramWritten_ramStore (ramOpenC_eq_true_iff m).symm img m.ram m.ramSel.toNat a d

/-- Settles O44: the low window lies in the image, and the nine-bit bank of the high one is reduced to it. -/
theorem variantDReads : Obligations.VariantDReads := by
  intro s img m a hc hp hsize
  refine ⟨fun ha => ⟨?_, cartReadWord_eq a⟩, fun _ => ⟨?_, cartReadWord_eq a⟩, fun _ => ⟨?_, cartReadWord_eq a⟩⟩
  · exact (onD_of_cart hp hc _).trans (readImage_rom s hsize.1 ha (by decide))
  · rw [← highBankD_eq]
    exact (onD_of_cart hp hc _).trans (readImage_romIndex s hsize (highBankD m) a)
  · rw [exec_cartDRdRam a hp hc, ramLoad_eq_spec]
    rfl

/-- Settles O45: each write stores its field, 0x6000..0x7FFF none, and the RAM write stores at the spec's index. -/
theorem variantDWrites : Obligations.VariantDWrites := by
  intro s img m a d hc hp
  refine ⟨fun _ => ⟨onD_of_cart hp hc _, cartWriteWord_eq a d⟩,
    fun _ => ⟨onD_of_cart hp hc _, cartWriteWord_eq a d⟩, fun _ => ⟨?_, cartWriteWord_eq a d⟩,
    fun _ => ⟨?_, cartWriteWord_eq a d⟩, fun _ => ⟨onD_of_cart hp hc _, cartWriteWord_eq a d⟩,
    fun _ => ⟨_, exec_cartDWrRam a d hp hc, ramWritten_ramStore .rfl img m.ram m.ramBank.toNat a d,
      cartWriteWord_eq a d⟩⟩
  · rw [setWidth_and_lowBits (w := 1) rfl]
    exact onD_of_cart hp hc _
  · rw [setWidth_and_nibble]
    exact onD_of_cart hp hc _

end Sys2Proof.Proofs
end

section
/-! SUPPORT. Proofs of the statements of 45_orchestrator.md about interrupts and the host: the dispatcher's scan, the
CPU's entry, the enable latch, key reports and the frame's commit (R354 to R363). -/

namespace Sys2Proof.Machine

/-! ## Statements in order -/

theorem inOrder_append (s : State) (l l' : List (State → Result)) :
    inOrder (l ++ l') s = andThen (inOrder l s) (inOrder l') := by
  rw [inOrder, List.foldl_append, foldl_andThen, inOrder]

/-- As what follows, a last statement alone is its list. -/
theorem andThen_inOrder_singleton (o : Result) (f : State → Result) : andThen o (inOrder [f]) = andThen o f :=
  andThen_congr fun _ hs => andThen_of_running hs f

theorem inOrder_pair {s : State} (h : s.halted = false) (f g : State → Result) :
    inOrder [f, g] s = andThen (f s) g := by
  rw [inOrder_eq_andThen h, andThen_inOrder_singleton]

/-! ## The dispatcher's scan (R354) -/

/-- A line's turn: it is offered to the CPU where `request` has its bit. -/
def offerLine (request : State → Byte) (line : Nat) (s : State) : Result :=
  if testBit (request s) line = true then vectorInterrupt line s else .next s

theorem scanLines_cons (request : State → Byte) (line : Nat) (rest : List Nat) (s : State) :
    scanLines request (line :: rest) s = andThen (offerLine request line s) (scanLines request rest) := rfl

/-- The scan is the lines' turns in order. -/
theorem scanLines_eq_inOrder (request : State → Byte) (lines : List Nat) {s : State} (hr : s.halted = false) :
    scanLines request lines s = inOrder (lines.map (offerLine request)) s := by
  induction lines generalizing s with
  | nil => rfl
  | cons line rest ih =>
    rw [scanLines_cons, List.map_cons, inOrder_eq_andThen hr]
    exact andThen_congr fun t ht => ih ht

theorem scanLines_append (request : State → Byte) (lines later : List Nat) {s : State} (hr : s.halted = false) :
    scanLines request (lines ++ later) s = andThen (scanLines request lines s) (scanLines request later) := by
  rw [scanLines_eq_inOrder _ _ hr, List.map_append, inOrder_append, scanLines_eq_inOrder _ _ hr]
  exact andThen_congr fun t ht => (scanLines_eq_inOrder _ _ ht).symm

/-- What a dispatch that starts in `s` reads of `IE` and `IF` at a line's turn (R354, assumption log 30). -/
def State.scanRequest (s : State) : State → Byte :=
  match s.cfg.dispatchRead with
  | .fresh => State.requested
  | .snapshot => fun _ => s.requested

theorem State.scanRequest_fresh {s : State} (h : s.cfg.dispatchRead = .fresh) : s.scanRequest = State.requested := by
  simp only [scanRequest, h]

theorem State.scanRequest_snapshot {s : State} (h : s.cfg.dispatchRead = .snapshot) :
    s.scanRequest = fun _ => s.requested := by
  simp only [scanRequest, h]

/-- At the first turn both readings are the bits as they are. -/
@[simp] theorem State.scanRequest_self (s : State) : s.scanRequest s = s.requested := by
  cases h : s.cfg.dispatchRead with
  | fresh => rw [scanRequest_fresh h]
  | snapshot => rw [scanRequest_snapshot h]

theorem exec_orchDispatch (s : State) : exec .orchDispatch s
    = andThen (scanLines s.scanRequest scanOrder s) (fun t => .next t.updateDeferredEnableFlag) := rfl

/-- A dispatch is the five turns and the latch's update in order. -/
theorem exec_orchDispatch_eq_inOrder {s : State} (hr : s.halted = false) : exec .orchDispatch s
    = inOrder ([0, 1, 2, 3, 4].map (offerLine s.scanRequest) ++ [fun u => .next u.updateDeferredEnableFlag]) s := by
  rw [exec_orchDispatch, scanLines_eq_inOrder _ _ hr, inOrder_append, andThen_inOrder_singleton]
  rfl

/-- A line is requested where its bits of `IE` and `IF` are both set. -/
theorem testBit_requested (s : State) (line : Nat) : testBit s.requested line = true ↔
    testBit (s.io .ie) line = true ∧ testBit (s.io .iflag) line = true := by
  rw [testBit, State.requested, BitVec.getLsbD_and, Bool.and_eq_true]
  rfl

theorem offerLine_eq {request : State → Byte} {p : State → State} (h : request = fun u => (p u).requested) :
    offerLine request = fun line u =>
      if testBit ((p u).io .ie) line = true ∧ testBit ((p u).io .iflag) line = true then vectorInterrupt line u
      else .next u := by
  subst h
  funext line u
  exact if_congr (testBit_requested (p u) line) rfl rfl

/-! ## Taking an interrupt (R357, R359, R411) -/

/-- `s` once the CPU has taken `line` and before it pushes: the master enable and the line's bit of `IF` are
clear, and `rest` and `inner` are what the answer leaves scripted and in the CPU. -/
def State.entered (s : State) (line : Nat) (rest : List EntryAct) (inner : Nat) : State :=
  { s.withRegs { s.surface.regs with iflag := clearBit s.surface.regs.iflag line }
    with ext := { s.ext with enable := { s.ext.enable with active := false },
                             cpu := { s.ext.cpu with inner := inner }, entry := rest } }

@[simp] theorem halted_entered (s : State) (line : Nat) (rest : List EntryAct) (inner : Nat) :
    (s.entered line rest inner).halted = s.halted := rfl

section
variable {s : State} {line : Nat}

theorem vectorInterrupt_of_inactive (h : s.ext.enable.active = false) : vectorInterrupt line s = .next s :=
  if_neg (by simp [h])

/-- The entry, and then the CPU's pushes (R411). -/
theorem vectorInterrupt_of_active (h : s.ext.enable.active = true) {a : EntryAct} {rest : List EntryAct} {inner : Nat}
    (ha : s.entryAnswer line = (a, rest, inner)) :
    vectorInterrupt line s = busAccesses (a.writes.map (fun w => .write w.1 w.2)) (s.entered line rest inner) := by
  unfold vectorInterrupt
  rw [if_pos h, ha]
  rfl

theorem State.entryAnswer_of_scripted {a : EntryAct} {rest : List EntryAct} (h : s.ext.entry = a :: rest) :
    s.entryAnswer line = (a, rest, s.ext.cpu.inner) := by
  simp only [entryAnswer, h]

theorem State.entryAnswer_of_free (h : s.ext.entry = []) : s.entryAnswer line
    = ((Config.cpuEntry s.ext.cpu.inner line).1, [], (Config.cpuEntry s.ext.cpu.inner line).2) := by
  simp only [entryAnswer, h]

/-! ## What a scan takes (R354, R355, R410) -/

/-- Nothing is taken while the latch is inactive, and nothing that is not requested. -/
theorem scanLines_of_idle {request : State → Byte} {lines : List Nat} (hr : s.halted = false)
    (h : s.ext.enable.active = false ∨ ∀ l ∈ lines, testBit (request s) l ≠ true) :
    scanLines request lines s = .next s := by
  induction lines with
  | nil => rfl
  | cons l rest ih =>
    have hturn : offerLine request l s = .next s := by
      unfold offerLine
      split
      next hl =>
        obtain h | h := h
        · exact vectorInterrupt_of_inactive h
        · exact absurd hl (h l List.mem_cons_self)
      next => rfl
    rw [scanLines_cons, hturn, andThen_of_running hr]
    exact ih (h.imp_right fun h l hl => h l (List.mem_cons_of_mem _ hl))

/-- The scan's lines below `line`, `line` itself, and the lines after it. -/
theorem scanOrder_split : ∀ line ≤ 4, scanOrder = List.range line ++ line :: scanOrder.drop (line + 1) := by decide

/-- A scan takes the first line requested; where that leaves the latch inactive, it takes no other. -/
theorem scanLines_takes_lowest {request : State → Byte} {t : State} (hr : s.halted = false) (hline : line ≤ 4)
    (hreq : testBit (request s) line = true) (hbelow : ∀ l < line, testBit (request s) l ≠ true)
    (htake : vectorInterrupt line s = .next t) (htr : t.halted = false) (hoff : t.ext.enable.active = false) :
    scanLines request scanOrder s = .next t := by
  have hbefore : scanLines request (List.range line) s = .next s :=
    scanLines_of_idle hr (.inr fun l hl => hbelow l (List.mem_range.mp hl))
  have hturn : offerLine request line s = .next t := (if_pos hreq).trans htake
  rw [scanOrder_split line hline, scanLines_append _ _ _ hr, hbefore, andThen_of_running hr, scanLines_cons, hturn,
    andThen_of_running htr]
  exact scanLines_of_idle htr (.inl hoff)

end

/-! ## The latch's update (R357) -/

theorem updateDeferredEnableFlag_eq (s : State) : s.updateDeferredEnableFlag
    = { s with ext := { s.ext with enable :=
          if s.ext.enable.pending = true then { pending := false, active := true } else s.ext.enable } } := rfl

/-- After an entry the update makes the latch active exactly where an enable was pending (assumption log 32). -/
theorem EnableLatch.update_inactive (p : Bool) :
    EnableLatch.update { pending := p, active := false } = { pending := false, active := p } := by
  cases p <;> rfl

/-! ## Inputs that are no words (R361) -/

theorem serve_key {s : State} {k : Nat} {p : Bool} {rest : List Input} (h : s.port.inbox = .key k p :: rest) :
    serve s = .next (s.took.reportKey k p) := by
  simp only [serve, h]

theorem serve_idle {s : State} (h : s.port.inbox = []) : serve s = .next s := by
  simp only [serve, h]

/-! ## The frame's commit (R48, R362, R363) -/

theorem exec_hostCommit {s : State} (h : s.cart ≠ none) :
    exec .hostCommit s = .next (s.commitFrame.setFrameReady false) := by
  obtain ⟨c, hc⟩ := Option.ne_none_iff_exists'.mp h
  show execHostCommit s = _
  simp only [execHostCommit, hc]

theorem exec_hostCommit_of_none {s : State} (h : s.cart = none) :
    exec .hostCommit s = .next (s.refusedBy .noCartridge) := by
  show execHostCommit s = _
  simp only [execHostCommit, h]
  rfl

/-- The colour of a shade is its place in the list of the four. -/
theorem colors_getElem? (p : OutputColors) (v : Shade) :
    [p.white, p.lightGray, p.darkGray, p.black][v.toNat]? = some (shadeColor p v) := by
  have hv := v.isLt
  unfold shadeColor
  generalize v.toNat = n at hv
  interval_cases n <;> rfl

/-- A presented frame shows each cell of the frame buffer in its shade's colour. -/
theorem color?_shown (s : State) (p : OutputColors) (x y : Nat) :
    ({ shades := s.fb, colors := p } : Shown).color? x y = (s.pixel? x y).map (shadeColor p) := by
  unfold Shown.color? State.pixel?
  cases s.fb[y]? <;> rfl

end Sys2Proof.Machine

namespace Sys2Proof.Proofs

open Sys2Proof.Machine

/-- Settles O47: the dispatch is its turns in order, and a turn's request is the bits of both registers. -/
theorem dispatchScan : Obligations.DispatchScan := by
  intro s hr
  have hexec := exec_orchDispatch_eq_inOrder ((running_iff s).mp hr)
  refine ⟨fun h => ?_, fun h => ?_, by decide, fun c hc => ?_⟩
  · rw [hexec, offerLine_eq (p := id) (State.scanRequest_fresh h)]
    rfl
  · rw [hexec, offerLine_eq (p := fun _ => s) (State.scanRequest_snapshot h)]
  · exact (decode_internal (i := .orchDispatch) rfl c).trans (if_neg (by simp [hc]))

/-- Settles O49: the lowest requested line is taken, which leaves the latch inactive for the lines after it. -/
theorem dispatchTakesLowestLine : Obligations.DispatchTakesLowestLine := by
  intro s line rest hr hline hactive hie hif hlowest hentry
  have hrun := (running_iff s).mp hr
  have htake : vectorInterrupt line s = .next (s.entered line rest s.ext.cpu.inner) :=
    vectorInterrupt_of_active hactive (State.entryAnswer_of_scripted hentry)
  have hscan := scanLines_takes_lowest (request := s.scanRequest) hrun hline
    (by rw [State.scanRequest_self]; exact (testBit_requested s line).mpr ⟨hie, hif⟩)
    (fun l hl => by rw [State.scanRequest_self, ne_eq, testBit_requested]; exact hlowest l hl) htake hrun rfl
  rw [exec_orchDispatch, hscan, andThen_of_running ((halted_entered ..).trans hrun), ← EnableLatch.update_inactive]
  rfl

/-- Settles O50: an idle scan takes nothing, and on a ready bus every dispatch completes in its footprint. -/
theorem dispatchCompletes : Obligations.DispatchCompletes := by
  intro s hr
  have hrun := (running_iff s).mp hr
  refine ⟨fun hidle => ?_, fun hready => ?_⟩
  · have hlines : ∀ l ∈ scanOrder, l ≤ 4 := by decide
    have hscan : scanLines s.scanRequest scanOrder s = .next s := scanLines_of_idle hrun <|
      hidle.imp_right fun h l hl => by
        rw [State.scanRequest_self, ne_eq, testBit_requested]
        exact h l (hlines l hl)
    rw [exec_orchDispatch, hscan, andThen_of_running hrun, updateDeferredEnableFlag_eq]
  · obtain ⟨t, ht, hmarks⟩ := dispatch_completes s hrun hready
    have hquiet := dispatch_quiet s t ht
    exact ⟨t, ht, (running_iff t).mpr ((halted_of_marks hmarks).trans hrun), hquiet.untouched,
      hready.of_core hquiet.toCoreFrame⟩

/-- Settles O12: a step of a running machine serves its first input. -/
theorem keyReportsAndIdle : Obligations.KeyReportsAndIdle := by
  refine fun s hr => ⟨fun k p rest hin => ?_, fun hin => ?_⟩
  · rw [step_of_running hr, serve_key hin, State.took_of_inbox hin]
    rfl
  · rw [step_of_running hr, serve_idle hin]

/-- Settles O48: the entry's own writes, and then the pushes of a scripted or a free answer. -/
theorem interruptEntry : Obligations.InterruptEntry := by
  refine fun s line _ => ⟨vectorInterrupt_of_inactive, fun hactive a rest hentry => ?_, fun hactive hentry => ?_,
    updateDeferredEnableFlag_eq s⟩
  · exact vectorInterrupt_of_active hactive (State.entryAnswer_of_scripted hentry)
  · rw [vectorInterrupt_of_active hactive (State.entryAnswer_of_free hentry), ← hentry]
    rfl

/-- Settles O55: the commit's two updates, and the colours in the list's order. -/
theorem hostCommit : Obligations.HostCommit := by
  refine ⟨fun s => ⟨exec_hostCommit, exec_hostCommit_of_none⟩, fun s p x y => ?_, by decide⟩
  rw [color?_shown, Option.map_eq_bind]
  exact congrArg (s.pixel? x y).bind (funext fun v => (colors_getElem? p v).symm)

end Sys2Proof.Proofs
end

section
/-! SUPPORT. Proofs of the statements of 45_orchestrator.md about the collaborators: the CPU's step, the timer's and
the latch's phases, and what each of them can write (R358 to R364). -/

namespace Sys2Proof.Machine

/-! ## A collaborator's answer (R51) -/

section
variable {α : Type} {q : Answers α} {free : α × Nat}

theorem Answers.next_of_scripted {act : α} {rest : List α} (h : q.scripted = act :: rest) :
    q.next free = (act, { q with scripted := rest }) := by
  simp only [next, h]

theorem Answers.next_of_free (h : q.scripted = []) : q.next free = (free.1, { scripted := [], inner := free.2 }) := by
  simp only [next, h]

end

/-! ## Requests (R14) -/

/-- A conditional request raises its own bit of `IF` and clears none. -/
theorem testBit_iflag_requestIf (s : State) (c : Bool) {line : Nat} (hl : line < 8) (k : Nat) :
    testBit ((s.requestIf c line).io .iflag) k = (testBit (s.io .iflag) k || (c && decide (k = line))) := by
  cases c with
  | false => simp [State.requestIf]
  | true => simpa [State.requestIf] using testBit_iflag_requestInterrupt s hl k

theorem memRead_requestIf (s : State) (c : Bool) (line a : Nat) : (s.requestIf c line).memRead a
    = if a = Reg.iflag.addr then (if c = true then setBit (s.io .iflag) line else s.io .iflag) else s.memRead a := by
  have hwrite : s.requestInterrupt line = s.memWrite Reg.iflag.addr (setBit (s.io .iflag) line) := rfl
  cases c with
  | false =>
    show s.memRead a = _
    split
    next h => rw [h, s.memRead_addr]; rfl
    next => rfl
  | true =>
    show (s.requestInterrupt line).memRead a = _
    rw [hwrite, State.memRead_memWrite]
    rfl

/-! ## Phase (b): the timer (R360, R364) -/

theorem io_timerWrites (l : List (Addr × Byte)) (s : State) (r : Reg) : (timerWrites l s).io r = s.io r := by
  rw [timerWrites_eq]
  rfl

/-- The registers of the timer are the plain-storage I/O bytes. -/
theorem memRead_timerWrites_of_not_plainIo (l : List (Addr × Byte)) (s : State) {a : Nat} (ha : plainIo a = false) :
    (timerWrites l s).memRead a = s.memRead a := by
  induction l generalizing s with
  | nil => rfl
  | cons w l ih =>
    obtain ⟨b, v⟩ := w
    show (timerWrites l _).memRead a = _
    rw [ih]
    split
    next hb =>
      have hne : a ≠ b.toNat := by
        rintro rfl
        rw [hb] at ha
        cases ha
      rw [State.memRead_memWrite, if_neg hne]
    next => rfl

/-- Every timer phase has an answer. -/
theorem exists_timerAnswer (c : Nat) (s : State) : ∃ act q,
    s.ext.timer.next (Config.timerAdvance s.ext.timer.inner c s.surface) = (act, q) := ⟨_, _, rfl⟩

section
variable {c : Nat} {s : State} {act : TimerAct} {q : Answers TimerAct}
  (h : s.ext.timer.next (Config.timerAdvance s.ext.timer.inner c s.surface) = (act, q))
include h

theorem timerPhase_of_answer : timerPhase c s
    = (timerWrites act.writes { s with ext := { s.ext with timer := q } }).requestIf act.request timerLine := by
  unfold timerPhase
  rw [h]

theorem timer_timerPhase : (timerPhase c s).ext.timer = q := by
  rw [timerPhase_of_answer h, State.ext_requestIf, timerWrites_eq]

theorem memRead_timerPhase (a : Addr) : (timerPhase c s).memRead a.toNat =
    if a = 0xFF0F#16 then (if act.request = true then setBit (s.io .iflag) timerLine else s.io .iflag)
    else if plainIo a.toNat = true then
      (((act.writes.filter (fun w => w.1 == a)).getLast?).map (fun w => w.2)).getD (s.memRead a.toNat)
    else s.memRead a.toNat := by
  have haddr : a.toNat = Reg.iflag.addr ↔ a = 0xFF0F#16 :=
    ⟨fun e => BitVec.eq_of_toNat_eq e, fun e => congrArg BitVec.toNat e⟩
  rw [timerPhase_of_answer h, memRead_requestIf, io_timerWrites, memRead_timerWrites]
  exact if_congr haddr rfl rfl

theorem testBit_iflag_timerPhase (k : Nat) : testBit ((timerPhase c s).io .iflag) k
    = (testBit (s.io .iflag) k || (act.request && decide (k = timerLine))) := by
  rw [timerPhase_of_answer h, testBit_iflag_requestIf _ _ (by decide), io_timerWrites]
  rfl

end

/-- The phase changes the surface and the timer. -/
theorem timerPhase_frame (c : Nat) (s : State) : timerPhase c s
    = { s with surface := (timerPhase c s).surface, ext := { s.ext with timer := (timerPhase c s).ext.timer } } := by
  obtain ⟨act, q, h⟩ := exists_timerAnswer c s
  rw [timer_timerPhase h, timerPhase_of_answer h, timerWrites_eq]
  cases act.request <;> rfl

/-- Of the registers of R31 the timer reaches `IF` only. -/
theorem io_timerPhase (c : Nat) (s : State) {r : Reg} (hr : r ≠ .iflag) : (timerPhase c s).io r = s.io r := by
  obtain ⟨act, q, h⟩ := exists_timerAnswer c s
  rw [timerPhase_of_answer h, State.io_requestIf, if_neg (fun e => hr e.1), io_timerWrites]
  rfl

/-- Outside the I/O range the timer changes no byte. -/
theorem memRead_timerPhase_outside (c : Nat) (s : State) {a : Nat} (ha : a < 0xFF00 ∨ 0xFF7F < a) :
    (timerPhase c s).memRead a = s.memRead a := by
  obtain ⟨act, q, h⟩ := exists_timerAnswer c s
  have hne : a ≠ Reg.iflag.addr := by
    show a ≠ 0xFF0F
    omega
  have hplain : plainIo a = false := by
    have hrange : ¬ (0xFF00 ≤ a ∧ a ≤ 0xFF7F) := by omega
    simp [plainIo, hrange]
  rw [timerPhase_of_answer h, memRead_requestIf, if_neg hne, memRead_timerWrites_of_not_plainIo _ _ hplain]
  rfl

/-! ## Phase (d): the input latch (R361, R364) -/

/-- The whole next state. -/
theorem latchPhase_of_answer {s : State} {act : LatchAct} {q : Answers LatchAct}
    (h : s.ext.latch.next (Config.latchAdvance s.ext.latch.inner s.ext.keys s.surface) = (act, q)) :
    latchPhase s = { s.withRegs { s.surface.regs with
        joyp := act.joyp.getD s.surface.regs.joyp
        iflag := if act.request = true then setBit s.surface.regs.iflag joypadLine else s.surface.regs.iflag }
      with ext := { s.ext with latch := q, keys := [] } } := by
  unfold latchPhase
  rw [h]
  obtain ⟨joyp, request⟩ := act
  cases joyp <;> cases request <;> rfl

/-- Every phase (d) has an answer. -/
theorem exists_latchAnswer (s : State) : ∃ act q,
    s.ext.latch.next (Config.latchAdvance s.ext.latch.inner s.ext.keys s.surface) = (act, q) := ⟨_, _, rfl⟩

/-- Of the registers of R31 the latch reaches `IF` and `JOYP` only. -/
theorem io_latchPhase (s : State) {r : Reg} (hiflag : r ≠ .iflag) (hjoyp : r ≠ .joyp) :
    (latchPhase s).io r = s.io r := by
  obtain ⟨act, q, h⟩ := exists_latchAnswer s
  rw [latchPhase_of_answer h]
  cases r with
  | iflag => exact absurd rfl hiflag
  | joyp => exact absurd rfl hjoyp
  | _ => rfl

theorem testBit_iflag_latchPhase {s : State} {act : LatchAct} {q : Answers LatchAct}
    (h : s.ext.latch.next (Config.latchAdvance s.ext.latch.inner s.ext.keys s.surface) = (act, q)) (k : Nat) :
    testBit ((latchPhase s).io .iflag) k
      = (testBit (s.io .iflag) k || (act.request && decide (k = joypadLine))) := by
  rw [← testBit_iflag_requestIf s _ (by decide), latchPhase_of_answer h]
  cases act.request <;> rfl

/-! ## Phase (a): the CPU (R358) -/

theorem cpuPhase_of_scripted {s : State} (hr : s.halted = false) {act : CpuAct} {rest : List CpuAct}
    (h : s.ext.cpu.scripted = act :: rest) : cpuPhase s
      = inOrder (act.accesses.map busAccess ++ [fun u => .next (u.cpuReturns
          { cyclesLess1 := act.cyclesLess1, enable := act.enable, inner := s.ext.cpu.inner })])
        { s with ext := { s.ext with cpu := { s.ext.cpu with scripted := rest } } } := by
  have hplan : s.cpuPlan = act.plan s.ext.cpu.inner := by simp only [State.cpuPlan, h]
  have htook : s.tookCpuStep = { s with ext := { s.ext with cpu := { s.ext.cpu with scripted := rest } } } := by
    simp only [State.tookCpuStep, h, List.tail_cons]
  rw [cpuPhase, hplan, htook]
  exact runPlan_after _ _ _ hr

theorem cpuPhase_of_free {s : State} (h : s.ext.cpu.scripted = []) :
    cpuPhase s = runPlan (Config.cpuStep s.ext.cpu.inner s.ext.enable) s := by
  have hplan : s.cpuPlan = Config.cpuStep s.ext.cpu.inner s.ext.enable := by simp only [State.cpuPlan, h]
  have htook : s.tookCpuStep = s := by
    simp only [State.tookCpuStep, h, List.tail_nil]
    rw [← h]
  rw [cpuPhase, hplan, htook]

theorem runPlan_write {s : State} (hr : s.halted = false) (a : Addr) (d : Byte) (rest : CpuPlan) :
    runPlan (.write a d rest) s = inOrder [busAccess (.write a d), runPlan rest] s :=
  (inOrder_pair hr _ _).symm

theorem runPlan_read {s : State} (hr : s.halted = false) (a : Addr) (rest : Option Byte → CpuPlan) :
    runPlan (.read a rest) s = inOrder [busAccess (.read a), runPlan (rest (busByte a s))] s :=
  (inOrder_pair hr _ _).symm

end Sys2Proof.Machine

namespace Sys2Proof.Proofs

open Sys2Proof.Machine

/-- Settles O59: the writes and then the request, for whichever answer the timer gives. -/
theorem timerPhase : Obligations.TimerPhase := by
  refine fun c s => ⟨fun act rest hscript => ?_, fun hscript => ?_⟩
  · have hanswer := Answers.next_of_scripted (free := Config.timerAdvance s.ext.timer.inner c s.surface) hscript
    exact ⟨⟨memRead_timerPhase hanswer, timerPhase_frame c s⟩, timer_timerPhase hanswer⟩
  · have hanswer := Answers.next_of_free (free := Config.timerAdvance s.ext.timer.inner c s.surface) hscript
    exact ⟨⟨memRead_timerPhase hanswer, timerPhase_frame c s⟩, timer_timerPhase hanswer⟩

/-- Settles O60: the latch's whole next state, for whichever answer it gives. -/
theorem latchPhase : Obligations.LatchPhase :=
  fun _ => ⟨fun _ _ h => latchPhase_of_answer (Answers.next_of_scripted h),
    fun h => latchPhase_of_answer (Answers.next_of_free h)⟩

/-- Settles O58: a plan runs access by access, and its end is the CPU's return. -/
theorem cpuStepPhase : Obligations.CpuStepPhase := by
  refine ⟨fun s hr => ?_, fun s d => ?_⟩
  · have hrun := (running_iff s).mp hr
    exact ⟨fun act rest h => cpuPhase_of_scripted hrun h, cpuPhase_of_free, runPlan_write hrun, runPlan_read hrun⟩
  · obtain ⟨_, effect, _⟩ := d
    cases effect <;> rfl

/-- Settles O56: the timer's and the latch's next states by what their answers write, and the footprint of the
bus. -/
theorem collaboratorFootprints : Obligations.CollaboratorFootprints := by
  refine ⟨fun c s => ?_, fun s => ?_, fun l s t h => ?_⟩
  · obtain ⟨act, q, hanswer⟩ := exists_timerAnswer c s
    have hiflag := testBit_iflag_timerPhase hanswer
    refine ⟨timerPhase_frame c s, fun r => io_timerPhase c s, fun k hk => ?_, fun hset => ?_,
      fun a => memRead_timerPhase_outside c s⟩
    · rw [hiflag]
      simp [timerLine, hk]
    · rw [hiflag, hset, Bool.true_or]
  · obtain ⟨act, q, hanswer⟩ := exists_latchAnswer s
    have hiflag := testBit_iflag_latchPhase hanswer
    refine ⟨?_, ?_, fun r => io_latchPhase s, fun k hk => ?_, fun hset => ?_⟩
    · rw [latchPhase_of_answer hanswer]
      rfl
    · rw [latchPhase_of_answer hanswer]
      rfl
    · rw [hiflag]
      simp [joypadLine, hk]
    · rw [hiflag, hset, Bool.true_or]
  · have f := busAccesses_frame l s t h
    exact ⟨f.quiet.untouched, f.quiet.tick.sameCartridge, f.orch, f.ext, f.cfg⟩

end Sys2Proof.Proofs
end

section
/-! SUPPORT. Proof of the statement of 45_orchestrator.md about the CPU's bus: an access does what its word of format E
or C does, its faults and refusals included (R87, R92, R120, R252, R358, R403). -/

namespace Sys2Proof.Machine

/-! ## Where an access goes (R87) -/

theorem busTarget_of_surface {a : Addr} (h : a.surfaceRange = true) : busTarget a = .surface :=
  if_pos ((routedSurface_eq_surfaceRange a).trans h)

theorem routedCart_iff (a : Addr) :
    routedCart a = true ↔ a.toNat ≤ 0x7FFF ∨ 0xA000 ≤ a.toNat ∧ a.toNat ≤ 0xBFFF := decide_eq_true_iff

/-- No address is of both spaces (R80). -/
theorem routedSurface_of_cart {a : Addr} (h : routedCart a = true) : routedSurface a = false := by
  rw [routedCart_iff] at h
  rw [routedSurface, decide_eq_false_iff_not]
  omega

theorem busTarget_of_cart {a : Addr} (h : routedCart a = true) : busTarget a = .cartridge := by
  rw [busTarget, routedSurface_of_cart h]
  exact if_pos h

theorem busTarget_of_outside {a : Addr} (hs : a.surfaceRange = false) (hc : routedCart a ≠ true) :
    busTarget a = .outside := by
  rw [busTarget, routedSurface_eq_surfaceRange, hs]
  exact if_neg hc

theorem accessWord?_read_surface {a : Addr} (h : a.surfaceRange = true) :
    accessWord? (.read a) = some (envReadWord a) := by
  simp only [accessWord?, busTarget_of_surface h]

theorem accessWord?_write_surface {a : Addr} (h : a.surfaceRange = true) (d : Byte) :
    accessWord? (.write a d) = some (envWriteWord a d) := by
  simp only [accessWord?, busTarget_of_surface h]

theorem accessWord?_read_cart {a : Addr} (h : routedCart a = true) : accessWord? (.read a) = some (crdText a) := by
  simp only [accessWord?, busTarget_of_cart h, cartReadWord_eq]
  rfl

theorem accessWord?_write_cart {a : Addr} (h : routedCart a = true) (d : Byte) :
    accessWord? (.write a d) = some (cwrText a d) := by
  simp only [accessWord?, busTarget_of_cart h, cartWriteWord_eq]
  rfl

/-! ## The interface's reply (assumption log 10) -/

/-- Where an operation left the reply alone, keeping it changes nothing. -/
theorem keepingReply_of_reply {s : State} {o : Result} (h : InFrame (fun s t => t.port.reply = s.port.reply) s o) :
    keepingReply s o = o := by
  cases o with
  | next t =>
    show Host.Outcome.next (t.keepReply s) = _
    rw [State.keepReply, ← h t rfl]
  | fault _ => rfl
  | refused _ => rfl

/-- A surface write leaves the reply alone. -/
theorem reply_envWrite (s : State) {a : Addr} (h : a.surfaceRange = true) (d : Byte) :
    InFrame (fun s t => t.port.reply = s.port.reply) s (exec
      (if a = 0xFF41#16 then .envWrStat d else if a = 0xFF44#16 then .envWrLy d else .envWr a d) s) := by
  split
  · exact in_next rfl
  · split
    · exact in_next rfl
    · rw [exec_envWr s d h]
      exact in_next (by rw [State.port_memWrite])

/-- A cartridge write leaves the reply alone. -/
theorem reply_cartWrite (s : State) {v : Variant} {a : Addr} {d : Byte} {i : Instr} (h : selectWrite v a d = some i) :
    InFrame (fun s t => t.port.reply = s.port.reply) s (exec i s) := by
  have refuse : ∀ r, (s.refuse r).port.reply = s.port.reply := fun _ => rfl
  unfold selectWrite at h
  cases v with
  | fixed => split_ifs at h <;> cases h <;> exact in_onFixed refuse fun _ => in_next rfl
  | a => split_ifs at h <;> cases h <;> exact in_onA refuse fun _ _ => in_next rfl
  | b => split_ifs at h <;> cases h <;> exact in_onB refuse fun _ _ => in_next rfl
  | c => split_ifs at h <;> cases h <;> exact in_onC refuse fun _ _ => in_next rfl
  | d => split_ifs at h <;> cases h <;> exact in_onD refuse fun _ _ => in_next rfl

/-! ## Accesses of the surface (R141 to R144) -/

section
variable (s : State) {a : Addr} (h : a.surfaceRange = true)
include h

theorem busAccess_read_surface : busAccess (.read a) s = .next s := by
  have hrouted : routedSurface a = true := (routedSurface_eq_surfaceRange a).trans h
  rw [busAccess_of_ok (accessWord?_read_surface h) (decode_envReadWord _ a hrouted),
    busExec_eq_exec _ s (.inr (.inl ⟨a, rfl⟩)), exec_envRd s h]
  rfl

theorem busAccess_write_surface (d : Byte) : busAccess (.write a d) s = exec
    (if a = 0xFF41#16 then .envWrStat d else if a = 0xFF44#16 then .envWrLy d else .envWr a d) s := by
  have hrouted : routedSurface a = true := (routedSurface_eq_surfaceRange a).trans h
  have hbus := busAccess_of_ok (s := s) (accessWord?_write_surface h d) (decode_envWriteWord _ a d hrouted)
  rw [busExec_eq_exec] at hbus
  · exact hbus.trans (keepingReply_of_reply (reply_envWrite s h d))
  · split_ifs <;> simp

end

/-! ## Accesses of the cartridge (R92, R120) -/

theorem unitOf_crdText (a : Addr) : unitOf (crdText a) = 2 := by
  rw [crdText, ← cartReadWord_eq]
  exact unitOf_wordAD _ _ _ _

theorem unitOf_cwrText (a : Addr) (d : Byte) : unitOf (cwrText a d) = 2 := by
  rw [cwrText, ← cartWriteWord_eq]
  exact unitOf_wordAD _ _ _ _

theorem decode_of_cartUnit {c : Context} {w : Word} (hu : unitOf w = 2) : decode c w = decodeCart c w := by
  simp only [decode, hu]

/-- `w` is the word of format C that the CPU's `access` becomes. -/
structure CartAccess (access : Access) (w : Word) : Prop where
  word : accessWord? access = some w
  unit : unitOf w = 2

theorem CartAccess.read {a : Addr} (h : routedCart a = true) : CartAccess (.read a) (crdText a) :=
  ⟨accessWord?_read_cart h, unitOf_crdText a⟩

theorem CartAccess.write {a : Addr} (h : routedCart a = true) (d : Byte) : CartAccess (.write a d) (cwrText a d) :=
  ⟨accessWord?_write_cart h d, unitOf_cwrText a d⟩

section
variable {s : State} {access : Access} {w : Word} {i : Instr}

/-- What a word of format C decodes to does on the bus what it does as a word presented, and answers. -/
theorem busExec_of_cartWord (hu : unitOf w = 2) (hd : decode (s.context false) w = .ok i) :
    busExec i s = exec i s ∧ ∃ t, exec i s = .next t := by
  rw [decode_of_cartUnit hu] at hd
  have hexec : busExec i s = exec i s := by
    obtain ⟨-, -, v, -, -, hsel⟩ := decodeCart_ok hd
    refine busExec_eq_exec i s (.inl ?_)
    split_ifs at hsel
    · rw [(selectRead_wf hsel).2.1]
      exact Option.some_ne_none v
    · rw [(selectWrite_wf hsel).2.1]
      exact Option.some_ne_none v
  exact ⟨hexec, hexec ▸ decodeCart_answers hd⟩

theorem CartAccess.busAccess_of_ok (h : CartAccess access w) (hd : decode (s.context false) w = .ok i) :
    busAccess access s = keepingReply s (exec i s) := by
  rw [Machine.busAccess_of_ok h.word hd, (busExec_of_cartWord h.unit hd).1]

/-- The decoded operation, its marks included, with the interface's reply kept. -/
theorem CartAccess.runs (h : CartAccess access w) (hd : decode (s.context false) w = .ok i) :
    ∃ t, exec i s = .next t ∧ busAccess access s = .next (t.keepReply s) := by
  obtain ⟨-, t, ht⟩ := busExec_of_cartWord h.unit hd
  exact ⟨t, ht, by rw [h.busAccess_of_ok hd, ht]; rfl⟩

end

section
variable {s : State} {a : Addr} (h : routedCart a = true)
include h

/-- A read gives the CPU the byte its word returns, and none where it sets a mark. -/
theorem busByte_of_cart_ok {i : Instr} {t : State} (hd : decode (s.context false) (crdText a) = .ok i)
    (ht : exec i s = .next t) : busByte a s = if t.marks = s.marks then t.port.reply else none := by
  have hexec := (busExec_of_cartWord (unitOf_crdText a) hd).1
  simp only [busByte, accessWord?_read_cart h, busWord, hd, hexec, ht]

theorem busByte_of_cart_error {r : RefusalReason} (hd : decode (s.context false) (crdText a) = .error r)
    (hr : s.Running) : busByte a s = none := by
  have hmark : ¬ (s.refuse r).marks = s.marks := fun e => by
    have hrefusal := congrArg Marks.refusal e
    rw [State.refusal_refuse, hr.2] at hrefusal
    cases hrefusal
  simp only [busByte, accessWord?_read_cart h, busWord, hd, if_neg hmark]

/-! ### Refusals (R120) -/

theorem decode_cartWords_of_none {c : Context} (hv : c.variant = none) (d : Byte) :
    decode c (crdText a) = .error .noCartridge ∧ decode c (cwrText a d) = .error .noCartridge := by
  rw [crdText, ← cartReadWord_eq, cwrText, ← cartWriteWord_eq]
  constructor
  · simp [decode, cartReadWord, decodeCart, h, hv]
  · simp [decode, cartWriteWord, decodeCart, h, hv]

theorem decode_cartWords_of_unspecified {c : Context} {v : Variant} (hv : c.variant = some v)
    (hg : v.governedByAcdModel = true) (hacd : c.acd = .unspecified) (d : Byte) :
    decode c (crdText a) = .error .unspecifiedVariant ∧ decode c (cwrText a d) = .error .unspecifiedVariant := by
  rw [crdText, ← cartReadWord_eq, cwrText, ← cartWriteWord_eq]
  constructor
  · simp [decode, cartReadWord, decodeCart, h, hv, hg, hacd]
  · simp [decode, cartWriteWord, decodeCart, h, hv, hg, hacd]

/-- Where both words of an address are refused, so are both accesses. -/
theorem busAccess_of_cart_errors {d : Byte} {r : RefusalReason}
    (hd : decode (s.context false) (crdText a) = .error r ∧ decode (s.context false) (cwrText a d) = .error r) :
    busAccess (.read a) s = .next (s.refusedBy r) ∧ busAccess (.write a d) s = .next (s.refusedBy r) :=
  ⟨busAccess_of_error (accessWord?_read_cart h) hd.1, busAccess_of_error (accessWord?_write_cart h d) hd.2⟩

end

/-! ### Variant B beyond its image (R252, R403) -/

theorem selectRead_b_romx {a : Addr} (ha : a.within 0x4000 0x7FFF = true) :
    selectRead .b a = some (.cartBRdRomx a) := by
  obtain ⟨hlo, hhi⟩ := Addr.within_iff.mp ha
  have hrom0 : ¬ a.toNat ≤ 0x3FFF := by omega
  unfold selectRead
  rw [if_neg hrom0, if_pos hhi]

theorem busAccess_beyond_image {s : State} {img : Image} {m : MbcB} {a : Addr}
    (hc : s.cart = some { img := img, mbc := .b m }) (ha : a.within 0x4000 0x7FFF = true)
    (hge : img.size ≤ romIndexB m.romBank a) :
    busAccess (.read a) s = .next (s.faulted (.outOfRangeIndex (romIndexB m.romBank a))) := by
  have hrouted : routedCart a = true := (routedCart_iff a).mpr (.inl (Addr.within_iff.mp ha).2)
  have hv : (s.context false).variant = some .b := by simp [State.context, hc, Mbc.variant]
  obtain ⟨i, hi, hd⟩ := decode_cartReadWord (s.context false) a .b hrouted hv (fun e => by cases e)
  cases (selectRead_b_romx ha).symm.trans hi
  rw [cartReadWord_eq] at hd
  have hexec : exec (.cartBRdRomx a) s = readImage s img (romIndexB m.romBank a) := onB_of_cart hc _
  rw [(CartAccess.read hrouted).busAccess_of_ok hd, hexec, readImage_of_ge s hge]
  rfl

/-! ### A bus whose reads cannot fault (R92, R252, R358) -/

/-- On a ready bus every selected read answers a byte, and changes nothing else. -/
theorem exec_selectRead_replies {s : State} {c : Cart} (hc : s.cart = some c) (hs : SizeOk c.img)
    (hb : BanksReachable s) (hv : VariantUsable s) {a : Addr} {i : Instr}
    (h : selectRead c.mbc.variant a = some i) : ∃ b, exec i s = .next (s.replying b) := by
  obtain ⟨img, mbc⟩ := c
  have hsize : 0x8000 ≤ img.size := hs.1
  have hp := hv _ hc
  unfold selectRead at h
  split_ifs at h with hrom0 hromx
  · have hlt : a.toNat < img.size := by omega
    cases h
    cases mbc with
    | fixed => exact ⟨_, (onFixed_of_cart hc _).trans (readImage_of_lt s hlt)⟩
    | a m => exact ⟨_, (onA_of_cart (hp rfl) hc _).trans (readImage_of_lt s (romIndex_lt hs _ a))⟩
    | b m => exact ⟨_, (onB_of_cart hc _).trans (readImage_of_lt s hlt)⟩
    | c m => exact ⟨_, (onC_of_cart (hp rfl) hc _).trans (readImage_of_lt s hlt)⟩
    | d m => exact ⟨_, (onD_of_cart (hp rfl) hc _).trans (readImage_of_lt s hlt)⟩
  · have hlt : a.toNat < img.size := by omega
    cases h
    cases mbc with
    | fixed => exact ⟨_, (onFixed_of_cart hc _).trans (readImage_of_lt s hlt)⟩
    | a m => exact ⟨_, (onA_of_cart (hp rfl) hc _).trans (readImage_of_lt s (romIndex_lt hs _ a))⟩
    | b m => exact ⟨_, (onB_of_cart hc _).trans (readImage_of_lt s (romIndexB_lt (hb _ _ hc) m.romBank a))⟩
    | c m => exact ⟨_, (onC_of_cart (hp rfl) hc _).trans (readImage_of_lt s (romIndex_lt hs _ a))⟩
    | d m => exact ⟨_, (onD_of_cart (hp rfl) hc _).trans (readImage_of_lt s (romIndex_lt hs _ a))⟩
  · cases h
    cases mbc with
    | fixed => exact ⟨_, onFixed_of_cart hc _⟩
    | a m => exact ⟨_, onA_of_cart (hp rfl) hc _⟩
    | b m => exact ⟨_, onB_of_cart hc _⟩
    | c m => exact ⟨_, onC_of_cart (hp rfl) hc _⟩
    | d m => exact ⟨_, onD_of_cart (hp rfl) hc _⟩

section
variable {s : State} (hs : BusReady s) {a : Addr} (h : routedCart a = true)
include hs h

theorem BusReady.read_cart : ∃ i b, decode (s.context false) (crdText a) = .ok i
    ∧ exec i s = .next (s.replying b) ∧ busByte a s = some b ∧ busAccess (.read a) s = .next s := by
  obtain ⟨c, hc, -, hsize, -⟩ := hs.cart
  have hv : (s.context false).variant = some c.mbc.variant := by simp [State.context, hc]
  obtain ⟨i, hi, hd⟩ := decode_cartReadWord (s.context false) a _ h hv (hs.variant c hc)
  rw [cartReadWord_eq] at hd
  obtain ⟨b, hb⟩ := exec_selectRead_replies hc hsize hs.banks hs.variant hi
  refine ⟨i, b, hd, hb, (busByte_of_cart_ok h hd hb).trans (if_pos rfl), ?_⟩
  rw [(CartAccess.read h).busAccess_of_ok hd, hb]
  rfl

theorem BusReady.write_cart (d : Byte) : ∃ i, decode (s.context false) (cwrText a d) = .ok i
    ∧ busAccess (.write a d) s = exec i s := by
  obtain ⟨c, hc, -⟩ := hs.cart
  have hv : (s.context false).variant = some c.mbc.variant := by simp [State.context, hc]
  obtain ⟨i, hi, hd⟩ := decode_cartWriteWord (s.context false) a d _ h hv (hs.variant c hc)
  rw [cartWriteWord_eq] at hd
  refine ⟨i, hd, ?_⟩
  rw [(CartAccess.write h d).busAccess_of_ok hd]
  exact keepingReply_of_reply (reply_cartWrite s hi)

end

/-! ## Accesses outside the block (R87) -/

theorem busAccess_outside {access : Access} {s : State} (h : accessWord? access = none) :
    busAccess access s = .next s := by
  simp only [busAccess, h]

end Sys2Proof.Machine

namespace Sys2Proof.Proofs

open Sys2Proof.Machine

/-- Settles O57: by where the address leads; at the cartridge by what the access's word decodes to. -/
theorem cpuAccessIsItsWord : Obligations.CpuAccessIsItsWord := by
  refine fun s a d => ⟨fun ha => ?_, fun ha => ?_, fun hs hc => ?_⟩
  · have hrouted : routedSurface a = true := (routedSurface_eq_surfaceRange a).trans ha
    exact ⟨busAccess_read_surface s ha, busByte_surface a s hrouted, busAccess_write_surface s ha d⟩
  · have hrouted : routedCart a = true := (routedCart_iff a).mpr ha
    refine ⟨fun access w hw => ?_, fun i t => busByte_of_cart_ok hrouted, fun r => busByte_of_cart_error hrouted,
      fun hnone => ?_, fun k hk hmem hacd => ?_, fun img m hb hwindow hge => ?_, fun hready => ?_⟩
    · have haccess : CartAccess access w := by
        obtain e | e := hw
        · cases e
          exact .read hrouted
        · cases e
          exact .write hrouted d
      exact ⟨fun i => haccess.runs, fun r => busAccess_of_error haccess.word⟩
    · have hv : (s.context false).variant = none := by simp [State.context, hnone]
      exact busAccess_of_cart_errors hrouted (decode_cartWords_of_none hrouted hv d)
    · have hv : (s.context false).variant = some k.mbc.variant := by simp [State.context, hk]
      have hg : k.mbc.variant.governedByAcdModel = true :=
        Variant.governedByAcdModel_iff.mpr (by simpa using hmem)
      exact busAccess_of_cart_errors hrouted (decode_cartWords_of_unspecified hrouted hv hg hacd d)
    · rw [← romIndexB_eq] at hge ⊢
      exact busAccess_beyond_image hb hwindow hge
    · obtain ⟨i, b, hd, hexec, hbyte, hread⟩ := hready.read_cart hrouted
      exact ⟨hread, ⟨i, b, hd, hexec, hbyte⟩, hready.write_cart hrouted d⟩
  · have houtside : busTarget a = .outside := busTarget_of_outside hs (mt (routedCart_iff a).mp hc)
    refine ⟨busAccess_outside ?_, busByte_outside a s houtside, busAccess_outside ?_⟩
    · simp only [accessWord?, houtside]
    · simp only [accessWord?, houtside]

end Sys2Proof.Proofs
end

section
/-! SUPPORT. Proofs of the statements of 45_orchestrator.md about steps and ticks: a step is its phases in order, a tick
is R350's loop, and both complete (R350 to R353, R365). -/

namespace Sys2Proof.Machine

/-! ## A step (R353) -/

/-- A step is its five phases in order, and then none is in progress. -/
theorem exec_orchStep_eq_inOrder {s : State} (hr : s.halted = false) : exec .orchStep s = inOrder
    [ fun u => cpuPhase (u.setPhase .cpu),
      fun u => .next (timerPhase u.orch.stepCycles (u.setPhase .timer)),
      fun u => ppuAdvance u.orch.stepCycles (u.setPhase .ppu),
      fun u => .next (latchPhase (u.setPhase .latch)),
      fun u => exec .orchDispatch (u.setPhase .dispatch),
      fun u => .next (u.setPhase .idle) ] s := by
  simp only [inOrder, List.foldl_cons, List.foldl_nil, andThen_of_running hr, andThen_assoc]
  rfl

/-! ### The PPU's advance by any count (R150, assumption log 33) -/

/-- With the display on: the run of R150's loop, and then the check. -/
theorem ppuAdvance_of_on {s : State} (c : Nat) (hr : s.Running) (hon : lcdOn (s.io .lcdc) = true) :
    ∃ events t, LoopRun (s.setCounter (s.ppu.counter + c)) events t
      ∧ ppuAdvance c s = inOrder [exec .ppuLycCheck] t := by
  obtain ⟨events, t, hrun, hloop⟩ := loopRun_of_advanceLoop ((s.ppu.counter + c) / 80 + 1)
    (s.setCounter (s.ppu.counter + c)) ((running_iff s).mp hr) (Nat.lt_succ_self _)
  refine ⟨events, t, hrun, ?_⟩
  rw [ppuAdvance, if_pos hon, hloop]
  rfl

/-- With the display off the count does not matter (R159). -/
theorem ppuAdvance_of_off {s : State} (c : Nat) (hr : s.Running) (hoff : lcdOn (s.io .lcdc) = false) :
    ppuAdvance c s = inOrder [exec .ppuLcdOff, exec .ppuLycCheck] s := by
  rw [inOrder_pair ((running_iff s).mp hr), ppuAdvance, if_neg (by simp [hoff])]
  rfl

/-! ### A step on a ready bus (R358, R365) -/

/-- What a tick needs of the machine and gives back. -/
structure StepReady (s : State) : Prop where
  running : s.halted = false
  ppu : PpuOk s
  bus : BusReady s

/-- A count of the orchestrator is nothing that readiness looks at. -/
theorem StepReady.orch {s : State} (h : StepReady s) (o : Orch) : StepReady { s with orch := o } :=
  ⟨h.running, h.ppu, h.bus.cart, h.bus.banks, h.bus.variant⟩

theorem StepReady.step {s : State} (h : StepReady s) : ∃ t, execOrchStep s = .next t ∧ StepReady t := by
  obtain ⟨t, ht, hmarks⟩ := orchStep_completes s h.running h.bus h.ppu.1
  exact ⟨t, ht, (halted_of_marks hmarks).trans h.running, orchStep_ppuOk s t ht h.ppu,
    h.bus.of_core (orchStep_core s t ht)⟩

/-! ## A tick (R350, R352) -/

/-- The budget and the carry (R350, R351). -/
def State.tickTarget (s : State) : ℚ := (s.cfg.clockHz : ℚ) / (s.cfg.refreshHz : ℚ) + s.orch.carry

/-- `done <- 0`. -/
def State.startTick (s : State) : State := { s with orch := { s.orch with cyclesDone := 0 } }

@[simp] theorem halted_startTick (s : State) : s.startTick.halted = s.halted := rfl

/-- `orch.carry <- target - done`. -/
def State.endTick (s : State) (target : ℚ) : State :=
  { s with orch := { s.orch with carry := target - (s.orch.cyclesDone : ℚ) } }

theorem exec_orchTick_of_none {s : State} (h : s.cart = none) :
    exec .orchTick s = .next (s.refusedBy .noCartridge) := by
  show execOrchTick s = _
  simp only [execOrchTick, h]
  rfl

theorem exec_orchTick_eq_andThen {s : State} (h : s.cart ≠ none) : exec .orchTick s
    = andThen (tickLoop s.tickTarget ⌈s.tickTarget⌉.toNat s.startTick) (fun t => .next (t.endTick s.tickTarget)) := by
  show execOrchTick s = _
  unfold execOrchTick
  split
  next hnone => exact absurd hnone h
  next => rfl

/-- With a cartridge a tick is a run of R350's loop, and then the new carry. -/
theorem exec_orchTick_run {s : State} (hr : s.Running) (h : s.cart ≠ none) : ∃ n t,
    TickRun s.tickTarget s.startTick n t ∧ n ≤ ⌈s.tickTarget⌉.toNat
      ∧ exec .orchTick s = andThen (.next t) (fun t => .next (t.endTick s.tickTarget)) := by
  obtain ⟨n, t, hrun, hloop, hn⟩ := tickLoop_fuel s.tickTarget ⌈s.tickTarget⌉.toNat s.startTick
    ((running_iff s).mp hr) (budget_fuel _)
  exact ⟨n, t, hrun, hn, by rw [exec_orchTick_eq_andThen h, hloop]⟩

/-- A run that sets no mark ends at the target or past it. -/
theorem TickRun.target_le {target : ℚ} {s t : State} {n : Nat} (h : TickRun target s n t) (ht : t.Running) :
    target ≤ (t.orch.cyclesDone : ℚ) := by
  induction h with
  | exit hdone => exact hdone
  | turn _ _ _ _ ih => exact ih ht
  | stop _ _ hmarked => exact absurd ht hmarked

/-- Every step of a run starts below the target, so its end is past it by less than the last step's cost. -/
theorem TickRun.lt_target {target : ℚ} {s t : State} {n : Nat} (h : TickRun target s n t) (ht : t.Running)
    (hs : (s.orch.cyclesDone : ℚ) < target + (s.orch.stepCycles : ℚ)) :
    (t.orch.cyclesDone : ℚ) < target + (t.orch.stepCycles : ℚ) := by
  induction h with
  | exit _ => exact hs
  | @turn s u t n hbelow hstep _ _ ih =>
    have hdone : u.orch.cyclesDone = s.orch.cyclesDone := (orchStep_core s u hstep).done
    refine ih ht ?_
    show ((u.orch.cyclesDone + u.orch.stepCycles : Nat) : ℚ) < target + (u.orch.stepCycles : ℚ)
    rw [hdone, Nat.cast_add]
    exact add_lt_add_left hbelow _
  | stop _ _ hmarked => exact absurd ht hmarked

/-- From a ready machine every step of a run completes. -/
theorem TickRun.ready {target : ℚ} {s t : State} {n : Nat} (h : TickRun target s n t) (hs : StepReady s) :
    StepReady t :=
  h.induct StepReady (fun _ hu => hu.orch _)
    (fun u v hu _ hv => by
      obtain ⟨w, hw, hready⟩ := hu.step
      cases hw.symm.trans hv
      exact hready)
    ((running_iff s).mpr hs.running) hs

end Sys2Proof.Machine

namespace Sys2Proof.Proofs

open Sys2Proof.Machine

/-- Settles O51: the step's definition is its phases in order, none of the later ones changing the count. -/
theorem stepPhases : Obligations.StepPhases := by
  intro s hr
  refine ⟨exec_orchStep_eq_inOrder ((running_iff s).mp hr), orch_timerPhase, fun t ht htr => ?_, fun _ _ => rfl,
    fun c u hu => ⟨ppuAdvance_of_on c hu, ppuAdvance_of_off c hu⟩, by decide, fun c hc => ?_⟩
  · obtain ⟨u, hcpu, -, horch⟩ := orchStep_cycles s t ht ((running_iff t).mp htr)
    exact ⟨u, hcpu, by rw [horch]⟩
  · exact (decode_internal (i := .orchStep) rfl c).trans (if_neg (by simp [hc]))

/-- Settles O52: a step on a ready bus sets no mark, so it went through all its phases. -/
theorem stepCompletes : Obligations.StepCompletes := by
  intro s hr hppu hbus
  obtain ⟨t, ht, hready⟩ := StepReady.step ⟨(running_iff s).mp hr, hppu, hbus⟩
  obtain ⟨u, -, -, horch⟩ := orchStep_cycles s t ht hready.running
  have hcore := orchStep_core s t ht
  exact ⟨t, ht, (running_iff t).mpr hready.running, hready.ppu, hready.bus, orchStep_pos s t ht hready.running,
    by rw [horch], hcore.carry, hcore.done⟩

/-- Settles O53: the loop's fuel suffices, so a tick is the run of R350's loop and its carry. -/
theorem tickIsTheLoop : Obligations.TickIsTheLoop := by
  refine fun s => ⟨fun hr hcart => ?_, exec_orchTick_of_none, by decide⟩
  obtain ⟨n, t, hrun, hn, hexec⟩ := exec_orchTick_run hr hcart
  refine ⟨n, t, hrun, hn, fun ht => ?_, fun ht => ?_⟩
  · exact hexec.trans (andThen_of_running ((running_iff t).mp ht) _)
  · rw [running_iff, Bool.not_eq_false] at ht
    rw [hexec, andThen_next, if_pos ht]

/-- Settles O54: every step of the run completes, and the run's end is at the target or past it by less than the
last step's cost. -/
theorem tickCompletes : Obligations.TickCompletes := by
  intro s hr hppu hbus target
  obtain ⟨c, hcart, -⟩ := hbus.cart
  obtain ⟨n, t, hrun, -, hexec⟩ := exec_orchTick_run hr (by simp [hcart])
  have hready : StepReady t := hrun.ready (StepReady.orch ⟨(running_iff s).mp hr, hppu, hbus⟩ _)
  have ht : t.Running := (running_iff t).mpr hready.running
  rw [andThen_of_running hready.running] at hexec
  have hend := hready.orch (t.endTick s.tickTarget).orch
  refine ⟨_, hexec, ht, hend.ppu, hend.bus, (exec_tick_frame hexec).cfg, rfl, ?_, fun hpos => ?_⟩
  · exact sub_nonpos.mpr (hrun.target_le ht)
  · have hstart : ((0 : Nat) : ℚ) < target + (s.orch.stepCycles : ℚ) := by positivity
    have hlast := hrun.lt_target ht hstart
    show -(t.orch.stepCycles : ℚ) < s.tickTarget - (t.orch.cyclesDone : ℚ)
    linarith

end Sys2Proof.Proofs
end

section
/-! SUPPORT. Proofs of the statements of 60_exceptions.md: a decoded word always answers a next state, its faults
and refusals being marks there (R52, R120, R400), and the codes of the marks (R401 to R404). -/

namespace Sys2Proof.Machine

/-! ## The families answer a next state -/

/-- A pass or a transition beyond the frame buffer is a mark as well (R213). -/
theorem exec_ppu_answers {i : Instr} (hi : PpuOp i) (s : State) : Answers1 (exec i s) := by
  rcases hi with ⟨n, rfl⟩ | hi
  · exact ppuAdvance_answers n.toNat s
  simp only [List.mem_cons, List.not_mem_nil, or_false] at hi
  rcases hi with rfl | rfl | rfl | rfl | rfl | rfl | rfl | rfl | rfl | rfl
  · exact ⟨_, rfl⟩
  · exact ⟨_, rfl⟩
  · obtain ⟨t, ht, -⟩ := tVramHblank_next s
    exact ⟨t, ht⟩
  · exact ⟨_, rfl⟩
  · exact ⟨_, rfl⟩
  · exact ⟨_, rfl⟩
  · exact ⟨_, rfl⟩
  · exact ⟨_, rfl⟩
  · obtain ⟨t, ht, -⟩ := rasterBgWin_next s.line s
    exact ⟨t, ht⟩
  · obtain ⟨t, ht, -⟩ := rasterObj_next s.line s
    exact ⟨t, ht⟩

/-- An operation of format C answers where its own variant is loaded (R119); one of format E always does, at an
unrouted address by a refusal mark. -/
theorem exec_bus_answers {i : Instr} (hi : BusOp i) (s : State)
    (hv : ∀ v, i.variant = some v → (s.context false).variant = some v) : Answers1 (exec i s) := by
  rcases hi with hsome | ⟨a, rfl⟩ | ⟨a, d, rfl⟩ | ⟨d, rfl⟩ | ⟨d, rfl⟩
  · obtain ⟨v, hi⟩ := Option.ne_none_iff_exists'.mp hsome
    rw [← busExec_eq_exec i s (.inl hsome)]
    exact busExec_answers i s v hi (hv v hi)
  · cases ha : a.surfaceRange with
    | true => exact ⟨_, exec_envRd s ha⟩
    | false => exact ⟨_, exec_envRd_unrouted s ha⟩
  · cases ha : a.surfaceRange with
    | true => exact ⟨_, exec_envWr s d ha⟩
    | false => exact ⟨_, exec_envWr_unrouted s d ha⟩
  · exact ⟨_, exec_envWrStat s d⟩
  · exact ⟨_, exec_envWrLy s d⟩

/-- A failed check of the image is a fault mark, a second load a refusal mark (R120, R241). -/
theorem exec_cartLoad_answers (s : State) : Answers1 (exec .cartLoad s) := by
  cases hcart : s.cart with
  | some c => exact ⟨_, exec_cartLoad_reload (by simp [hcart])⟩
  | none =>
    cases hload : loadCart s.cfg.cartRamInit s.port.loader with
    | error f => exact ⟨_, exec_cartLoad_of_error hcart hload⟩
    | ok c => exact ⟨_, exec_cartLoad_of_ok hcart hload⟩

theorem exec_hostCommit_answers (s : State) : Answers1 (exec .hostCommit s) := by
  by_cases hcart : s.cart = none
  · exact ⟨_, exec_hostCommit_of_none hcart⟩
  · exact ⟨_, exec_hostCommit hcart⟩

/-- The loop answers whatever its fuel and the state it starts from, one with a mark too. -/
theorem tickLoop_answers (target : ℚ) (fuel : Nat) : ∀ s, Answers1 (tickLoop target fuel s) := by
  induction fuel with
  | zero => exact answers_next
  | succ fuel ih =>
    intro s
    unfold tickLoop
    split
    · exact answers_andThen (orchStep_answers s) (fun _ => ih _)
    · exact answers_next s

theorem exec_orchTick_answers (s : State) : Answers1 (exec .orchTick s) := by
  by_cases hcart : s.cart = none
  · exact ⟨_, exec_orchTick_of_none hcart⟩
  · rw [exec_orchTick_eq_andThen hcart]
    exact answers_andThen (tickLoop_answers _ _ _) (fun _ => answers_next _)

/-! ## Every operation a word names in its context -/

/-- Only an operation of another variant than the loaded one can fail to answer a next state. -/
theorem exec_answers {i : Instr} {s : State}
    (hv : ∀ v, i.variant = some v → (s.context false).variant = some v) : Answers1 (exec i s) := by
  rcases op_cases i with hppu | hbus | rfl | rfl | rfl | rfl | rfl
  · exact exec_ppu_answers hppu s
  · exact exec_bus_answers hbus s hv
  · exact exec_cartLoad_answers s
  · exact exec_hostCommit_answers s
  · exact orchStep_answers s
  · exact dispatch_answers s
  · exact exec_orchTick_answers s

/-- The decoder names a `CART` operation only for the loaded variant (R119). -/
theorem variant_of_decode {c : Context} {w : Word} {i : Instr} {v : Variant} (h : decode c w = .ok i)
    (hv : i.variant = some v) : c.variant = some v := by
  have hadmits := (decode_spells h).admits
  rw [admits_cart hv, Bool.and_eq_true] at hadmits
  exact eq_of_beq hadmits.1

end Sys2Proof.Machine

namespace Sys2Proof.Proofs

open Sys2Proof.Machine

/-- Settles O9: the decoder names an operation only where its variant is loaded, and there each family answers a
next state. -/
theorem decodedWordsAnswerNext : Obligations.DecodedWordsAnswerNext :=
  fun s inside _ _ hdec => exec_answers fun _ hv => variant_of_decode (c := s.context inside) hdec hv

/-- Settles O11: both tables are `FaultMark.code` and `refusalCode`, evaluated at each kind and reason. -/
theorem markCodes : Obligations.MarkCodes :=
  ⟨fun _ _ _ _ => ⟨rfl, rfl, rfl, rfl⟩, rfl⟩

end Sys2Proof.Proofs
end

section
/-! SUPPORT. Proof of the statement of 70_reset_and_hazards.md about creation: what the default initial contents hold
at a plain byte and at a cell of the frame buffer (R442). -/

namespace Sys2Proof.Machine

/-! ## The machine created with the default initial contents (R442) -/

/-- An address that names no register reads the sparse memory. -/
theorem State.memRead_of_regAt_none (s : State) {a : Nat} (h : regAt a = none) :
    s.memRead a = Cells.read s.surface.mem a := by
  simp only [State.memRead, h]

theorem State.memRead_reset_of_regAt_none {a : Nat} (h : regAt a = none) : State.reset.memRead a = 0 :=
  (State.reset.memRead_of_regAt_none h).trans (Cells.read_nil a)

theorem fb_reset_row {y : Nat} (hy : y < 144) : State.reset.fb[y]? = some (Vector.replicate 160 0) :=
  Vector.getElem?_replicate_of_lt hy

theorem pixel_reset {x y : Nat} (hx : x < 160) (hy : y < 144) : State.reset.pixel? x y = some 0 :=
  (pixel_of_row (fb_reset_row hy) x).trans (Vector.getElem?_replicate_of_lt hx)

theorem mode_reset : State.reset.mode = .oam := by decide

end Sys2Proof.Machine

namespace Sys2Proof.Proofs

open Sys2Proof.Machine

/-- Settles O14: `State.create` writes each fixed field out, and the default contents are the empty sparse memory and
a frame buffer of cells 0. -/
theorem creationValues : Obligations.CreationValues :=
  ⟨fun _ _ _ _ _ _ _ => ⟨rfl, rfl, rfl, rfl, rfl, rfl, rfl, rfl, rfl⟩, rfl, mode_reset,
    fun _ => State.memRead_reset_of_regAt_none, fun _ _ => pixel_reset⟩

end Sys2Proof.Proofs
end
